-- ==== Sys2Proof/Word.lean ====
section
/-! DEFINITION. The word types of the block (00_scope.md R8, R9; 40_word_primitives.md R75): every value is an
unsigned integer of a fixed width. Addition and multiplication on them are those of `BitVec`, which wrap modulo
2^width and record nothing; the named primitives stand in Machine/Words.lean. -/

namespace Sys2Proof

/-- `u8` of R9. -/
abbrev Byte := BitVec 8

/-- `u32` of R9: a word of the command and response streams, a Xoodoo lane, a chaining word. -/
abbrev U32 := BitVec 32

/-- `u64` of R9: a Keccak lane, an XXH64 accumulator, the length counter. -/
abbrev U64 := BitVec 64

end Sys2Proof
end

