-- ==== Sys2Proof/Config.lean ====
section
/-! DEFINITION. What is fixed when the block is built (00_scope.md R8, 93_implementation_defined.md U12) and the types
the variant table (30_encoding.md R62) is written in. The table itself stands in Machine/Variants.lean. -/

namespace Sys2Proof

/-- The fifteen variants of R62, each under its mnemonic. -/
inductive Variant
  | keccak224 | keccak256 | keccak384 | keccak512
  | sha3_224 | sha3_256 | sha3_384 | sha3_512
  | shake128 | shake256
  | xoodyak
  | ripemd256
  | city64 | xxh32 | xxh64
  deriving DecidableEq, Repr

/-- The tag of the sum type of variants (R12, R63): `SpongeKeccakStyle`, `SpongeXoodooStyle`, `DualLineCompression`,
`DirectMix`. -/
inductive Kind
  | keccak | xoodoo | rmd | mix
  deriving DecidableEq, Repr

/-- The byte order of DirectMix digests (`MIX_OUT_ORDER`, R8, R193): most or least significant byte first. -/
inductive ByteOrder
  | mostFirst | leastFirst
  deriving DecidableEq, Repr

/-- One row of the variant table R62, its identifier and construction name apart. -/
structure Row where
  kind   : Kind
  block  : BitVec 32
  outlen : BitVec 16
  xof    : Bool
  ds     : Byte
  rounds : BitVec 5
  deriving DecidableEq, Repr

/-- The parameters the spec leaves open and a model takes as an argument (R8): `MIX_BUF_CAP`, `MIX_OUT_ORDER` and
`VARIANTS`. (`N_INST` is the length of Machine/Block.lean's list.) A statement about every state holds for every value
of them. -/
structure Params where
  mixBufCap   : BitVec 32
  mixOutOrder : ByteOrder
  variants    : List Variant
  deriving DecidableEq, Repr

/-- R8's bound on `MIX_BUF_CAP`: at least 1 (at most 2^32 - 1 is its type). -/
def Params.ok (p : Params) : Bool := p.mixBufCap != 0

/-- The defaults: `MIX_OUT_ORDER` and `VARIANTS` are R8's own; `MIX_BUF_CAP` is OPEN and 4096 is the value the spec's test
vectors use. DESIGN CHOICE (log entry 1). -/
def Params.default : Params where
  mixBufCap := 4096
  mixOutOrder := .mostFirst
  variants := [.keccak224, .keccak256, .keccak384, .keccak512, .sha3_224, .sha3_256, .sha3_384, .sha3_512,
    .shake128, .shake256, .xoodyak, .ripemd256, .city64, .xxh32, .xxh64]

end Sys2Proof
end

