-- ==== Sys2Proof/Machine/State.lean ====
section
/-! DEFINITION. The state of one instance of the block (10_state.md) with the two streams it stands between (20_memory.md
R35), as plain data; the reasons a step can stop; and the state after hardware reset (R26, R250). -/

namespace Sys2Proof.Machine

/-- The values of `STATUS.FAULT` and of `ST` (R11, R61, R230): no fault, and the four faults. The codes 5 to 7 are never
produced, so the type does not hold them (93_implementation_defined.md U9). -/
inductive FaultCode
  | noFault
  | configurationError
  | invariantViolation
  | protocolError
  | capacityExceeded
  deriving DecidableEq, Repr

/-- `STATUS` (R11): `BOUND` is bit 0, `FAULT` bits [3:1]; Machine/Flags.lean gives the bits. -/
structure Status where
  bound : Bool
  fault : FaultCode
  deriving DecidableEq, Repr

/-- `CFG`, the variant configuration (R12). -/
structure Cfg where
  vid    : BitVec 8
  kind   : Kind
  block  : BitVec 32
  outlen : BitVec 16
  rounds : BitVec 5
  ds     : Byte
  xof    : Bool
  deriving DecidableEq, Repr

/-- `MODE` (R20). -/
inductive Mode
  | absorbing | squeezing
  deriving DecidableEq, Repr

/-- `A[0..24]` (R14). -/
abbrev KeccakLanes := Vector U64 25

/-- `X[0..11]` (R15). -/
abbrev XoodooLanes := Vector U32 12

/-- `H[0..7]` (R16). -/
abbrev Chaining := Vector U32 8

/-- The state array of the bound variant, a tagged union so that a rule of one kind cannot read the array of another
(R13 to R17): `A` with `MODE`, `X` with `MODE`, `H`, `V` of four 32-bit or four 64-bit words, or nothing for `CITY64`.
`MODE` exists exactly for the two sponge kinds (R20). -/
inductive Engine
  | keccak (a : KeccakLanes) (mode : Mode)
  | xoodoo (x : XoodooLanes) (mode : Mode)
  | rmd (h : Chaining)
  | xxh32 (v : Vector U32 4)
  | xxh64 (v : Vector U64 4)
  | city64
  deriving DecidableEq, Repr

/-- A byte-addressed memory: the cells that do not hold 0, at strictly rising offsets. An unlisted offset reads as 0, the
value every byte of `BUF` has after an instance reset (R18, R26). Machine/Ops.lean reads and writes it. -/
abbrev Memory := List Host.Cell

/-- What exists once a variant is bound: `CFG`, the state array, `BUF`, `BUFLEN`, `LEN` (R12, R13, R18, R19). -/
structure Inst where
  cfg    : Cfg
  engine : Engine
  buf    : Memory
  bufLen : Nat
  len    : U64
  deriving DecidableEq, Repr

/-- What reaches the block from the host, in order: a word of the command stream (R55) or the hardware reset event `RST`
(R250). Words after an `RST` belong to the fresh command stream. -/
inductive HostEvent
  | word (w : U32)
  | rst
  deriving DecidableEq, Repr

/-- The machine. `status` and `inst` are the block's own state; `inst` is `none` while the fields it holds do not exist
(R26). `input` and `responses` are the two streams (R35, R55, R61) and `cpc` the host's index into the first (R24): the
words still to be consumed, the words produced since the last hardware reset, the number of words consumed since it.
`params` are the open parameters of R8; no step changes them. -/
structure State where
  params    : Params
  status    : Status
  inst      : Option Inst
  input     : List HostEvent
  responses : List U32
  cpc       : Nat
  deriving DecidableEq, Repr

/-- The reasons a step does not exist. Both are raised by the fetch (Machine/Fetch.lean) when the input holds no complete
command and no `RST`: the instance is stuck, waiting for the host (R65). Both are safe: no claim about a next state can
be proved of them. -/
inductive Fault
  /-- Raised by the fetch when there is no command word and no `RST` (R55). Safe. -/
  | awaitingCommand
  /-- Raised by the fetch when a `FEED`'s payload words have not all arrived and there is no `RST` (R65, R257). Safe. -/
  | awaitingPayload
  deriving DecidableEq, Repr

/-- An instruction without a meaning. -/
inductive Refusal
  /-- Raised by an arm of `exec` whose instruction has no meaning yet. Safe. No arm raises it. -/
  | notModelled (mnemonic : String)
  deriving DecidableEq, Repr

/-- The state after hardware reset (R26, R250, R252): `STATUS` is 0 and nothing else of the instance exists; the streams
are fresh and hold nothing, `cpc` is 0 (R24). The parameters are `Params.default` (log entry 1). -/
def State.reset : State where
  params := .default
  status := ⟨false, .noFault⟩
  inst := none
  input := []
  responses := []
  cpc := 0

/-! ### Named updates -/

/-- `STATUS <- st`. -/
def State.setStatus (s : State) (st : Status) : State := { s with status := st }

/-- The instance's fields become `i`. -/
def State.setInst (s : State) (i : Inst) : State := { s with inst := some i }

/-- Words leave by the response stream, in order (R55). -/
def State.emit (s : State) (ws : List U32) : State := { s with responses := s.responses ++ ws }

/-- The first `k` words of the command stream are consumed: `cpc` advances by `k` (R24). -/
def State.consume (s : State) (k : Nat) : State := { s with input := s.input.drop k, cpc := s.cpc + k }

end Sys2Proof.Machine
end

