-- ==== Sys2Proof/Machine/Flags.lean ====
section
/-! DEFINITION. The bits of `STATUS` and of the response status word, and the controller state read from them (10_state.md
R11; 30_encoding.md R61; 45_streaming_controller.md R200; 60_exceptions.md R230). The block has no condition codes
(R20). -/

namespace Sys2Proof.Machine

/-- The number of a fault (R230), the value of `STATUS.FAULT`. -/
def FaultCode.bits : FaultCode → BitVec 3
  | .noFault => 0
  | .configurationError => 1
  | .invariantViolation => 2
  | .protocolError => 3
  | .capacityExceeded => 4

/-- The `ST` byte of a response (R61): the same number. -/
def FaultCode.st (c : FaultCode) : BitVec 8 := c.bits.setWidth 8

/-- `STATUS` as its four bits (R11): `FAULT` in [3:1], `BOUND` in [0]. -/
def Status.bits (st : Status) : BitVec 4 :=
  (st.fault.bits.setWidth 4 <<< 1) ||| (BitVec.ofBool st.bound).setWidth 4

/-- The three states of the controller (R200). -/
inductive Controller
  | unbound | ready | faulted
  deriving DecidableEq, Repr

/-- The controller state, readable from `STATUS` (R200). -/
def Status.controller (st : Status) : Controller :=
  if st.fault ≠ .noFault then .faulted else if st.bound then .ready else .unbound

/-- A response status word: `ST` in [31:24], `RN` in [23:0] (R61). -/
def statusWord (st : FaultCode) (rn : BitVec 24) : U32 :=
  (st.st.setWidth 32 <<< 24) ||| rn.setWidth 32

end Sys2Proof.Machine
end

