-- ==== Sys2Proof/Machine/Variants.lean ====
section
/-! DEFINITION. The variant table of 30_encoding.md R62 and the structure of a variant id (R63). -/

namespace Sys2Proof

/-- The `VID` column of R62. -/
def Variant.vid : Variant → BitVec 8
  | .keccak224 => 0x00
  | .keccak256 => 0x01
  | .keccak384 => 0x02
  | .keccak512 => 0x03
  | .sha3_224 => 0x04
  | .sha3_256 => 0x05
  | .sha3_384 => 0x06
  | .sha3_512 => 0x07
  | .shake128 => 0x08
  | .shake256 => 0x09
  | .xoodyak => 0x10
  | .ripemd256 => 0x20
  | .city64 => 0x30
  | .xxh32 => 0x31
  | .xxh64 => 0x32

/-- The rows of R62 in the table's order. -/
def Variant.all : List Variant :=
  [.keccak224, .keccak256, .keccak384, .keccak512, .sha3_224, .sha3_256, .sha3_384, .sha3_512,
   .shake128, .shake256, .xoodyak, .ripemd256, .city64, .xxh32, .xxh64]

/-- The row a `VID` selects, if it has one (R62). -/
def Variant.ofVid (b : BitVec 8) : Option Variant :=
  Variant.all.find? (fun v => v.vid == b)

/-- The other columns of R62; `BLOCK` of `CITY64` is `MIX_BUF_CAP`. -/
def Variant.row (p : Params) : Variant → Row
  | .keccak224 => ⟨.keccak, 144, 28, false, 0x01, 24⟩
  | .keccak256 => ⟨.keccak, 136, 32, false, 0x01, 24⟩
  | .keccak384 => ⟨.keccak, 104, 48, false, 0x01, 24⟩
  | .keccak512 => ⟨.keccak, 72, 64, false, 0x01, 24⟩
  | .sha3_224 => ⟨.keccak, 144, 28, false, 0x06, 24⟩
  | .sha3_256 => ⟨.keccak, 136, 32, false, 0x06, 24⟩
  | .sha3_384 => ⟨.keccak, 104, 48, false, 0x06, 24⟩
  | .sha3_512 => ⟨.keccak, 72, 64, false, 0x06, 24⟩
  | .shake128 => ⟨.keccak, 168, 32, true, 0x1F, 24⟩
  | .shake256 => ⟨.keccak, 136, 64, true, 0x1F, 24⟩
  | .xoodyak => ⟨.xoodoo, 16, 32, true, 0x01, 12⟩
  | .ripemd256 => ⟨.rmd, 64, 32, false, 0x80, 0⟩
  | .city64 => ⟨.mix, p.mixBufCap, 8, false, 0x00, 0⟩
  | .xxh32 => ⟨.mix, 16, 4, false, 0x00, 0⟩
  | .xxh64 => ⟨.mix, 32, 8, false, 0x00, 0⟩

/-- The numbering of the kinds (R12, R63): the two bits `VID[5:4]`. -/
def Kind.ofBits (b : BitVec 2) : Kind :=
  if b = 0 then .keccak else if b = 1 then .xoodoo else if b = 2 then .rmd else .mix

/-- `VID[5:4]` as a kind (R63). -/
def kindOfVid (vid : BitVec 8) : Kind := Kind.ofBits (vid.extractLsb' 4 2)

end Sys2Proof
end

