-- ==== Sys2Proof/Machine/Words.lean ====
section
/-! DEFINITION. The word arithmetic primitives (40_word_primitives.md R75 to R93): pure functions, none of which reads or
writes state, sets a flag or can fault. -/

namespace Sys2Proof.Machine

/-- R76: `b0` is the byte at the lowest offset. -/
def pack32le (b0 b1 b2 b3 : Byte) : U32 :=
  b0.setWidth 32 ||| (b1.setWidth 32 <<< 8) ||| (b2.setWidth 32 <<< 16) ||| (b3.setWidth 32 <<< 24)

/-- R77: byte `i` is bits `8i + 7` to `8i`. -/
def unpack32le (w : U32) : List Byte :=
  [w.extractLsb' 0 8, w.extractLsb' 8 8, w.extractLsb' 16 8, w.extractLsb' 24 8]

/-- R78: the low half is the word at the lower offset. -/
def pack64le (b0 b1 b2 b3 b4 b5 b6 b7 : Byte) : U64 :=
  (pack32le b0 b1 b2 b3).setWidth 64 ||| ((pack32le b4 b5 b6 b7).setWidth 64 <<< 32)

/-- R79. -/
def unpack64le (w : U64) : List Byte :=
  unpack32le (w.extractLsb' 0 32) ++ unpack32le (w.extractLsb' 32 32)

/-- R80: rotation left by `n mod 32`. -/
def rotl32 (w : U32) (n : Nat) : U32 :=
  let k := n % 32
  if k = 0 then w else (w <<< k) ||| (w >>> (32 - k))

/-- R81: rotation right by `n mod 32`. -/
def rotr32 (w : U32) (n : Nat) : U32 :=
  let k := n % 32
  if k = 0 then w else (w >>> k) ||| (w <<< (32 - k))

/-- R82: rotation left by `n mod 64`. -/
def rotl64 (w : U64) (n : Nat) : U64 :=
  let k := n % 64
  if k = 0 then w else (w <<< k) ||| (w >>> (64 - k))

/-- R83: rotation right by `n mod 64`. -/
def rotr64 (w : U64) (n : Nat) : U64 :=
  let k := n % 64
  if k = 0 then w else (w >>> k) ||| (w <<< (64 - k))

/-- R84: addition modulo 2^32. -/
abbrev add32 (a b : U32) : U32 := a + b

/-- R85: multiplication modulo 2^32. -/
abbrev mul32 (a b : U32) : U32 := a * b

/-- R86: addition modulo 2^64. -/
abbrev add64 (a b : U64) : U64 := a + b

/-- R87: multiplication modulo 2^64. -/
abbrev mul64 (a b : U64) : U64 := a * b

/-- R88: the 64-bit addition on (low, high) halves; `s` is exact in 33 bits and bit 32 of it is the carry. -/
def add64H (a b : U32 × U32) : U32 × U32 :=
  let s : BitVec 33 := a.1.setWidth 33 + b.1.setWidth 33
  (s.extractLsb' 0 32, a.2 + b.2 + (s.extractLsb' 32 1).setWidth 32)

/-- R89: the 64-bit multiplication on (low, high) halves, from partial products exact in 64 bits; `p11` has weight 2^64
and does not reach the result. -/
def mul64H (a b : U32 × U32) : U32 × U32 :=
  let p00 : U64 := a.1.setWidth 64 * b.1.setWidth 64
  let p01 : U64 := a.1.setWidth 64 * b.2.setWidth 64
  let p10 : U64 := a.2.setWidth 64 * b.1.setWidth 64
  (p00.extractLsb' 0 32, p00.extractLsb' 32 32 + p01.extractLsb' 0 32 + p10.extractLsb' 0 32)

/-- A 64-bit word from its (low, high) halves (R88, R89). -/
def ofHalves (p : U32 × U32) : U64 := p.1.setWidth 64 ||| (p.2.setWidth 64 <<< 32)

/-- R91: `SHR` exists only for `0 < n < width`; other amounts are refused by the type (93_implementation_defined.md
U10). -/
def shr {width : Nat} (w : BitVec width) (n : Nat) (_h : 0 < n ∧ n < width := by decide) : BitVec width := w >>> n

/-- R91: `SHL`, for `0 < n < width` only. -/
def shl {width : Nat} (w : BitVec width) (n : Nat) (_h : 0 < n ∧ n < width := by decide) : BitVec width := w <<< n

/-- R92: the bytes of a 64-bit word in reverse order. -/
def bswap64 (w : U64) : U64 :=
  pack64le (w.extractLsb' 56 8) (w.extractLsb' 48 8) (w.extractLsb' 40 8) (w.extractLsb' 32 8)
    (w.extractLsb' 24 8) (w.extractLsb' 16 8) (w.extractLsb' 8 8) (w.extractLsb' 0 8)

end Sys2Proof.Machine
end

