-- ==== Sys2Proof/Machine/Ops.lean ====
section
/-! DEFINITION. The shared operations: the buffer memory (20_memory.md R35 to R40), responding (30_encoding.md R61),
entering a fault and leaving it by hardware reset (60_exceptions.md R233, R237; 70_reset_and_hazards.md R250), and the
guards every command begins with (45_streaming_controller.md R200; 60_exceptions.md R236). -/

namespace Sys2Proof.Machine

/-! ### The buffer memory -/

/-- The byte at an offset; an unlisted offset reads as 0 (R18). -/
def Memory.read : Memory → Nat → Byte
  | [], _ => 0#8
  | (k, v) :: r, a => if a = k then v else Memory.read r a

/-- Store a byte, keeping the canonical form: storing 0 removes the cell. -/
def Memory.write : Memory → Nat → Byte → Memory
  | [], a, b => if b = 0#8 then [] else [(a, b)]
  | (k, v) :: r, a, b =>
    if a < k then (if b = 0#8 then (k, v) :: r else (a, b) :: (k, v) :: r)
    else if a = k then (if b = 0#8 then r else (a, b) :: r)
    else (k, v) :: Memory.write r a b

/-- Offsets rise strictly from `lo` on and no cell holds 0. -/
def Memory.wfFrom : Nat → Memory → Bool
  | _, [] => true
  | lo, (k, v) :: r => decide (lo ≤ k) && v != 0#8 && Memory.wfFrom (k + 1) r

/-- The canonical form, in which equal memories are equal lists. -/
def Memory.wf (m : Memory) : Bool := Memory.wfFrom 0 m

/-- The bytes at offsets `a` to `a + n - 1`: `BUF[a .. a+n)`. -/
def Memory.bytes (m : Memory) (a : Nat) : Nat → List Byte
  | 0 => []
  | n + 1 => Memory.read m a :: Memory.bytes m (a + 1) n

/-- `MemRead(addr, 1)` (R38). -/
def memRead1 (m : Memory) (a : Nat) : Byte := Memory.read m a

/-- `MemRead(addr, 4)` (R38): little-endian, at any offset (R39). -/
def memRead4 (m : Memory) (a : Nat) : U32 :=
  pack32le (Memory.read m a) (Memory.read m (a + 1)) (Memory.read m (a + 2)) (Memory.read m (a + 3))

/-- `MemRead(addr, 8)` (R38): little-endian, at any offset (R39). -/
def memRead8 (m : Memory) (a : Nat) : U64 :=
  pack64le (Memory.read m a) (Memory.read m (a + 1)) (Memory.read m (a + 2)) (Memory.read m (a + 3))
    (Memory.read m (a + 4)) (Memory.read m (a + 5)) (Memory.read m (a + 6)) (Memory.read m (a + 7))

/-- Store a sequence of bytes at consecutive offsets. -/
def Memory.writeBytes : Memory → Nat → List Byte → Memory
  | m, _, [] => m
  | m, a, b :: bs => Memory.writeBytes (Memory.write m a b) (a + 1) bs

/-- `MemWrite(addr, n, v)` (R9, R38): the `n` low-order bytes of `v`, little-endian. -/
def memWrite (m : Memory) (a n : Nat) (v : U64) : Memory := Memory.writeBytes m a ((unpack64le v).take n)

/-! ### Responses and faults -/

/-- Bytes packed into stream words, first byte least significant; the unused high bytes of the last word are zero
(R58, R61). -/
def packWords : List Byte → List U32
  | [] => []
  | [b0] => [pack32le b0 0 0 0]
  | [b0, b1] => [pack32le b0 b1 0 0]
  | [b0, b1, b2] => [pack32le b0 b1 b2 0]
  | b0 :: b1 :: b2 :: b3 :: r => pack32le b0 b1 b2 b3 :: packWords r

/-- The words of a response: the status word with the number of data bytes, then the data words (R61). -/
def responseWords (st : FaultCode) (data : List Byte) : List U32 :=
  statusWord st (BitVec.ofNat 24 data.length) :: packWords data

/-- `respond(ST, bytes)` (R61): one response leaves by the response stream. -/
def respond (st : FaultCode) (data : List Byte) (s : State) : State := s.emit (responseWords st data)

/-- What a fault writes (R233): the code is stored and `ConfigurationError` clears `BOUND`; nothing else changes. While
`BOUND` is 0 the fields of the instance hold no value (R12; 93_implementation_defined.md U4), so a `ConfigurationError`
leaves none: DEDUCED, unsafe for a claim that names them, log entry 3. -/
def recordFault (c : FaultCode) (s : State) : State :=
  { s with
    status := ⟨if c = .configurationError then false else s.status.bound, c⟩
    inst := if c = .configurationError then none else s.inst }

/-- Fault entry, whole (R233): the fault is recorded and the response is the status word alone. Nothing is saved and
control goes nowhere: the block has no vector and no saved state. -/
def raiseFault (c : FaultCode) (s : State) : State := respond c [] (recordFault c s)

/-- The hardware reset event `RST` (R250): the only return from a fault (R237). `STATUS` becomes 0, every other field of
the instance ceases to exist, both streams restart; `fresh` is what the host sends after it. -/
def hardwareReset (fresh : List HostEvent) (s : State) : State where
  params := s.params
  status := ⟨false, .noFault⟩
  inst := none
  input := fresh
  responses := []
  cpc := 0

/-! ### The instance -/

/-- The state array has the size and kind the configuration names (R13 to R17, R232). -/
def Engine.agrees (e : Engine) (c : Cfg) : Bool :=
  match e with
  | .keccak _ _ => c.kind == .keccak
  | .xoodoo _ _ => c.kind == .xoodoo
  | .rmd _ => c.kind == .rmd
  | .xxh32 _ => c.kind == .mix && c.vid == Variant.vid .xxh32
  | .xxh64 _ => c.kind == .mix && c.vid == Variant.vid .xxh64
  | .city64 => c.kind == .mix && c.vid == Variant.vid .city64

/-- Neither condition of `InvariantViolation` holds (R232): the buffer is no longer than the block and the state array
is that of the bound kind. -/
def Inst.sized (i : Inst) : Bool := decide (i.bufLen ≤ i.cfg.block.toNat) && i.engine.agrees i.cfg

/-- `CFG.VID = CITY64`. -/
def Cfg.isCity (c : Cfg) : Bool := c.vid == Variant.vid .city64

/-- The two guards of every command (R200, R236): a stored fault answers with its code and changes nothing; an unbound
instance is a `ProtocolError`. An instance that breaks R232's conditions, which no run reaches, is an
`InvariantViolation`, entered as R233 says (log entry 5). Otherwise the command goes on with the instance. -/
def withInst (s : State) (k : Inst → Host.Outcome State Fault Refusal) : Host.Outcome State Fault Refusal :=
  if s.status.fault ≠ .noFault then .next (respond s.status.fault [] s)
  else if s.status.bound = false then .next (raiseFault .protocolError s)
  else match s.inst with
    | none => .next (raiseFault .invariantViolation s)
    | some i => if i.sized then k i else .next (raiseFault .invariantViolation s)

end Sys2Proof.Machine
end

