-- ==== Sys2Proof/Machine/Operands.lean ====
section
/-! DEFINITION. The operand forms: the data bytes of a `FEED` (30_encoding.md R58), the effective output length of a
`CONSTRUCT` (R68), words of a block of bytes and byte views of the state arrays (20_memory.md R36, R48). -/

namespace Sys2Proof.Machine

/-- The bytes of stream words, low byte of each word first (R58). -/
def unpackWords (ws : List U32) : List Byte := ws.flatMap unpack32le

/-- The data bytes `D[0..N)` of a `FEED`: the first `N` payload bytes; the rest of the last word is not examined
(R58). -/
def feedData (n : BitVec 24) (payload : List U32) : List Byte := (unpackWords payload).take n.toNat

/-- The effective output length, if the combination is supported (R68). -/
def effectiveOutLen (row : Row) (outreq : BitVec 16) : Option (BitVec 16) :=
  if outreq = 0 then some row.outlen
  else if row.xof then some outreq
  else if outreq = row.outlen then some row.outlen
  else none

/-- `PACK32LE(D[a .. a+4))` of a block of bytes. -/
def word32At (d : List Byte) (a : Nat) : U32 :=
  pack32le (d.getD a 0) (d.getD (a + 1) 0) (d.getD (a + 2) 0) (d.getD (a + 3) 0)

/-- `PACK64LE(D[a .. a+8))` of a block of bytes. -/
def word64At (d : List Byte) (a : Nat) : U64 :=
  pack64le (d.getD a 0) (d.getD (a + 1) 0) (d.getD (a + 2) 0) (d.getD (a + 3) 0)
    (d.getD (a + 4) 0) (d.getD (a + 5) 0) (d.getD (a + 6) 0) (d.getD (a + 7) 0)

/-- `STBYTES` of an array of 64-bit words (R48). -/
def stBytes64 {n : Nat} (a : Vector U64 n) : List Byte := a.toList.flatMap unpack64le

/-- `STBYTES` of an array of 32-bit words (R48). -/
def stBytes32 {n : Nat} (x : Vector U32 n) : List Byte := x.toList.flatMap unpack32le

/-- XOR byte `v` into state byte `k` of an array of 32-bit words (R48). -/
def xorStateByte32 {n : Nat} (x : Vector U32 n) (k : Nat) (v : Byte) : Vector U32 n :=
  Vector.ofFn fun j => if j.val = k / 4 then x[j] ^^^ (v.setWidth 32 <<< (8 * (k % 4))) else x[j]

/-- XOR the bytes of `d` into the state bytes from `k` on (R48). -/
def xorStateBytes32 {n : Nat} (x : Vector U32 n) (k : Nat) : List Byte → Vector U32 n
  | [] => x
  | v :: vs => xorStateBytes32 (xorStateByte32 x k v) (k + 1) vs

/-- XOR `v` into byte `k` of a block of bytes. -/
def xorByteAt : List Byte → Nat → Byte → List Byte
  | [], _, _ => []
  | b :: bs, 0, v => (b ^^^ v) :: bs
  | b :: bs, k + 1, v => b :: xorByteAt bs k v

/-- `zeros(n)` (R9). -/
def zeros (n : Nat) : List Byte := List.replicate n 0

end Sys2Proof.Machine
end

