-- ==== Sys2Proof/Machine/Keccak.lean ====
section
/-! DEFINITION. The Keccak-style permutation and its sponge (41_keccak_permutation.md R100 to R115). -/

namespace Sys2Proof.Machine.Keccak

/-- The table of R101 as it stands there: row `i` holds `KECCAK_RC[i]` and `KECCAK_RC[i + 12]`. -/
def rcRows : Vector (U64 × U64) 12 := #v[
  (0x0000000000000001, 0x000000008000808B),
  (0x0000000000008082, 0x800000000000008B),
  (0x800000000000808A, 0x8000000000008089),
  (0x8000000080008000, 0x8000000000008003),
  (0x000000000000808B, 0x8000000000008002),
  (0x0000000080000001, 0x8000000000000080),
  (0x8000000080008081, 0x000000000000800A),
  (0x8000000000008009, 0x800000008000000A),
  (0x000000000000008A, 0x8000000080008081),
  (0x0000000000000088, 0x8000000000008080),
  (0x0000000080008009, 0x0000000080000001),
  (0x000000008000000A, 0x8000000080008008)]

/-- `KECCAK_RC[i]` (R101). -/
def rc (i : Fin 24) : U64 := if h : i.val < 12 then rcRows[i.val].1 else rcRows[i.val - 12].2

/-- The lane at column `x`, row `y`, indices modulo 5 (R100). -/
def lane (x y : Nat) : Fin 25 := ⟨x % 5 + 5 * (y % 5), by omega⟩

/-- A column index modulo 5 (R100). -/
def col (x : Nat) : Fin 5 := ⟨x % 5, Nat.mod_lt _ (by decide)⟩

/-- The table of R102 as it stands there: one row for each `y`, the columns `x` from 0 to 4. -/
def rhoRows : Vector (Vector Nat 5) 5 := #v[
  #v[0, 1, 62, 28, 27],
  #v[36, 44, 6, 55, 20],
  #v[3, 10, 43, 25, 39],
  #v[41, 45, 15, 21, 8],
  #v[18, 2, 61, 56, 14]]

/-- `KECCAK_RHO[x + 5y]` (R102). -/
def rhoOffset (x y : Nat) : Nat := rhoRows[col y][col x]

/-- `KECCAK_PI[x + 5y]`, where the lane at column `x`, row `y` moves (R103). -/
def piDest (x y : Nat) : Fin 25 := lane y (2 * x + 3 * y)

/-- The inverse R103 lists, which lane moves to column `x`, row `y`: its row is `x`, and `2 * (x + 3y) + 3x` is `y` modulo
5. -/
def piSource (x y : Nat) : Fin 25 := lane (x + 3 * y) x

/-- The column parities `C` (R104). -/
def parity (a : KeccakLanes) : Vector U64 5 := Vector.ofFn fun x =>
  a[lane x 0] ^^^ a[lane x 1] ^^^ a[lane x 2] ^^^ a[lane x 3] ^^^ a[lane x 4]

/-- The correction `D` (R104). -/
def correction (p : Vector U64 5) : Vector U64 5 := Vector.ofFn fun x =>
  p[col (x.val + 4)] ^^^ rotl64 p[col (x.val + 1)] 1

/-- `THETA` (R104). -/
def theta (a : KeccakLanes) : KeccakLanes :=
  let d := correction (parity a)
  Vector.ofFn fun i => a[i] ^^^ d[col i.val]

/-- `RHO` (R105). -/
def rho (a : KeccakLanes) : KeccakLanes := Vector.ofFn fun i => rotl64 a[i] (rhoOffset i.val (i.val / 5))

/-- `PI` (R106): each lane moves to where `KECCAK_PI` sends it, so a lane of the result comes from the inverse index. -/
def pi (a : KeccakLanes) : KeccakLanes := Vector.ofFn fun j => a[piSource j.val (j.val / 5)]

/-- `CHI` (R107): lane `i` is at column `i mod 5` of row `i / 5`. -/
def chi (b : KeccakLanes) : KeccakLanes := Vector.ofFn fun i =>
  b[i] ^^^ (~~~ b[lane (i.val + 1) (i.val / 5)] &&& b[lane (i.val + 2) (i.val / 5)])

/-- `IOTA` (R108). -/
def iota (a : KeccakLanes) (r : Fin 24) : KeccakLanes := a.set 0 (a[0] ^^^ rc r)

/-- `KECCAK_ROUND` (R109). -/
def round (a : KeccakLanes) (r : Fin 24) : KeccakLanes := iota (chi (pi (rho (theta a)))) r

/-- `KECCAK_F` (R110): the rounds `24 - rounds` to 23. -/
def permute (rounds : Nat) (a : KeccakLanes) : KeccakLanes :=
  ((List.finRange 24).drop (24 - rounds)).foldl round a

/-- XOR a block of `block` bytes into lanes 0 to `block/8 - 1`, word by word (R48, R111). -/
def xorBlock (block : Nat) (d : List Byte) (a : KeccakLanes) : KeccakLanes :=
  Vector.ofFn fun i => if i.val < block / 8 then a[i] ^^^ word64At d (8 * i.val) else a[i]

/-- `KECCAK_ABSORB` (R111). -/
def absorb (rounds block : Nat) (d : List Byte) (a : KeccakLanes) : KeccakLanes :=
  permute rounds (xorBlock block d a)

/-- The padded final block of R112: the pending bytes, zeros, `DS` at the current position and 0x80 at the last byte of
the rate. -/
def padBlock (block : Nat) (ds : Byte) (pending : List Byte) : List Byte :=
  xorByteAt (xorByteAt (pending ++ zeros (block - pending.length)) pending.length ds) (block - 1) 0x80

/-- `KECCAK_SQUEEZE` (R113): `need` bytes are still wanted; `fuel` bounds the loop, and `need` itself is enough. Answers
the output and the lanes. -/
def squeeze (rounds block : Nat) : Nat → Nat → KeccakLanes → List Byte × KeccakLanes
  | 0, _, a => ([], a)
  | fuel + 1, need, a =>
    if need ≤ block then ((stBytes64 a).take need, a)
    else
      let next := squeeze rounds block fuel (need - block) (permute rounds a)
      ((stBytes64 a).take block ++ next.1, next.2)

end Sys2Proof.Machine.Keccak
end

