-- ==== Sys2Proof/Machine/Ripemd.lean ====
section
/-! DEFINITION. The dual-pipeline compression engine (43_ripemd_compression.md R145 to R158). One `compress` serves both
call sites (R158). -/

namespace Sys2Proof.Machine.Ripemd

/-- `RMD_R` (R145), one row per quartile. -/
def r : Vector (Fin 16) 64 := #v[
  0, 1, 2, 3, 4, 5, 6, 7, 8, 9, 10, 11, 12, 13, 14, 15,
  7, 4, 13, 1, 10, 6, 15, 3, 12, 0, 9, 5, 2, 14, 11, 8,
  3, 10, 14, 4, 9, 15, 8, 1, 2, 7, 0, 6, 13, 11, 5, 12,
  1, 9, 11, 10, 0, 8, 12, 4, 13, 3, 7, 15, 14, 5, 6, 2]

/-- `RMD_RP` (R145). -/
def rp : Vector (Fin 16) 64 := #v[
  5, 14, 7, 0, 9, 2, 11, 4, 13, 6, 15, 8, 1, 10, 3, 12,
  6, 11, 3, 7, 0, 13, 5, 10, 14, 15, 8, 12, 4, 9, 1, 2,
  15, 5, 1, 3, 7, 14, 6, 9, 11, 8, 12, 2, 10, 0, 4, 13,
  8, 6, 4, 1, 3, 11, 15, 0, 5, 12, 2, 13, 9, 7, 10, 14]

/-- `RMD_S` (R146). -/
def s : Vector Nat 64 := #v[
  11, 14, 15, 12, 5, 8, 7, 9, 11, 13, 14, 15, 6, 7, 9, 8,
  7, 6, 8, 13, 11, 9, 7, 15, 7, 12, 15, 9, 11, 7, 13, 12,
  11, 13, 6, 7, 14, 9, 13, 15, 14, 8, 13, 6, 5, 12, 7, 5,
  11, 12, 14, 15, 14, 15, 9, 8, 9, 14, 5, 6, 8, 6, 5, 12]

/-- `RMD_SP` (R146). -/
def sp : Vector Nat 64 := #v[
  8, 9, 9, 11, 13, 15, 15, 5, 7, 7, 8, 11, 14, 14, 12, 6,
  9, 13, 15, 7, 12, 8, 9, 11, 7, 7, 12, 7, 6, 15, 13, 11,
  9, 7, 15, 11, 8, 6, 6, 14, 12, 13, 5, 14, 13, 13, 7, 5,
  15, 5, 8, 11, 14, 14, 6, 14, 6, 9, 12, 9, 12, 5, 15, 8]

/-- `RMD_K` (R147), by quartile. -/
def k : Vector U32 4 := #v[0x00000000, 0x5A827999, 0x6ED9EBA1, 0x8F1BBCDC]

/-- `RMD_KP` (R147), by quartile. -/
def kp : Vector U32 4 := #v[0x50A28BE6, 0x5C4DD124, 0x6D703EF3, 0x00000000]

/-- `RMD_IV` (R148). -/
def iv : Chaining := #v[0x67452301, 0xEFCDAB89, 0x98BADCFE, 0x10325476,
  0x76543210, 0xFEDCBA98, 0x89ABCDEF, 0x01234567]

/-- The selector functions (R149). -/
def select (sel : Fin 4) (x y z : U32) : U32 :=
  match sel with
  | 0 => x ^^^ y ^^^ z
  | 1 => (x &&& y) ||| (~~~x &&& z)
  | 2 => (x ||| ~~~y) ^^^ z
  | 3 => (x &&& z) ||| (y &&& ~~~z)

/-- The four working registers of one line (R21, R155). -/
structure Line where
  a : U32
  b : U32
  c : U32
  d : U32
  deriving DecidableEq, Repr

/-- The quartile of a step (R149). -/
def quartile (j : Fin 64) : Fin 4 := ⟨j.val / 16, by omega⟩

/-- The message words `W[0..15]` (R150). -/
def messageWords (d : List Byte) : Vector U32 16 := Vector.ofFn fun i => word32At d (4 * i.val)

/-- `RMD_LEFT_STEP` (R151). -/
def leftStep (w : Vector U32 16) (j : Fin 64) (l : Line) : Line :=
  let q := quartile j
  ⟨l.d, rotl32 (l.a + select q l.b l.c l.d + w[r[j]] + k[q]) s[j], l.b, l.c⟩

/-- `RMD_RIGHT_STEP` (R152): the selector index is mirrored. -/
def rightStep (w : Vector U32 16) (j : Fin 64) (l : Line) : Line :=
  let q := quartile j
  ⟨l.d, rotl32 (l.a + select q.rev l.b l.c l.d + w[rp[j]] + kp[q]) sp[j], l.b, l.c⟩

/-- The cross-line exchange that follows step `j`, if any (R153). -/
def exchange (j : Fin 64) (p : Line × Line) : Line × Line :=
  if j = 15 then ({ p.1 with a := p.2.a }, { p.2 with a := p.1.a })
  else if j = 31 then ({ p.1 with b := p.2.b }, { p.2 with b := p.1.b })
  else if j = 47 then ({ p.1 with c := p.2.c }, { p.2 with c := p.1.c })
  else p

/-- One step of both lines and the exchange after it (R155). -/
def step (w : Vector U32 16) (p : Line × Line) (j : Fin 64) : Line × Line :=
  exchange j (leftStep w j p.1, rightStep w j p.2)

/-- The final addition (R154): `H[3]` takes the right line's `d'` and `H[7]` the left line's `d`. -/
def addLines (h : Chaining) (p : Line × Line) : Chaining :=
  #v[h[0] + p.1.a, h[1] + p.1.b, h[2] + p.1.c, h[3] + p.2.d,
     h[4] + p.2.a, h[5] + p.2.b, h[6] + p.2.c, h[7] + p.1.d]

/-- `RMD_COMPRESS` (R155). -/
def compress (d : List Byte) (h : Chaining) : Chaining :=
  addLines h ((List.finRange 64).foldl (step (messageWords d)) (⟨h[0], h[1], h[2], h[3]⟩, ⟨h[4], h[5], h[6], h[7]⟩))

/-- `RMD_FINALIZE` (R156): the pending bytes, `CFG.DS` = 0x80, zeros and the 64-bit bit length at offsets 56 to 63, in
one block or, when the pad byte leaves no room for the length, two. -/
def finalize (ds : Byte) (pending : List Byte) (len : U64) (h : Chaining) : Chaining :=
  let p := pending ++ [ds]
  let bits := unpack64le (shl len 3)
  if 56 < p.length then
    compress (zeros 56 ++ bits) (compress (p ++ zeros (64 - p.length)) h)
  else compress (p ++ zeros (56 - p.length) ++ bits) h

end Sys2Proof.Machine.Ripemd
end

