-- ==== Sys2Proof/Machine/WordMix.lean ====
section
/-! DEFINITION. The direct-mix engine (44_wordmix_engine.md R165 to R193): CityHash64, XXH32 and XXH64. -/

namespace Sys2Proof.Machine.Mix

/-! ### CityHash64. The message is `BUF[0..n)` (R167, R179); all arithmetic is 64-bit. -/

/-- `K0` (R166). -/
def k0 : U64 := 0xC3A5C85C97CB3127
/-- `K1` (R166). -/
def k1 : U64 := 0xB492B66FBE98F273
/-- `K2` (R166). -/
def k2 : U64 := 0x9AE16A3B2F90404F
/-- `KMUL` (R166). -/
def kMul : U64 := 0x9DDFEA08EB382D69

/-- `FETCH64` (R167). -/
def fetch64 (m : Memory) (i : Nat) : U64 := memRead8 m i

/-- `FETCH32` (R167), zero-extended. -/
def fetch32 (m : Memory) (i : Nat) : U64 := (memRead4 m i).setWidth 64

/-- `SHIFTMIX` (R168). -/
def shiftMix (v : U64) : U64 := v ^^^ shr v 47

/-- `HASHLEN16M` (R170). -/
def hashLen16M (u v m : U64) : U64 :=
  let a := (u ^^^ v) * m
  let a := a ^^^ shr a 47
  let b := (v ^^^ a) * m
  let b := b ^^^ shr b 47
  b * m

/-- `HASHLEN16` (R169). -/
def hashLen16 (u v : U64) : U64 := hashLen16M u v kMul

/-- `WEAKMIX` (R176): four data words and two seeds. -/
def weakMix (w x y z a b : U64) : U64 × U64 :=
  let a := a + w
  let b := rotr64 (b + a + z) 21
  let c := a
  let a := a + x
  let a := a + y
  let b := b + rotr64 a 44
  (a + z, b + c)

/-- `WEAKMIX_AT` (R176). -/
def weakMixAt (m : Memory) (i : Nat) (a b : U64) : U64 × U64 :=
  weakMix (fetch64 m i) (fetch64 m (i + 8)) (fetch64 m (i + 16)) (fetch64 m (i + 24)) a b

/-- The length as a 64-bit word. -/
def lenWord (n : Nat) : U64 := BitVec.ofNat 64 n

/-- `K2 + 2n`, the multiplier of R173 to R177. -/
def lenMul (n : Nat) : U64 := k2 + 2 * lenWord n

/-- `1 <= n <= 3` (R172): `y` and `z` are 32-bit. -/
def city1to3 (m : Memory) (n : Nat) : U64 :=
  let a := memRead1 m 0
  let b := memRead1 m (n >>> 1)
  let c := memRead1 m (n - 1)
  let y : U32 := a.setWidth 32 + shl (b.setWidth 32) 8
  let z : U32 := BitVec.ofNat 32 n + shl (c.setWidth 32) 2
  shiftMix ((y.setWidth 64 * k2) ^^^ (z.setWidth 64 * k0)) * k2

/-- `4 <= n <= 7` (R173). -/
def city4to7 (m : Memory) (n : Nat) : U64 :=
  hashLen16M (lenWord n + shl (fetch32 m 0) 3) (fetch32 m (n - 4)) (lenMul n)

/-- `8 <= n <= 16` (R174). -/
def city8to16 (m : Memory) (n : Nat) : U64 :=
  let mul := lenMul n
  let a := fetch64 m 0 + k2
  let b := fetch64 m (n - 8)
  let c := rotr64 b 37 * mul + a
  let d := (rotr64 a 25 + b) * mul
  hashLen16M c d mul

/-- `17 <= n <= 32` (R175). -/
def city17to32 (m : Memory) (n : Nat) : U64 :=
  let mul := lenMul n
  let a := fetch64 m 0 * k1
  let b := fetch64 m 8
  let c := fetch64 m (n - 8) * mul
  let d := fetch64 m (n - 16) * k2
  hashLen16M (rotr64 (a + b) 43 + rotr64 c 30 + d) (a + rotr64 (b + k2) 18 + c) mul

/-- `33 <= n <= 64` (R177). -/
def city33to64 (m : Memory) (n : Nat) : U64 :=
  let mul := lenMul n
  let a := fetch64 m 0 * k2
  let b := fetch64 m 8
  let c := fetch64 m (n - 24)
  let d := fetch64 m (n - 32)
  let e := fetch64 m 16 * k2
  let f := fetch64 m 24 * 9
  let g := fetch64 m (n - 8)
  let h := fetch64 m (n - 16) * mul
  let u := rotr64 (a + g) 43 + (rotr64 b 30 + c) * 9
  let v := ((a + g) ^^^ d) + f + 1
  let w := bswap64 ((u + v) * mul) + h
  let x := rotr64 (e + f) 42 + c
  let y := (bswap64 ((v + w) * mul) + g) * mul
  let z := e + f + c
  let a := bswap64 ((x + z) * mul + y) + b
  let b := shiftMix ((z + a) * mul + d + h) * mul
  b + x

/-- The working values of the loop of R178. -/
structure CityLoop where
  x : U64
  y : U64
  z : U64
  v : U64 × U64
  w : U64 × U64
  deriving DecidableEq, Repr

/-- The values R178 starts from, taken from the last 64 bytes and the length. -/
def cityStart (m : Memory) (n : Nat) : CityLoop :=
  let x := fetch64 m (n - 40)
  let y := fetch64 m (n - 16) + fetch64 m (n - 56)
  let z := hashLen16 (fetch64 m (n - 48) + lenWord n) (fetch64 m (n - 24))
  { x := x * k1 + fetch64 m 0
    y := y
    z := z
    v := weakMixAt m (n - 64) (lenWord n) z
    w := weakMixAt m (n - 32) (y + k1) x }

/-- One pass of the loop of R178 over the chunk at offset `p`; `x` and `z` are exchanged at its end. -/
def cityPass (m : Memory) (s : CityLoop) (p : Nat) : CityLoop :=
  let x := rotr64 (s.x + s.y + s.v.1 + fetch64 m (p + 8)) 37 * k1
  let y := rotr64 (s.y + s.v.2 + fetch64 m (p + 48)) 42 * k1
  let x := x ^^^ s.w.2
  let y := y + s.v.1 + fetch64 m (p + 40)
  let z := rotr64 (s.z + s.w.1) 33 * k1
  { x := z
    y := y
    z := x
    v := weakMixAt m p (s.v.2 * k1) (x + s.w.1)
    w := weakMixAt m (p + 32) (z + s.w.2) (y + fetch64 m (p + 16)) }

/-- `n >= 65` (R178): `(n - 1) / 64` passes from the start of the message. -/
def city65up (m : Memory) (n : Nat) : U64 :=
  let s := (List.range ((n - 1) / 64)).foldl (fun s i => cityPass m s (64 * i)) (cityStart m n)
  hashLen16 (hashLen16 s.v.1 s.w.1 + shiftMix s.y * k1 + s.z) (hashLen16 s.v.2 s.w.2 + s.x)

/-- `CITY64_FINALIZE` (R179): the branch R165 selects for `n` bytes. -/
def city64 (m : Memory) (n : Nat) : U64 :=
  if n = 0 then k2
  else if n ≤ 3 then city1to3 m n
  else if n ≤ 7 then city4to7 m n
  else if n ≤ 16 then city8to16 m n
  else if n ≤ 32 then city17to32 m n
  else if n ≤ 64 then city33to64 m n
  else city65up m n

/-! ### XXH32. All arithmetic is 32-bit. -/

/-- `P1` (R180). -/
def p1 : U32 := 0x9E3779B1
/-- `P2` (R180). -/
def p2 : U32 := 0x85EBCA77
/-- `P3` (R180). -/
def p3 : U32 := 0xC2B2AE3D
/-- `P4` (R180). -/
def p4 : U32 := 0x27D4EB2F
/-- `P5` (R180). -/
def p5 : U32 := 0x165667B1
/-- `SEED` of XXH32 (R180). -/
def seed32 : U32 := 0

/-- `XXH32_ROUND` (R181). -/
def xxh32Round (acc w : U32) : U32 := rotl32 (acc + w * p2) 13 * p1

/-- `XXH32_INIT` (R182); `SEED - P1` is `SEED + (2^32 - P1)` (R75). -/
def xxh32Init : Vector U32 4 := #v[seed32 + p1 + p2, seed32 + p2, seed32, seed32 - p1]

/-- `XXH32_STRIPE` (R183). -/
def xxh32Stripe (d : List Byte) (v : Vector U32 4) : Vector U32 4 :=
  Vector.ofFn fun i => xxh32Round v[i] (word32At d (4 * i.val))

/-- `XXH32_AVALANCHE` (R185). -/
def xxh32Avalanche (h : U32) : U32 :=
  let h := (h ^^^ shr h 15) * p2
  let h := (h ^^^ shr h 13) * p3
  h ^^^ shr h 16

/-- The four-byte step of R184's tail. -/
def xxh32Tail4 (m : Memory) (h : U32) (i : Nat) : U32 := rotl32 (h + memRead4 m i * p3) 17 * p4

/-- The one-byte step of R184's tail. -/
def xxh32Tail1 (m : Memory) (h : U32) (i : Nat) : U32 := rotl32 (h + (memRead1 m i).setWidth 32 * p5) 11 * p1

/-- `XXH32_FINALIZE` (R184): the stripes' convergence or the seed, the length, four-byte steps from offset 0, byte
steps for what is left, the avalanche. -/
def xxh32Finalize (v : Vector U32 4) (m : Memory) (bufLen : Nat) (len : U64) : U32 :=
  let h := if 16 ≤ len.toNat then rotl32 v[0] 1 + rotl32 v[1] 7 + rotl32 v[2] 12 + rotl32 v[3] 18 else seed32 + p5
  let h := h + len.setWidth 32
  let words := bufLen / 4
  let h := (List.range words).foldl (fun h j => xxh32Tail4 m h (4 * j)) h
  let h := (List.range (bufLen - 4 * words)).foldl (fun h j => xxh32Tail1 m h (4 * words + j)) h
  xxh32Avalanche h

/-! ### XXH64. All arithmetic is 64-bit. -/

/-- `Q1` (R186). -/
def q1 : U64 := 0x9E3779B185EBCA87
/-- `Q2` (R186). -/
def q2 : U64 := 0xC2B2AE3D27D4EB4F
/-- `Q3` (R186). -/
def q3 : U64 := 0x165667B19E3779F9
/-- `Q4` (R186). -/
def q4 : U64 := 0x85EBCA77C2B2AE63
/-- `Q5` (R186). -/
def q5 : U64 := 0x27D4EB2F165667C5
/-- `SEED` of XXH64 (R186). -/
def seed64 : U64 := 0

/-- `XXH64_ROUND` (R187). -/
def xxh64Round (acc w : U64) : U64 := rotl64 (acc + w * q2) 31 * q1

/-- `XXH64_MERGE` (R188). -/
def xxh64Merge (h v : U64) : U64 := (h ^^^ xxh64Round 0 v) * q1 + q4

/-- `XXH64_INIT` (R189). -/
def xxh64Init : Vector U64 4 := #v[seed64 + q1 + q2, seed64 + q2, seed64, seed64 - q1]

/-- `XXH64_STRIPE` (R190). -/
def xxh64Stripe (d : List Byte) (v : Vector U64 4) : Vector U64 4 :=
  Vector.ofFn fun i => xxh64Round v[i] (word64At d (8 * i.val))

/-- `XXH64_AVALANCHE` (R192). -/
def xxh64Avalanche (h : U64) : U64 :=
  let h := (h ^^^ shr h 33) * q2
  let h := (h ^^^ shr h 29) * q3
  h ^^^ shr h 32

/-- The eight-byte step of R191's tail. -/
def xxh64Tail8 (m : Memory) (h : U64) (i : Nat) : U64 := rotl64 (h ^^^ xxh64Round 0 (memRead8 m i)) 27 * q1 + q4

/-- The four-byte step of R191's tail. -/
def xxh64Tail4 (m : Memory) (h : U64) (i : Nat) : U64 := rotl64 (h ^^^ ((memRead4 m i).setWidth 64 * q1)) 23 * q2 + q3

/-- The one-byte step of R191's tail. -/
def xxh64Tail1 (m : Memory) (h : U64) (i : Nat) : U64 := rotl64 (h ^^^ ((memRead1 m i).setWidth 64 * q5)) 11 * q1

/-- The value R191 starts the tail from: the stripes' convergence and merges, or the seed. -/
def xxh64Converge (v : Vector U64 4) (len : U64) : U64 :=
  if 32 ≤ len.toNat then
    let h := rotl64 v[0] 1 + rotl64 v[1] 7 + rotl64 v[2] 12 + rotl64 v[3] 18
    xxh64Merge (xxh64Merge (xxh64Merge (xxh64Merge h v[0]) v[1]) v[2]) v[3]
  else seed64 + q5

/-- `XXH64_FINALIZE` (R191): eight-byte steps, at most one four-byte step, byte steps, the avalanche. -/
def xxh64Finalize (v : Vector U64 4) (m : Memory) (bufLen : Nat) (len : U64) : U64 :=
  let h := xxh64Converge v len + len
  let words := bufLen / 8
  let h := (List.range words).foldl (fun h j => xxh64Tail8 m h (8 * j)) h
  let half := 8 * words + 4 ≤ bufLen
  let h := if half then xxh64Tail4 m h (8 * words) else h
  let i := if half then 8 * words + 4 else 8 * words
  let h := (List.range (bufLen - i)).foldl (fun h j => xxh64Tail1 m h (i + j)) h
  xxh64Avalanche h

/-! ### Output -/

/-- `MIX_EXTRACT` (R193): `w` bytes of the result, in the order `MIX_OUT_ORDER` names. -/
def extract (order : ByteOrder) (w : Nat) (h : U64) : List Byte :=
  match order with
  | .mostFirst => (List.range w).map fun k => h.extractLsb' (8 * (w - 1 - k)) 8
  | .leastFirst => (List.range w).map fun k => h.extractLsb' (8 * k) 8

end Sys2Proof.Machine.Mix
end

