-- ==== Sys2Proof/Machine/Xoodoo.lean ====
section
/-! DEFINITION. The Xoodoo-style permutation and the Xoodyak hash mode (42_xoodoo_permutation.md R125 to R137). -/

namespace Sys2Proof.Machine.Xoodoo

/-- `XOODOO_RC[0..11]` (R126). -/
def rc : Vector U32 12 := #v[
  0x00000058, 0x00000038, 0x000003C0, 0x000000D0, 0x00000120, 0x00000014,
  0x00000060, 0x0000002C, 0x00000380, 0x000000F0, 0x000001A0, 0x00000012]

/-- The lane at column `x` (modulo 4) of plane `y` (modulo 3) (R125). -/
def lane (x y : Nat) : Fin 12 := ⟨x % 4 + 4 * (y % 3), by omega⟩

/-- A column index modulo 4 (R125). -/
def col (x : Nat) : Fin 4 := ⟨x % 4, Nat.mod_lt _ (by decide)⟩

/-- The column parities `P` (R127). -/
def parity (x : XoodooLanes) : Vector U32 4 := Vector.ofFn fun c =>
  x[lane c 0] ^^^ x[lane c 1] ^^^ x[lane c 2]

/-- The correction `E` (R127), from the column to the left. -/
def correction (p : Vector U32 4) : Vector U32 4 := Vector.ofFn fun c =>
  rotl32 p[col (c.val + 3)] 5 ^^^ rotl32 p[col (c.val + 3)] 14

/-- `X_THETA` (R127). -/
def theta (x : XoodooLanes) : XoodooLanes :=
  let e := correction (parity x)
  Vector.ofFn fun i => x[i] ^^^ e[col i.val]

/-- `X_RHO_WEST` (R128): plane 1 moves one column, plane 2 rotates by 11. -/
def rhoWest (x : XoodooLanes) : XoodooLanes := Vector.ofFn fun i =>
  if i.val / 4 = 0 then x[i]
  else if i.val / 4 = 1 then x[lane (i.val + 3) 1]
  else rotl32 x[i] 11

/-- `X_IOTA` (R129). -/
def iota (x : XoodooLanes) (r : Fin 12) : XoodooLanes := x.set 0 (x[0] ^^^ rc[r])

/-- `X_CHI` (R130): each plane takes the AND/NOT of the next two planes of its column. -/
def chi (x : XoodooLanes) : XoodooLanes := Vector.ofFn fun i =>
  x[i] ^^^ (~~~ x[lane i.val (i.val / 4 + 1)] &&& x[lane i.val (i.val / 4 + 2)])

/-- `X_RHO_EAST` (R131): plane 1 rotates by 1, plane 2 moves two columns and rotates by 8. -/
def rhoEast (x : XoodooLanes) : XoodooLanes := Vector.ofFn fun i =>
  if i.val / 4 = 0 then x[i]
  else if i.val / 4 = 1 then rotl32 x[i] 1
  else rotl32 x[lane (i.val + 2) 2] 8

/-- `XOODOO_ROUND` (R132). -/
def round (x : XoodooLanes) (r : Fin 12) : XoodooLanes := rhoEast (chi (iota (rhoWest (theta x)) r))

/-- `XOODOO` (R133): the rounds `12 - rounds` to 11. -/
def permute (rounds : Nat) (x : XoodooLanes) : XoodooLanes :=
  ((List.finRange 12).drop (12 - rounds)).foldl round x

/-- `XOODYAK_DOWN` (R134): the block, the padding bit after it, the colour bit of the first block at state byte 47, the
permutation. -/
def down (rounds : Nat) (d : List Byte) (first : Bool) (x : XoodooLanes) : XoodooLanes :=
  let padded := xorStateByte32 (xorStateBytes32 x 0 d) d.length 0x01
  permute rounds (if first then xorStateByte32 padded 47 0x01 else padded)

/-- `XOODYAK_SQUEEZE` (R136): `need` bytes are still wanted; `fuel` bounds the loop, and `need` itself is enough. Between
output blocks an empty block is absorbed. -/
def squeeze (rounds : Nat) : Nat → Nat → XoodooLanes → List Byte × XoodooLanes
  | 0, _, x => ([], x)
  | fuel + 1, need, x =>
    if need ≤ 16 then ((stBytes32 x).take need, x)
    else
      let next := squeeze rounds fuel (need - 16) (down rounds [] false x)
      ((stBytes32 x).take 16 ++ next.1, next.2)

end Sys2Proof.Machine.Xoodoo
end

