-- ==== Sys2Proof/Machine/Controller.lean ====
section
/-! DEFINITION. The streaming controller's own operations (45_streaming_controller.md): the three capabilities bound by
kind (R201), the instance reset (R207), the drain rule (R203, R204). The commands stand in Machine/Construct.lean and
Machine/Stream.lean. -/

namespace Sys2Proof.Machine

/-- The state array of a fresh instance, by kind and for `MIX` by `VID` (R207, R26). -/
def Engine.fresh (c : Cfg) : Engine :=
  match c.kind with
  | .keccak => .keccak (Vector.replicate 25 0) .absorbing
  | .xoodoo => .xoodoo (Vector.replicate 12 0) .absorbing
  | .rmd => .rmd Ripemd.iv
  | .mix =>
    if c.vid = Variant.vid .xxh32 then .xxh32 Mix.xxh32Init
    else if c.vid = Variant.vid .xxh64 then .xxh64 Mix.xxh64Init
    else .city64

/-- An instance with the reset values of R26's right-hand column. -/
def Inst.fresh (c : Cfg) : Inst where
  cfg := c
  engine := .fresh c
  buf := []
  bufLen := 0
  len := 0

/-- `INIT_STATE` (R207): it keeps `CFG` and gives everything else its reset value. -/
def initState (i : Inst) : Inst := .fresh i.cfg

/-- The configuration `CONSTRUCT` writes (R202): the variant's row with the effective output length. -/
def cfgOf (p : Params) (v : Variant) (outlen : BitVec 16) : Cfg where
  vid := v.vid
  kind := kindOfVid v.vid
  block := (v.row p).block
  outlen := outlen
  rounds := (v.row p).rounds
  ds := (v.row p).ds
  xof := (v.row p).xof

/-- `absorbBlock(D)` of the bound kind (R201); `len` is `LEN` after the block's last byte was counted, and a `XOODYAK`
block is the first exactly when it is 16 (R134, R203). `CITY64` has none. -/
def Engine.absorb (c : Cfg) (len : U64) (d : List Byte) : Engine → Engine
  | .keccak a mode => .keccak (Keccak.absorb c.rounds.toNat c.block.toNat d a) mode
  | .xoodoo x mode => .xoodoo (Xoodoo.down c.rounds.toNat d (len == 16) x) mode
  | .rmd h => .rmd (Ripemd.compress d h)
  | .xxh32 v => .xxh32 (Mix.xxh32Stripe d v)
  | .xxh64 v => .xxh64 (Mix.xxh64Stripe d v)
  | .city64 => .city64

/-- The full buffer absorbed (R203). -/
def absorbBuffer (i : Inst) : Engine :=
  i.engine.absorb i.cfg i.len (Memory.bytes i.buf 0 i.cfg.block.toNat)

/-- Append one byte to the buffer and count it (R37, R19). -/
def storeByte (i : Inst) (b : Byte) : Inst :=
  { i with buf := Memory.write i.buf i.bufLen b, bufLen := i.bufLen + 1, len := i.len + 1 }

/-- A buffer that has just become full is absorbed and emptied at once; that of `CITY64` never is (R203, R204). -/
def drain (i : Inst) : Inst :=
  if !i.cfg.isCity && i.bufLen == i.cfg.block.toNat then { i with engine := absorbBuffer i, buf := [], bufLen := 0 }
  else i

/-- The body of `FEED`'s loop for one byte (R203). -/
def feedByte (i : Inst) (b : Byte) : Inst := drain (storeByte i b)

/-- `FEED`'s loop: the data bytes in order (R203). -/
def feedBytes (i : Inst) (d : List Byte) : Inst := d.foldl feedByte i

/-- The pending bytes `BUF[0..BUFLEN)`. -/
def Inst.pending (i : Inst) : List Byte := Memory.bytes i.buf 0 i.bufLen

/-- `finalize` (R201): R112, R135, R156, R179, R184, R191. It answers the instance after the last block with, for the
`MIX` kind, the number `extractOutput` writes out (0, and read by nothing, for the others). -/
def finalize (i : Inst) : Inst × U64 :=
  let block := i.cfg.block.toNat
  let rounds := i.cfg.rounds.toNat
  match i.engine with
  | .keccak a _ =>
    ({ i with engine := .keccak (Keccak.absorb rounds block (Keccak.padBlock block i.cfg.ds i.pending) a) .squeezing }, 0)
  | .xoodoo x _ =>
    let x' := if 0 < i.bufLen ∨ i.len = 0 then Xoodoo.down rounds i.pending (decide (i.len.toNat < 16)) x else x
    ({ i with engine := .xoodoo x' .squeezing }, 0)
  | .rmd h => ({ i with engine := .rmd (Ripemd.finalize i.cfg.ds i.pending i.len h) }, 0)
  | .xxh32 v => (i, (Mix.xxh32Finalize v i.buf i.bufLen i.len).setWidth 64)
  | .xxh64 v => (i, Mix.xxh64Finalize v i.buf i.bufLen i.len)
  | .city64 => (i, Mix.city64 i.buf i.bufLen)

/-- `extractOutput` (R201): R113, R136, R157, R193. It answers the output bytes and the instance, whose state array the
sponge kinds write. -/
def extractOutput (p : Params) (i : Inst) (r : U64) : List Byte × Inst :=
  let block := i.cfg.block.toNat
  let rounds := i.cfg.rounds.toNat
  let outlen := i.cfg.outlen.toNat
  match i.engine with
  | .keccak a mode =>
    let out := Keccak.squeeze rounds block outlen outlen a
    (out.1, { i with engine := .keccak out.2 mode })
  | .xoodoo x mode =>
    let out := Xoodoo.squeeze rounds outlen outlen x
    (out.1, { i with engine := .xoodoo out.2 mode })
  | .rmd h => (stBytes32 h, i)
  | .xxh32 _ => (Mix.extract p.mixOutOrder outlen r, i)
  | .xxh64 _ => (Mix.extract p.mixOutOrder outlen r, i)
  | .city64 => (Mix.extract p.mixOutOrder outlen r, i)

/-- The digest of the pending message: `finalize`, then `extractOutput` (R205). -/
def digest (p : Params) (i : Inst) : List Byte := (extractOutput p (finalize i).1 (finalize i).2).1

end Sys2Proof.Machine
end

