-- ==== Sys2Proof/Machine/Construct.lean ====
section
/-! DEFINITION. The `CONSTRUCT` family (45_streaming_controller.md R202; 30_encoding.md R57, R62, R68; 60_exceptions.md
R231): one meaning per row of the table over one shared operation. -/

namespace Sys2Proof.Machine

/-- `CONSTRUCT` of a variant (R202): a stored fault answers first; then the variant must be supported (R8's `VARIANTS`)
and the output length acceptable (R68), or it is a `ConfigurationError`; then the instance is bound, configured and
reset. -/
def constructVariant (v : Variant) (outreq : BitVec 16) (s : State) : Host.Outcome State Fault Refusal :=
  if s.status.fault ≠ .noFault then .next (respond s.status.fault [] s)
  else if v ∉ s.params.variants then .next (raiseFault .configurationError s)
  else match effectiveOutLen (v.row s.params) outreq with
    | none => .next (raiseFault .configurationError s)
    | some outlen =>
      .next (respond .noFault [] ((s.setStatus ⟨true, s.status.fault⟩).setInst (.fresh (cfgOf s.params v outlen))))

/-- `CONSTRUCT.KECCAK224` (R202). -/
def execConstructKeccak224 (outreq : BitVec 16) (s : State) : Host.Outcome State Fault Refusal :=
  constructVariant .keccak224 outreq s

/-- `CONSTRUCT.KECCAK256` (R202). -/
def execConstructKeccak256 (outreq : BitVec 16) (s : State) : Host.Outcome State Fault Refusal :=
  constructVariant .keccak256 outreq s

/-- `CONSTRUCT.KECCAK384` (R202). -/
def execConstructKeccak384 (outreq : BitVec 16) (s : State) : Host.Outcome State Fault Refusal :=
  constructVariant .keccak384 outreq s

/-- `CONSTRUCT.KECCAK512` (R202). -/
def execConstructKeccak512 (outreq : BitVec 16) (s : State) : Host.Outcome State Fault Refusal :=
  constructVariant .keccak512 outreq s

/-- `CONSTRUCT.SHA3_224` (R202). -/
def execConstructSha3_224 (outreq : BitVec 16) (s : State) : Host.Outcome State Fault Refusal :=
  constructVariant .sha3_224 outreq s

/-- `CONSTRUCT.SHA3_256` (R202). -/
def execConstructSha3_256 (outreq : BitVec 16) (s : State) : Host.Outcome State Fault Refusal :=
  constructVariant .sha3_256 outreq s

/-- `CONSTRUCT.SHA3_384` (R202). -/
def execConstructSha3_384 (outreq : BitVec 16) (s : State) : Host.Outcome State Fault Refusal :=
  constructVariant .sha3_384 outreq s

/-- `CONSTRUCT.SHA3_512` (R202). -/
def execConstructSha3_512 (outreq : BitVec 16) (s : State) : Host.Outcome State Fault Refusal :=
  constructVariant .sha3_512 outreq s

/-- `CONSTRUCT.SHAKE128` (R202). -/
def execConstructShake128 (outreq : BitVec 16) (s : State) : Host.Outcome State Fault Refusal :=
  constructVariant .shake128 outreq s

/-- `CONSTRUCT.SHAKE256` (R202). -/
def execConstructShake256 (outreq : BitVec 16) (s : State) : Host.Outcome State Fault Refusal :=
  constructVariant .shake256 outreq s

/-- `CONSTRUCT.XOODYAK` (R202). -/
def execConstructXoodyak (outreq : BitVec 16) (s : State) : Host.Outcome State Fault Refusal :=
  constructVariant .xoodyak outreq s

/-- `CONSTRUCT.RIPEMD256` (R202). -/
def execConstructRipemd256 (outreq : BitVec 16) (s : State) : Host.Outcome State Fault Refusal :=
  constructVariant .ripemd256 outreq s

/-- `CONSTRUCT.CITY64` (R202). -/
def execConstructCity64 (outreq : BitVec 16) (s : State) : Host.Outcome State Fault Refusal :=
  constructVariant .city64 outreq s

/-- `CONSTRUCT.XXH32` (R202). -/
def execConstructXxh32 (outreq : BitVec 16) (s : State) : Host.Outcome State Fault Refusal :=
  constructVariant .xxh32 outreq s

/-- `CONSTRUCT.XXH64` (R202). -/
def execConstructXxh64 (outreq : BitVec 16) (s : State) : Host.Outcome State Fault Refusal :=
  constructVariant .xxh64 outreq s

/-- `CONSTRUCT.UNSUPPORTED` (R202, R231): a `VID` without a row is a `ConfigurationError`, whatever `OUTREQ`. -/
def execConstructUnsupported (_outreq : BitVec 16) (_vid : BitVec 8) (s : State) : Host.Outcome State Fault Refusal :=
  if s.status.fault ≠ .noFault then .next (respond s.status.fault [] s)
  else .next (raiseFault .configurationError s)

end Sys2Proof.Machine
end

