-- ==== Sys2Proof/Machine/Stream.lean ====
section
/-! DEFINITION. `FEED`, `RESULT`, `RESET` and the illegal word (45_streaming_controller.md R203, R205, R206;
30_encoding.md R64). -/

namespace Sys2Proof.Machine

/-- `FEED` (R203): the capacity of `CITY64` is checked before any byte is stored (R235). -/
def execFeed (n : BitVec 24) (payload : List U32) (s : State) : Host.Outcome State Fault Refusal :=
  withInst s fun i =>
    if i.cfg.isCity ∧ s.params.mixBufCap.toNat < i.bufLen + n.toNat then .next (raiseFault .capacityExceeded s)
    else .next (respond .noFault [] (s.setInst (feedBytes i (feedData n payload))))

/-- `RESULT` (R205): finalize, extract, `INIT_STATE`, respond with the digest. -/
def execResult (s : State) : Host.Outcome State Fault Refusal :=
  withInst s fun i =>
    let fin := finalize i
    let out := extractOutput s.params fin.1 fin.2
    .next (respond .noFault out.1 (s.setInst (initState out.2)))

/-- `RESET` (R206): `INIT_STATE`; the binding is kept. -/
def execReset (s : State) : Host.Outcome State Fault Refusal :=
  withInst s fun i => .next (respond .noFault [] (s.setInst (initState i)))

/-- An illegal command word (R64, R234): `ProtocolError`, unless a stored fault answers first (R236). -/
def execIllegal (_op : BitVec 8) (_arg : BitVec 24) (s : State) : Host.Outcome State Fault Refusal :=
  if s.status.fault ≠ .noFault then .next (respond s.status.fault [] s)
  else .next (raiseFault .protocolError s)

end Sys2Proof.Machine
end

