-- ==== Sys2Proof/Syntax.lean ====
section
/-! DEFINITION. The commands of the block (30_encoding.md R57 to R60, R64), one constructor per row of
spec/opcode_table.json. The operands are the fields of the words as the host sent them, bits the block ignores
included, so that nothing of an encoding is dropped. -/

namespace Sys2Proof

/-- The instruction set. `outreq` is `ARG[23:8]` of a `CONSTRUCT`; `n` and `payload` are the byte count and the payload
words of a `FEED`; `op` and `arg` are the two fields of a command word that is no command (R64). -/
inductive Instr
  | constructKeccak224 (outreq : BitVec 16)
  | constructKeccak256 (outreq : BitVec 16)
  | constructKeccak384 (outreq : BitVec 16)
  | constructKeccak512 (outreq : BitVec 16)
  | constructSha3_224 (outreq : BitVec 16)
  | constructSha3_256 (outreq : BitVec 16)
  | constructSha3_384 (outreq : BitVec 16)
  | constructSha3_512 (outreq : BitVec 16)
  | constructShake128 (outreq : BitVec 16)
  | constructShake256 (outreq : BitVec 16)
  | constructXoodyak (outreq : BitVec 16)
  | constructRipemd256 (outreq : BitVec 16)
  | constructCity64 (outreq : BitVec 16)
  | constructXxh32 (outreq : BitVec 16)
  | constructXxh64 (outreq : BitVec 16)
  | constructUnsupported (outreq : BitVec 16) (vid : BitVec 8)
  | feed (n : BitVec 24) (payload : List U32)
  | result
  | reset
  | illegal (op : BitVec 8) (arg : BitVec 24)
  deriving DecidableEq, Repr

/-- The `CONSTRUCT` of a variant. -/
def Variant.construct (outreq : BitVec 16) : Variant → Instr
  | .keccak224 => .constructKeccak224 outreq
  | .keccak256 => .constructKeccak256 outreq
  | .keccak384 => .constructKeccak384 outreq
  | .keccak512 => .constructKeccak512 outreq
  | .sha3_224 => .constructSha3_224 outreq
  | .sha3_256 => .constructSha3_256 outreq
  | .sha3_384 => .constructSha3_384 outreq
  | .sha3_512 => .constructSha3_512 outreq
  | .shake128 => .constructShake128 outreq
  | .shake256 => .constructShake256 outreq
  | .xoodyak => .constructXoodyak outreq
  | .ripemd256 => .constructRipemd256 outreq
  | .city64 => .constructCity64 outreq
  | .xxh32 => .constructXxh32 outreq
  | .xxh64 => .constructXxh64 outreq

/-- A `CONSTRUCT` in any of its sixteen forms. -/
def Instr.isConstruct : Instr → Bool
  | .feed _ _ => false
  | .result => false
  | .reset => false
  | .illegal _ _ => false
  | .constructUnsupported _ _ => true
  | .constructKeccak224 _ => true
  | .constructKeccak256 _ => true
  | .constructKeccak384 _ => true
  | .constructKeccak512 _ => true
  | .constructSha3_224 _ => true
  | .constructSha3_256 _ => true
  | .constructSha3_384 _ => true
  | .constructSha3_512 _ => true
  | .constructShake128 _ => true
  | .constructShake256 _ => true
  | .constructXoodyak _ => true
  | .constructRipemd256 _ => true
  | .constructCity64 _ => true
  | .constructXxh32 _ => true
  | .constructXxh64 _ => true

end Sys2Proof
end

