-- ==== Sys2Proof/Machine/Dispatch.lean ====
section
/-! DEFINITION. The meaning of every instruction: one arm per constructor of `Instr`. -/

namespace Sys2Proof.Machine

/-- What an instruction does once its words have been consumed. -/
def exec (i : Instr) (s : State) : Host.Outcome State Fault Refusal :=
  match i with
  | .constructKeccak224 outreq => Sys2Proof.Machine.execConstructKeccak224 outreq s
  | .constructKeccak256 outreq => Sys2Proof.Machine.execConstructKeccak256 outreq s
  | .constructKeccak384 outreq => Sys2Proof.Machine.execConstructKeccak384 outreq s
  | .constructKeccak512 outreq => Sys2Proof.Machine.execConstructKeccak512 outreq s
  | .constructSha3_224 outreq => Sys2Proof.Machine.execConstructSha3_224 outreq s
  | .constructSha3_256 outreq => Sys2Proof.Machine.execConstructSha3_256 outreq s
  | .constructSha3_384 outreq => Sys2Proof.Machine.execConstructSha3_384 outreq s
  | .constructSha3_512 outreq => Sys2Proof.Machine.execConstructSha3_512 outreq s
  | .constructShake128 outreq => Sys2Proof.Machine.execConstructShake128 outreq s
  | .constructShake256 outreq => Sys2Proof.Machine.execConstructShake256 outreq s
  | .constructXoodyak outreq => Sys2Proof.Machine.execConstructXoodyak outreq s
  | .constructRipemd256 outreq => Sys2Proof.Machine.execConstructRipemd256 outreq s
  | .constructCity64 outreq => Sys2Proof.Machine.execConstructCity64 outreq s
  | .constructXxh32 outreq => Sys2Proof.Machine.execConstructXxh32 outreq s
  | .constructXxh64 outreq => Sys2Proof.Machine.execConstructXxh64 outreq s
  | .constructUnsupported outreq vid => Sys2Proof.Machine.execConstructUnsupported outreq vid s
  | .feed n payload => Sys2Proof.Machine.execFeed n payload s
  | .result => Sys2Proof.Machine.execResult s
  | .reset => Sys2Proof.Machine.execReset s
  | .illegal op arg => Sys2Proof.Machine.execIllegal op arg s

end Sys2Proof.Machine
end

