-- ==== Sys2Proof/WellFormed.lean ====
section
/-! DEFINITION. Which terms of `Instr` are instructions: those that some words of the command stream encode. -/

namespace Sys2Proof

/-- The number of payload words of a `FEED` of `n` bytes: `(N + 3) / 4`, floor division (R58). -/
def payloadWords (n : BitVec 24) : Nat := (n.toNat + 3) / 4

/-- R64: the command words that match none of R57 to R60. -/
def illegalFields (op : BitVec 8) (arg : BitVec 24) : Bool :=
  op == 0x00 || decide (5 ≤ op.toNat) || ((op == 0x03 || op == 0x04) && arg != 0)

/-- An unsupported `CONSTRUCT` names a `VID` without a row (R62); a `FEED` carries exactly its payload (R58, R65); an
illegal word is one of R64. Every other constructor has an encoding for every operand. -/
def Instr.wf : Instr → Bool
  | .constructKeccak224 _ => true
  | .constructKeccak256 _ => true
  | .constructKeccak384 _ => true
  | .constructKeccak512 _ => true
  | .constructSha3_224 _ => true
  | .constructSha3_256 _ => true
  | .constructSha3_384 _ => true
  | .constructSha3_512 _ => true
  | .constructShake128 _ => true
  | .constructShake256 _ => true
  | .constructXoodyak _ => true
  | .constructRipemd256 _ => true
  | .constructCity64 _ => true
  | .constructXxh32 _ => true
  | .constructXxh64 _ => true
  | .constructUnsupported _ vid => (Variant.ofVid vid).isNone
  | .feed n payload => payload.length == payloadWords n
  | .result => true
  | .reset => true
  | .illegal op arg => illegalFields op arg

end Sys2Proof
end

