-- ==== Sys2Proof/Decode.lean ====
section
/-! DEFINITION. Decoding the command stream (30_encoding.md R55 to R65) and, after it, encoding. The stream is a list of
32-bit words; a stream word arrives whole, so no byte order enters here. -/

namespace Sys2Proof

/-- Why a list of words does not begin with a complete command (R65): there is no command word, or the payload words of a
`FEED` have not all arrived. -/
inductive DecodeError
  | noCommandWord
  | payloadMissing
  deriving DecidableEq, Repr

/-- `OP`, bits [31:24] of a command word (R56). -/
def opOf (w : U32) : BitVec 8 := w.extractLsb' 24 8

/-- `ARG`, bits [23:0] of a command word (R56). -/
def argOf (w : U32) : BitVec 24 := w.extractLsb' 0 24

/-- `VID = ARG[7:0]` of a `CONSTRUCT` (R57). -/
def vidOf (arg : BitVec 24) : BitVec 8 := arg.extractLsb' 0 8

/-- `OUTREQ = ARG[23:8]` of a `CONSTRUCT` (R57). -/
def outreqOf (arg : BitVec 24) : BitVec 16 := arg.extractLsb' 8 16

/-- A `CONSTRUCT` word: the row of its `VID`, or an unsupported id (R57, R62). -/
def decodeConstruct (arg : BitVec 24) : Instr :=
  match Variant.ofVid (vidOf arg) with
  | some v => v.construct (outreqOf arg)
  | none => .constructUnsupported (outreqOf arg) (vidOf arg)

/-- The length of a command in words, from the two fields of its first word alone (R65). -/
def commandWords (op : BitVec 8) (arg : BitVec 24) : Nat :=
  if op = 0x02 then 1 + payloadWords arg else 1

/-- The command a list of words begins with, and the words after it. Total: every list gives a command or a named
reason (R64: every word that matches none of R57 to R60 is the illegal command). -/
def decode : List U32 → Except DecodeError (Instr × List U32)
  | [] => .error .noCommandWord
  | w :: rest =>
    if opOf w = 0x01 then .ok (decodeConstruct (argOf w), rest)
    else if opOf w = 0x02 then
      if rest.length < payloadWords (argOf w) then .error .payloadMissing
      else .ok (.feed (argOf w) (rest.take (payloadWords (argOf w))), rest.drop (payloadWords (argOf w)))
    else if opOf w = 0x03 ∧ argOf w = 0 then .ok (.result, rest)
    else if opOf w = 0x04 ∧ argOf w = 0 then .ok (.reset, rest)
    else .ok (.illegal (opOf w) (argOf w), rest)

/-! ### Encoding -/

/-- A command word of format C from its fields (R56). -/
def commandWord (op : BitVec 8) (arg : BitVec 24) : U32 :=
  (op.setWidth 32 <<< 24) ||| arg.setWidth 32

/-- `ARG` of a `CONSTRUCT` (R57). -/
def constructArg (outreq : BitVec 16) (vid : BitVec 8) : BitVec 24 :=
  (outreq.setWidth 24 <<< 8) ||| vid.setWidth 24

/-- The command word of a `CONSTRUCT` (R57). -/
def constructWord (outreq : BitVec 16) (vid : BitVec 8) : U32 := commandWord 0x01 (constructArg outreq vid)

/-- The words of an instruction (R57 to R60, R64). -/
def encode : Instr → List U32
  | .constructKeccak224 outreq => [constructWord outreq 0x00]
  | .constructKeccak256 outreq => [constructWord outreq 0x01]
  | .constructKeccak384 outreq => [constructWord outreq 0x02]
  | .constructKeccak512 outreq => [constructWord outreq 0x03]
  | .constructSha3_224 outreq => [constructWord outreq 0x04]
  | .constructSha3_256 outreq => [constructWord outreq 0x05]
  | .constructSha3_384 outreq => [constructWord outreq 0x06]
  | .constructSha3_512 outreq => [constructWord outreq 0x07]
  | .constructShake128 outreq => [constructWord outreq 0x08]
  | .constructShake256 outreq => [constructWord outreq 0x09]
  | .constructXoodyak outreq => [constructWord outreq 0x10]
  | .constructRipemd256 outreq => [constructWord outreq 0x20]
  | .constructCity64 outreq => [constructWord outreq 0x30]
  | .constructXxh32 outreq => [constructWord outreq 0x31]
  | .constructXxh64 outreq => [constructWord outreq 0x32]
  | .constructUnsupported outreq vid => [constructWord outreq vid]
  | .feed n payload => commandWord 0x02 n :: payload
  | .result => [commandWord 0x03 0]
  | .reset => [commandWord 0x04 0]
  | .illegal op arg => [commandWord op arg]

/-! ### The opcode table's numbering of bits -/

/-- The stream words of an instruction whose bits are `w`, numbered as spec/opcode_table.json numbers them: word `k` is
bits `32k + 31` to `32k`, every bit from `nbits` on is 0, and payload words a `FEED` asks for beyond them are zero. -/
def tableWords (nbits w : Nat) : List U32 :=
  let given := (List.range (max 1 ((nbits + 31) / 32))).map fun k => BitVec.ofNat 32 ((w % 2 ^ nbits) >>> (32 * k))
  let first := BitVec.ofNat 32 (w % 2 ^ nbits)
  given ++ List.replicate (commandWords (opOf first) (argOf first) - given.length) 0

/-- The instruction the decoder reads from an instruction whose bits are `w`. -/
def decodeTableWord (nbits w : Nat) : Option Instr :=
  match decode (tableWords nbits w) with
  | .ok (i, _) => some i
  | .error _ => none

end Sys2Proof
end

