-- ==== Sys2Proof/Machine/Fetch.lean ====
section
/-! DEFINITION. Taking the next command, or the hardware reset, from the host's input (30_encoding.md R55, R65;
70_reset_and_hazards.md R250). -/

namespace Sys2Proof.Machine

/-- The command words that have arrived, up to the first `RST`. -/
def arrivedWords : List HostEvent → List U32
  | .word w :: r => w :: arrivedWords r
  | .rst :: _ => []
  | [] => []

/-- What the host sends after its first `RST`, if there is one: the fresh command stream (R250). -/
def afterRst : List HostEvent → Option (List HostEvent)
  | .word _ :: r => afterRst r
  | .rst :: r => some r
  | [] => none

/-- The stream an instance starts with after an `RST`: what stands behind the event in its input; nothing, where the event
has not been entered there, for then every word it holds was sent before the reset (R250). -/
def freshStream (input : List HostEvent) : List HostEvent := (afterRst input).getD []

/-- What the instance does next: a complete command of so many words, the hardware reset, or nothing. -/
inductive Fetched
  | command (i : Instr) (words : Nat)
  | rst (fresh : List HostEvent)
  | stuck (f : Fault)
  deriving DecidableEq, Repr

/-- Why the host must be waited for (R55, R65). -/
def stuckBy : DecodeError → Fault
  | .noCommandWord => .awaitingCommand
  | .payloadMissing => .awaitingPayload

/-- A complete command is taken first, since it arrived before any `RST` behind it. Where the words before an `RST` hold
no complete command, the reset happens and they are abandoned without a response (R250). With no `RST` the instance
waits (R65). -/
def fetch (input : List HostEvent) : Fetched :=
  match decode (arrivedWords input) with
  | .ok (i, rest) => .command i ((arrivedWords input).length - rest.length)
  | .error e =>
    match afterRst input with
    | some fresh => .rst fresh
    | none => .stuck (stuckBy e)

/-- What each outcome of the fetch makes of the state; `run` is the meaning of the command. -/
def advance (run : Instr → State → Host.Outcome State Fault Refusal) (s : State) :
    Fetched → Host.Outcome State Fault Refusal
  | .command i words => run i (s.consume words)
  | .rst fresh => .next (hardwareReset fresh s)
  | .stuck f => .fault f

/-- Words as the host presents them. -/
def presented (ws : List U32) : List HostEvent := ws.map .word

end Sys2Proof.Machine
end

