-- ==== Sys2Proof/Machine/Step.lean ====
section
/-! DEFINITION. One step: the block takes the next command from its stream, or the hardware reset, and completes it
(30_encoding.md R55; 70_reset_and_hazards.md R261: every command is one atomic step). -/

namespace Sys2Proof.Machine

/-- One step of the machine. -/
def step (s : State) : Host.Outcome State Fault Refusal := advance exec s (fetch s.input)

/-- The command stream replaced by one instruction's words, numbered as spec/opcode_table.json numbers their bits. -/
def State.withFetchWord (s : State) (nbits w : Nat) : State := { s with input := presented (tableWords nbits w) }

end Sys2Proof.Machine
end

