-- ==== Sys2Proof/Machine/Block.lean ====
section
/-! DEFINITION. The block with `N_INST` instances (10_state.md R10; 60_exceptions.md R242): disjoint copies of the state,
one command stream each, no interaction but the one hardware reset, which is delivered to the whole block
(70_reset_and_hazards.md R250). Which instance moves next is the host's doing, so it is an argument. -/

namespace Sys2Proof.Machine

/-- `N_INST` instances; `N_INST` is the length of the list (R8). -/
structure Block where
  insts : List State
  deriving DecidableEq, Repr

/-- The block after power-on: `n` instances after hardware reset (R242, R250). -/
def Block.reset (n : Nat) : Block := ⟨List.replicate n .reset⟩

/-- `RST` is delivered to the whole block (R250): every instance is reset, each with its own fresh stream. -/
def Block.rst (b : Block) : Block := ⟨b.insts.map fun s => hardwareReset (freshStream s.input) s⟩

/-- Instance `k` moves. A command is its own step and leaves the other instances untouched (R10); the `RST` it meets is
the whole block's (R250). -/
def Block.stepAt (b : Block) (k : Fin b.insts.length) : Host.Outcome Block Fault Refusal :=
  match fetch b.insts[k].input with
  | .rst _ => .next b.rst
  | .command _ _ | .stuck _ =>
    match step b.insts[k] with
    | .next t => .next ⟨b.insts.set k t⟩
    | .fault f => .fault f
    | .refused r => .refused r

end Sys2Proof.Machine
end

