-- ==== Sys2Proof/Machine/Pseudo.lean ====
section
/-! DEFINITION. The assembler's lines as instructions (30_encoding.md R66, R67). None is a command of its own: each
expands to instructions of the table. -/

namespace Sys2Proof.Machine

/-- The largest byte count of one `FEED` (R58). -/
def maxFeed : Nat := 16777215

/-- `FEED` of at most `maxFeed` bytes: the count and the packed payload (R58, R66). -/
def feedOne (data : List Byte) : Instr := .feed (BitVec.ofNat 24 data.length) (packWords data)

/-- A longer `FEED` is split into consecutive `FEED`s of at most `maxFeed` bytes each (R67). The rule does not say how long
each piece is. DESIGN CHOICE, unsafe for a claim about the number or the sizes of the pieces (log entry 14): full pieces
of `maxFeed` bytes first, the remainder last. `fuel` bounds the number of pieces, and the data's length is enough. -/
def feedSplit : Nat → List Byte → List Instr
  | 0, data => [feedOne data]
  | fuel + 1, data =>
    if data.length ≤ maxFeed then [feedOne data] else feedOne (data.take maxFeed) :: feedSplit fuel (data.drop maxFeed)

/-- One line of the assembler (R66, R67); `outlen` is the optional decimal operand, 0 when it is absent. -/
inductive AsmLine
  | construct (v : Variant) (outlen : BitVec 16)
  | feed (data : List Byte)
  | result
  | reset
  | hash (v : Variant) (outlen : BitVec 16) (data : List Byte)
  | nop
  deriving DecidableEq, Repr

/-- The instructions of a line: `HASH` is `CONSTRUCT`, `FEED`, `RESULT`; `NOP` is a zero-length `FEED` (R67). -/
def AsmLine.expand : AsmLine → List Instr
  | .construct v outlen => [v.construct outlen]
  | .feed data => feedSplit data.length data
  | .result => [.result]
  | .reset => [.reset]
  | .hash v outlen data => v.construct outlen :: (feedSplit data.length data ++ [.result])
  | .nop => [feedOne []]

end Sys2Proof.Machine
end

