-- ==== Sys2Proof/Safety.lean ====
section
/-! DEFINITION. The terms claims are stated in: the invariant at command boundaries (10_state.md R25), reachable states,
running a list of commands, and a message cut into blocks. -/

namespace Sys2Proof.Machine

/-- `MODE` is `ABSORBING`, or the kind has no `MODE` (R20, R25 d). -/
def Engine.absorbing : Engine → Bool
  | .keccak _ mode => mode == .absorbing
  | .xoodoo _ mode => mode == .absorbing
  | .rmd _ => true
  | .xxh32 _ => true
  | .xxh64 _ => true
  | .city64 => true

/-- The configurations a successful `CONSTRUCT` writes (R202). -/
def CfgFrom (p : Params) (c : Cfg) : Prop :=
  ∃ v ∈ p.variants, ∃ outreq outlen, effectiveOutLen (v.row p) outreq = some outlen ∧ c = cfgOf p v outlen

/-- What holds of an instance's fields between commands (R25 a, c, d and the shape R13 asks for). -/
structure InstInv (p : Params) (i : Inst) : Prop where
  cfg : CfgFrom p i.cfg
  engine : i.engine.agrees i.cfg = true
  mode : i.engine.absorbing = true
  canonical : Memory.wf i.buf = true
  zeroBeyond : ∀ a, i.bufLen ≤ a → Memory.read i.buf a = 0
  drained : i.cfg.isCity = false → i.bufLen < i.cfg.block.toNat
  whole : i.cfg.isCity = true → i.bufLen ≤ p.mixBufCap.toNat ∧ i.len.toNat = i.bufLen

/-- The invariant of the machine at command boundaries: the parameters are legal, `InvariantViolation` has not been
recorded (R232), the instance's fields exist exactly while it is bound (R12, R13, R26) and then satisfy R25. -/
structure StateInv (s : State) : Prop where
  params : s.params.ok = true
  noViolation : s.status.fault ≠ .invariantViolation
  exists_iff_bound : s.inst.isSome = s.status.bound
  inst : ∀ i, s.inst = some i → InstInv s.params i

/-- A `READY` instance (R200) that satisfies the invariant; `i` is its fields. -/
structure Ready (s : State) (i : Inst) : Prop where
  inv : StateInv s
  bound : s.status.bound = true
  noFault : s.status.fault = .noFault
  inst : s.inst = some i

/-- A state after hardware reset, for any legal parameters and any input the host will send (R250). -/
structure Initial (s : State) : Prop where
  params : s.params.ok = true
  status : s.status = ⟨false, .noFault⟩
  inst : s.inst = none
  responses : s.responses = []
  cpc : s.cpc = 0

/-- The states some number of steps lead to. -/
inductive Reachable (s0 : State) : State → Prop
  | start : Reachable s0 s0
  | step {s t : State} : Reachable s0 s → Machine.step s = .next t → Reachable s0 t

/-- The message an instance holds after the instruction `i` has led to the state `t`, if it held `m` before: a `FEED` that
succeeds appends its data bytes, a successful `CONSTRUCT`, `RESULT` or `RESET` begins a new message, and a command that is
answered with a fault changes nothing (R203, R207, R233). -/
def messageAfter (i : Instr) (t : State) (m : List Byte) : List Byte :=
  if t.status.fault ≠ .noFault then m
  else match i with
    | .feed n payload => m ++ feedData n payload
    | .illegal _ _ => m
    | .result | .reset | .constructUnsupported _ _ => []
    | .constructKeccak224 _ | .constructKeccak256 _ | .constructKeccak384 _ | .constructKeccak512 _ => []
    | .constructSha3_224 _ | .constructSha3_256 _ | .constructSha3_384 _ | .constructSha3_512 _ => []
    | .constructShake128 _ | .constructShake256 _ | .constructXoodyak _ | .constructRipemd256 _ => []
    | .constructCity64 _ | .constructXxh32 _ | .constructXxh64 _ => []

/-- The message held after the step from `s` to `t`, if it was `m` before. -/
def stepMessage (s t : State) (m : List Byte) : List Byte :=
  match fetch s.input with
  | .command i _ => messageAfter i t m
  | .rst _ => []
  | .stuck _ => m

/-- The runs from `s0`, each with the bytes fed since the last point at which a message began. -/
inductive Run (s0 : State) : State → List Byte → Prop
  | start : Run s0 s0 []
  | step {s t : State} {m : List Byte} : Run s0 s m → Machine.step s = .next t → Run s0 t (stepMessage s t m)

/-- The instructions executed one after the other; the streams are left to `step`. -/
def execAll : List Instr → State → Host.Outcome State Fault Refusal
  | [], s => .next s
  | i :: is, s =>
    match exec i s with
    | .next t => execAll is t
    | .fault f => .fault f
    | .refused r => .refused r

/-- `s` after a command that leaves `STATUS`, the instance's fields and the response words as given and changes nothing
else: the parameters, the words still to come and `cpc` are those of `s`. -/
def State.answered (s : State) (st : Status) (i : Option Inst) (ws : List U32) : State :=
  { s with status := st, inst := i, responses := s.responses ++ ws }

/-- Bytes `n * k` to `n * k + n - 1` of a message: its block `k` of `n` bytes. -/
def blockOf (n : Nat) (m : List Byte) (k : Nat) : List Byte := (m.drop (n * k)).take n

/-- The state array after the whole blocks of `m` were absorbed into the fresh one (R25 e); block `k` is absorbed when
`LEN` is `BLOCK * (k + 1)` modulo 2^64. -/
def absorbed (c : Cfg) (m : List Byte) : Engine :=
  (List.range (m.length / c.block.toNat)).foldl
    (fun e k => e.absorb c (BitVec.ofNat 64 (c.block.toNat * (k + 1))) (blockOf c.block.toNat m k)) (Engine.fresh c)

/-- The instance `a` holds the message `m` (R25): it is the fresh instance fed `m`; (a), (b) its `BUFLEN`; (c) zeros beyond
it; (d) `MODE`; (e) the state array is the initial one with the whole blocks of `m` absorbed; the pending bytes are the
end of `m`. -/
structure HoldsMessage (p : Params) (a : Inst) (m : List Byte) : Prop where
  fed : a = feedBytes (Inst.fresh a.cfg) m
  len : a.len = BitVec.ofNat 64 m.length
  drained : a.cfg.vid ≠ 0x30 → a.bufLen < a.cfg.block.toNat ∧ a.bufLen = m.length % a.cfg.block.toNat ∧
    (m.length < 2 ^ 64 → a.bufLen = a.len.toNat % a.cfg.block.toNat) ∧ a.engine = absorbed a.cfg m
  whole : a.cfg.vid = 0x30 → a.bufLen ≤ p.mixBufCap.toNat ∧ a.bufLen = m.length ∧ a.bufLen = a.len.toNat ∧
    a.engine = .city64
  zeroBeyond : ∀ x, a.bufLen ≤ x → Memory.read a.buf x = 0
  absorbing : a.engine.absorbing = true
  pending : a.pending = m.drop (m.length - a.bufLen)

/-- The machine satisfies the invariant, and its instance, if it has one, holds the message `m`. -/
def Carries (s : State) (m : List Byte) : Prop :=
  StateInv s ∧ ∀ a, s.inst = some a → HoldsMessage s.params a m

/-- A loop as the rules write it: while `i + width` is at most `stop`, run the body at `i` and advance `i` by `width`; it
answers the value and the last `i`. `fuel` bounds the passes, and `stop` of them are enough. -/
def whileBelow {α : Type} (width stop : Nat) (body : α → Nat → α) : Nat → α × Nat → α × Nat
  | 0, s => s
  | fuel + 1, s =>
    if s.2 + width ≤ stop then whileBelow width stop body fuel (body s.1 s.2, s.2 + width) else s

/-- The multi-rate padding of R115 for a message of `n` bytes: `DS`, zeros, 0x80, or both in one byte. -/
def keccakPad (block : Nat) (ds : Byte) (n : Nat) : List Byte :=
  if block - n % block = 1 then [ds ^^^ 0x80] else ds :: (zeros (block - n % block - 2) ++ [0x80])

/-- The padding of R156 for a message of `n` bytes: 0x80, zeros, the 64-bit bit length, to a multiple of 64. -/
def ripemdPad (n : Nat) : List Byte :=
  0x80 :: (zeros ((119 - n % 64) % 64) ++ unpack64le (BitVec.ofNat 64 (8 * n)))

/-- The blocks of R137: 16 bytes each, the last possibly shorter, one empty block for the empty message. -/
def xoodyakBlocks (m : List Byte) : Nat := if m = [] then 1 else (m.length + 15) / 16

end Sys2Proof.Machine
end

