-- ==== Sys2Proof/Certificates/Slice0/Obligations.lean ====
section
/-! DEFINITION. The statements for the provers. Each docstring names the rule of spec/ it formalises, or says what it rests
on. -/

open Sys2Proof Sys2Proof.Machine

/-! ### Encoding -/

/-- Decoding the words of a well-formed instruction, whatever follows them, gives the instruction and what follows
(R56 to R60, R64, R65). -/
def Obligations.DecodeOfEncodeIsIdentity : Prop :=
  ∀ (i : Instr) (rest : List U32), i.wf = true → decode (encode i ++ rest) = .ok (i, rest)

/-- What the decoder reads is well-formed and encodes to the words it was read from (R56 to R60, R64, R65): every list
of words has at most one meaning. -/
def Obligations.EncodeOfDecodeIsIdentity : Prop :=
  ∀ (ws rest : List U32) (i : Instr), decode ws = .ok (i, rest) → i.wf = true ∧ encode i ++ rest = ws

/-- The worked encodings of 30_encoding.md section 6 and 95_test_vectors.md 6.2. -/
def Obligations.DecodesTheWorkedWords : Prop :=
  decode [0x01000005] = .ok (.constructSha3_256 0, []) ∧
  decode [0x0101F408] = .ok (.constructShake128 500, []) ∧
  decode [0x01FFFF10] = .ok (.constructXoodyak 65535, []) ∧
  decode [0x010000FF] = .ok (.constructUnsupported 0 0xFF, []) ∧
  decode [0x02000003, 0x00636261] = .ok (.feed 3 [0x00636261], []) ∧
  decode [0x02000000, 0x04000000] = .ok (.feed 0 [], [0x04000000]) ∧
  decode [0x03000000] = .ok (.result, []) ∧
  decode [0x04000000] = .ok (.reset, []) ∧
  decode [0x03000001, 7] = .ok (.illegal 0x03 1, [7]) ∧
  decode [0x7F123456] = .ok (.illegal 0x7F 0x123456, [])

/-- R65: the length of a command is known from its first word alone; a `FEED` whose payload words have not all arrived
has not begun, and the step does not exist. -/
def Obligations.LengthIsKnownFromTheFirstWord : Prop :=
  ∀ (w : U32) (rest : List U32),
    (opOf w = 0x02 → ((argOf w).toNat + 3) / 4 ≤ rest.length →
      ∃ i, decode (w :: rest) = .ok (i, (w :: rest).drop (1 + ((argOf w).toNat + 3) / 4))) ∧
    (opOf w ≠ 0x02 → ∃ i, decode (w :: rest) = .ok (i, rest)) ∧
    (opOf w = 0x02 → rest.length < ((argOf w).toNat + 3) / 4 →
      ∀ s : State, arrivedWords s.input = w :: rest → afterRst s.input = none → step s = .fault .awaitingPayload)

/-- R64: exactly the words that match none of R57 to R60 are illegal, each one word long; an illegal word raises
`ProtocolError` and has no other effect. -/
def Obligations.IllegalWordsRaiseProtocolError : Prop :=
  ∀ (w : U32) (rest : List U32),
    ((opOf w = 0x00 ∨ 5 ≤ (opOf w).toNat ∨ ((opOf w = 0x03 ∨ opOf w = 0x04) ∧ argOf w ≠ 0)) ↔
      decode (w :: rest) = .ok (.illegal (opOf w) (argOf w), rest)) ∧
    ∀ s : State, s.status.fault = .noFault →
      exec (.illegal (opOf w) (argOf w)) s =
        .next (s.answered ⟨s.status.bound, .protocolError⟩ s.inst [0x03000000])

/-- R58: a `FEED` word is followed by `(N + 3) / 4` payload words; the data bytes are `N`; byte `i` is bits
[8(i mod 4)+7 : 8(i mod 4)] of payload word `i / 4`; payloads that agree on those bytes have the same effect, since the
unused bytes are not examined. -/
def Obligations.FeedDataLayout : Prop :=
  (∀ (w : U32) (rest : List U32), w.extractLsb' 24 8 = 0x02 →
    let n := w.extractLsb' 0 24
    let words := (n.toNat + 3) / 4
    words ≤ rest.length → decode (w :: rest) = .ok (.feed n (rest.take words), rest.drop words)) ∧
  ∀ (n : BitVec 24) (p : List U32), (Instr.feed n p).wf = true →
    p.length = (n.toNat + 3) / 4 ∧ (feedData n p).length = n.toNat ∧
    (∀ k, k < n.toNat → ∃ w, p[k / 4]? = some w ∧ (feedData n p)[k]? = some (w.extractLsb' (8 * (k % 4)) 8)) ∧
    ∀ q : List U32, (Instr.feed n q).wf = true →
      (∀ k v w, k < n.toNat → p[k / 4]? = some v → q[k / 4]? = some w →
        v.extractLsb' (8 * (k % 4)) 8 = w.extractLsb' (8 * (k % 4)) 8) →
      ∀ s : State, exec (.feed n p) s = exec (.feed n q) s

/-- Packing bytes into payload words and taking the data bytes of the `FEED` gives the bytes back (R58, R61). -/
def Obligations.FeedOfPackedBytes : Prop :=
  ∀ d : List Byte, d.length < 2 ^ 24 →
    (feedOne d).wf = true ∧ feedData (BitVec.ofNat 24 d.length) (packWords d) = d

/-! ### The step -/

/-- When the input begins with the words of a well-formed instruction, the step is that instruction on the state with
those words consumed: they leave the input and `cpc` advances by their number (R24, R55, R65). What follows may hold an
`RST`; that a complete command standing before one is executed first is the model's choice (log entry 6). -/
def Obligations.StepRunsTheDecodedCommand : Prop :=
  ∀ (s : State) (i : Instr) (later : List HostEvent), i.wf = true → s.input = presented (encode i) ++ later →
    step s = exec i { s with input := later, cpc := s.cpc + (encode i).length }

/-- The step that takes `RST` (R250): the words of an incomplete command before it are abandoned without a response;
`STATUS` is 0, nothing else of the instance exists, the streams restart. That `RST` stands among the words of the input,
and that complete commands before it are executed first, is the model's choice (log entry 6). -/
def Obligations.HardwareResetIsTaken : Prop :=
  ∀ (s : State) (e : DecodeError) (fresh : List HostEvent),
    decode (arrivedWords s.input) = .error e → afterRst s.input = some fresh →
      step s = .next ⟨s.params, ⟨false, .noFault⟩, none, fresh, [], 0⟩

/-- Delivered to the whole block, `RST` makes `STATUS` 0 in every instance, every other field ceases to exist, a command in
progress is abandoned without a response, and the streams are restarted with `cpc` 0 (R250). Which words each instance
goes on with, those behind the first `RST` of its own input or none where it holds no `RST`, and that the response list
becomes empty, are the model's choice (log entry 6). -/
def Obligations.HardwareResetEffect : Prop :=
  ∀ b : Block, b.rst.insts.length = b.insts.length ∧
    ∀ (k : Nat) (s : State), b.insts[k]? = some s →
      ∃ fresh, b.rst.insts[k]? = some ⟨s.params, ⟨false, .noFault⟩, none, fresh, [], 0⟩ ∧
        (∀ f, afterRst s.input = some f → fresh = f) ∧ (afterRst s.input = none → fresh = [])

/-- The middle column of R26, with R250 and R24: after hardware reset `STATUS` is 0, nothing else of the instance
exists, the streams are fresh and `cpc` is 0. (The parameters of `State.reset` are the model's choice, log entry 1,
and the statement says nothing of them.) -/
def Obligations.ResetStateIsUnbound : Prop :=
  State.reset.status.bits = 0 ∧ State.reset.status.controller = .unbound ∧ State.reset.inst = none ∧
  State.reset.input = [] ∧ State.reset.responses = [] ∧ State.reset.cpc = 0 ∧
  ∀ s : State, { hardwareReset [] s with params := State.reset.params } = State.reset

/-! ### CONSTRUCT -/

/-- R202, every path of every `CONSTRUCT`: the word's `VID` selects the row; a stored fault answers; a `VID` without a
row or an unacceptable output length unbinds (the old binding is not kept) and faults; otherwise the instance is bound
to the row with the effective output length, and reset. Nothing else changes. -/
def Obligations.ConstructFollowsItsRule : Prop :=
  (∀ (w : U32) (rest : List U32), w.extractLsb' 24 8 = 0x01 →
    (∀ v : Variant, v.vid = w.extractLsb' 0 8 →
      decode (w :: rest) = .ok (v.construct (w.extractLsb' 8 16), rest)) ∧
    ((∀ v : Variant, v.vid ≠ w.extractLsb' 0 8) →
      decode (w :: rest) = .ok (.constructUnsupported (w.extractLsb' 8 16) (w.extractLsb' 0 8), rest))) ∧
  ∀ s : State,
    (s.status.fault ≠ .noFault →
      (∀ v outreq, exec (Variant.construct outreq v) s =
        .next (s.answered s.status s.inst [statusWord s.status.fault 0])) ∧
      ∀ outreq vid, exec (.constructUnsupported outreq vid) s =
        .next (s.answered s.status s.inst [statusWord s.status.fault 0])) ∧
    (s.status.fault = .noFault →
      let fails := fun (i : Instr) => ∃ t, exec i s = .next t ∧
        t = s.answered ⟨false, .configurationError⟩ t.inst [0x01000000] ∧ t.inst.map Inst.cfg = none
      let binds := fun (v : Variant) (outlen : BitVec 16) =>
        let row := v.row s.params
        let cfg : Cfg := ⟨v.vid, kindOfVid v.vid, row.block, outlen, row.rounds, row.ds, row.xof⟩
        Host.Outcome.next (s.answered ⟨true, .noFault⟩ (some ⟨cfg, Engine.fresh cfg, [], 0, 0⟩) [0x00000000])
      (∀ outreq vid, fails (.constructUnsupported outreq vid)) ∧
      ∀ v outreq, v ∈ s.params.variants →
        (outreq = 0 → exec (Variant.construct outreq v) s = binds v (v.row s.params).outlen) ∧
        (outreq ≠ 0 → (v.row s.params).xof = true → exec (Variant.construct outreq v) s = binds v outreq) ∧
        (outreq ≠ 0 → outreq = (v.row s.params).outlen → exec (Variant.construct outreq v) s = binds v outreq) ∧
        (outreq ≠ 0 → (v.row s.params).xof = false → outreq ≠ (v.row s.params).outlen →
          fails (Variant.construct outreq v)))

/-- Where the parameter `VARIANTS` (R8, D5) leaves a variant out, its `CONSTRUCT` is a `ConfigurationError`, whatever
`OUTREQ`, as for a `VID` without a row. The model's reading of a restricted set is log entry 9; that the fields of the
instance hold no value then is log entry 3. -/
def Obligations.RestrictedVariantsAreUnsupported : Prop :=
  ∀ (s : State) (v : Variant) (outreq : BitVec 16), s.status.fault = .noFault → v ∉ s.params.variants →
    exec (Variant.construct outreq v) s = .next (s.answered ⟨false, .configurationError⟩ none [0x01000000]) ∧
    ∀ vid, exec (.constructUnsupported outreq vid) s = exec (Variant.construct outreq v) s

/-- R231, with the fifteen variants of R62 in `VARIANTS`: `ConfigurationError` is raised only by `CONSTRUCT`, in exactly
the two cases; the response carries `ST = 1`, the instance is unbound, and every later command is answered with
`ST = 1`. -/
def Obligations.ConfigurationErrorExactly : Prop :=
  (∀ (w : U32) (s : State), opOf w = 0x01 → s.status.fault = .noFault → (∀ v : Variant, v ∈ s.params.variants) →
    ∃ i t, decode [w] = .ok (i, []) ∧ exec i s = .next t ∧
      (t.status.fault = .configurationError ↔
        (∀ v : Variant, v.vid ≠ vidOf (argOf w)) ∨
        ∃ v : Variant, v.vid = vidOf (argOf w) ∧ outreqOf (argOf w) ≠ 0 ∧
          (v.row s.params).xof = false ∧ outreqOf (argOf w) ≠ (v.row s.params).outlen) ∧
      (t.status.fault = .configurationError →
        t.status.bound = false ∧ t.responses = s.responses ++ [0x01000000] ∧
        ∀ j : Instr, ∃ u, exec j t = .next u ∧ u.status = t.status ∧ u.responses = t.responses ++ [0x01000000])) ∧
  ∀ (i : Instr) (s t : State), i.isConstruct = false → s.status.fault = .noFault → exec i s = .next t →
    t.status.fault ≠ .configurationError

/-- R12: `CFG` holds no value while `BOUND` is 0; where it holds one, every field is legal and is the row's of its `VID`;
and only a successful `CONSTRUCT` writes it, all fields at once (a failed one leaves it without value). -/
def Obligations.CfgFollowsItsRule : Prop :=
  ∀ s : State, StateInv s →
    (s.status.bound = false → s.inst.map Inst.cfg = none) ∧
    (∀ a, s.inst = some a → ∃ v : Variant, v ∈ s.params.variants ∧ a.cfg.vid = v.vid ∧
      a.cfg.kind = (if v.vid.extractLsb' 4 2 = 0 then .keccak else if v.vid.extractLsb' 4 2 = 1 then .xoodoo
        else if v.vid.extractLsb' 4 2 = 2 then .rmd else .mix) ∧
      a.cfg.block = (v.row s.params).block ∧ a.cfg.xof = (v.row s.params).xof ∧
      (a.cfg.xof = false → a.cfg.outlen = (v.row s.params).outlen) ∧ 0 < a.cfg.outlen.toNat ∧
      (a.cfg.kind = .keccak → a.cfg.rounds = 24 ∧ (a.cfg.ds = 0x01 ∨ a.cfg.ds = 0x06 ∨ a.cfg.ds = 0x1F)) ∧
      (a.cfg.kind = .xoodoo → a.cfg.rounds = 12 ∧ a.cfg.ds = 0x01) ∧
      (a.cfg.kind = .rmd → a.cfg.rounds = 0 ∧ a.cfg.ds = 0x80) ∧ (a.cfg.kind = .mix → a.cfg.rounds = 0 ∧ a.cfg.ds = 0x00)) ∧
    ∀ (i : Instr) (t : State), exec i s = .next t →
      (∀ v outreq outlen, i = Variant.construct outreq v → t.status.fault = .noFault →
        effectiveOutLen (v.row s.params) outreq = some outlen → t.inst.map Inst.cfg = some ⟨v.vid, kindOfVid v.vid,
          (v.row s.params).block, outlen, (v.row s.params).rounds, (v.row s.params).ds, (v.row s.params).xof⟩) ∧
      (i.isConstruct = true → s.status.fault = .noFault → t.status.fault = .configurationError →
        t.inst.map Inst.cfg = none) ∧
      (i.isConstruct = false → t.inst.map Inst.cfg = s.inst.map Inst.cfg)

/-- R207, R26: `INIT_STATE` keeps `CFG` and gives every other field of the instance its reset value, the state array by
kind. -/
def Obligations.InitStateValues : Prop :=
  ∀ i : Inst,
    (initState i).cfg = i.cfg ∧ (∀ a, Memory.read (initState i).buf a = 0) ∧ (initState i).bufLen = 0 ∧
    (initState i).len = 0 ∧ (initState i).engine.absorbing = true ∧
    (i.cfg.kind = .keccak → (initState i).engine = .keccak (Vector.replicate 25 0) .absorbing) ∧
    (i.cfg.kind = .xoodoo → (initState i).engine = .xoodoo (Vector.replicate 12 0) .absorbing) ∧
    (i.cfg.kind = .rmd → (initState i).engine = .rmd #v[0x67452301, 0xEFCDAB89, 0x98BADCFE, 0x10325476,
      0x76543210, 0xFEDCBA98, 0x89ABCDEF, 0x01234567]) ∧
    (i.cfg.kind = .mix → i.cfg.vid = 0x31 →
      (initState i).engine = .xxh32 #v[0x24234428, 0x85EBCA77, 0x00000000, 0x61C8864F]) ∧
    (i.cfg.kind = .mix → i.cfg.vid = 0x32 →
      (initState i).engine = .xxh64 #v[0x60EA27EEADC0B5D6, 0xC2B2AE3D27D4EB4F, 0x0000000000000000, 0x61C8864E7A143579]) ∧
    (i.cfg.kind = .mix → i.cfg.vid = 0x30 → (initState i).engine = .city64)

/-! ### Faults -/

/-- Fault entry (R233): the code is stored, `ConfigurationError` alone clears `BOUND`, and with it the fields of the
instance hold no value (the model's reading of R12 beside R233, log entry 3); nothing else of the instance changes,
the response is the status word alone, and `cpc` advances by the command's full length; from then on every command
answers with the stored code and changes nothing. In the clause about the step what follows may hold an `RST`, and that
the complete command before it is executed first is the model's choice (log entry 6). -/
def Obligations.FaultEntry : Prop :=
  (∀ (i : Instr) (s t : State), s.status.fault = .noFault → exec i s = .next t → t.status.fault ≠ .noFault →
    t = s.answered ⟨if t.status.fault = .configurationError then false else s.status.bound, t.status.fault⟩
      (if t.status.fault = .configurationError then none else s.inst) [t.status.fault.bits.setWidth 32 <<< 24]) ∧
  (∀ (i : Instr) (s : State), s.status.fault ≠ .noFault →
    exec i s = .next (s.answered s.status s.inst [s.status.fault.bits.setWidth 32 <<< 24])) ∧
  ∀ (i : Instr) (s t : State) (later : List HostEvent), i.wf = true → s.input = presented (encode i) ++ later →
    step s = .next t → t.cpc = s.cpc + (encode i).length ∧ t.input = later

/-- No command clears `STATUS.FAULT`; a step from a faulted state either answers a command with the stored code, changing
nothing else of the instance, or is the hardware reset (R237). When the reset is taken and which words it leaves is the
model's choice (log entry 6). -/
def Obligations.OnlyHardwareResetClearsAFault : Prop :=
  ∀ s t : State, s.status.fault ≠ .noFault → step s = .next t →
    (t.status = s.status ∧ t.inst = s.inst ∧ t.responses = s.responses ++ [statusWord s.status.fault 0]) ∨
    (∃ e, decode (arrivedWords s.input) = .error e ∧ afterRst s.input = some t.input ∧
      t.status = ⟨false, .noFault⟩ ∧ t.inst = none)

/-- R254: `FEED`, `RESULT` and `RESET` to an unbound instance are a `ProtocolError`, and it is sticky. -/
def Obligations.UnboundCommandIsProtocolError : Prop :=
  ∀ (s : State) (i : Instr), (i = .result ∨ i = .reset ∨ ∃ n p, i = .feed n p) →
    s.status.fault = .noFault → s.status.bound = false →
    exec i s = .next (s.answered ⟨false, .protocolError⟩ s.inst [0x03000000]) ∧
    ∀ (j : Instr) (t : State), exec i s = .next t →
      ∃ u, exec j t = .next u ∧ u.status = ⟨false, .protocolError⟩ ∧ u.responses = t.responses ++ [0x03000000]

/-- R236: which fault a command meets, in the order of the checks: the stored fault, the illegal word, the configuration
checks or the missing binding, the capacity. Under the invariant, which rules out the states no run reaches. -/
def Obligations.FaultPriority : Prop :=
  ∀ (i : Instr) (s : State), StateInv s → ∃ t, exec i s = .next t ∧
    (s.status.fault ≠ .noFault → t.status.fault = s.status.fault) ∧
    (s.status.fault = .noFault →
      (∀ op arg, i = .illegal op arg → t.status.fault = .protocolError) ∧
      (∀ outreq vid, i = .constructUnsupported outreq vid → t.status.fault = .configurationError) ∧
      (∀ outreq v, i = Variant.construct outreq v → v ∈ s.params.variants → t.status.fault =
        if outreq = 0 ∨ (v.row s.params).xof = true ∨ outreq = (v.row s.params).outlen
        then .noFault else .configurationError) ∧
      (i.isConstruct = false → s.status.bound = false → t.status.fault = .protocolError) ∧
      (∀ n p a, i = .feed n p → s.status.bound = true → s.inst = some a → t.status.fault =
        if a.cfg.vid = 0x30 ∧ s.params.mixBufCap.toNat < a.bufLen + n.toNat then .capacityExceeded else .noFault) ∧
      (i = .result ∨ i = .reset → s.status.bound = true → t.status.fault = .noFault))

/-- R235: a `FEED` that would take a `CITY64` message beyond `MIX_BUF_CAP` raises `CapacityExceeded` and stores nothing;
nothing else raises it. -/
def Obligations.CapacityExceededStoresNothing : Prop :=
  (∀ (s : State) (a : Inst) (n : BitVec 24) (p : List U32), Ready s a → a.cfg.vid = 0x30 →
    s.params.mixBufCap.toNat < a.bufLen + n.toNat →
    exec (.feed n p) s = .next (s.answered ⟨true, .capacityExceeded⟩ (some a) [0x04000000])) ∧
  ∀ (i : Instr) (s t : State), s.status.fault = .noFault → exec i s = .next t →
    t.status.fault = .capacityExceeded →
    ∃ n p a, i = .feed n p ∧ s.inst = some a ∧ a.cfg.vid = 0x30 ∧ s.params.mixBufCap.toNat < a.bufLen + n.toNat

/-- R200: the three states of the controller as `STATUS` shows them, and every transition: those of the commands,
under the invariant, and the hardware reset, which alone leaves `FAULTED`. -/
def Obligations.ControllerTransitions : Prop :=
  (∀ st : Status,
    (st.controller = .unbound ↔ st.fault = .noFault ∧ st.bound = false) ∧
    (st.controller = .ready ↔ st.fault = .noFault ∧ st.bound = true) ∧
    (st.controller = .faulted ↔ st.fault ≠ .noFault)) ∧
  (∀ (fresh : List HostEvent) (s : State), (hardwareReset fresh s).status.controller = .unbound) ∧
  ∀ (i : Instr) (s : State), StateInv s → ∃ t, exec i s = .next t ∧
    (s.status.controller = .faulted → t = s.answered s.status s.inst [statusWord s.status.fault 0]) ∧
    (s.status.controller = .unbound → i.isConstruct = false →
      t.status.controller = .faulted ∧ t.status.fault = .protocolError) ∧
    (s.status.controller = .unbound → i.isConstruct = true →
      t.status.controller = .ready ∨ (t.status.controller = .faulted ∧ t.status.fault = .configurationError)) ∧
    (s.status.controller = .ready →
      (i = .result ∨ i = .reset → t.status.controller = .ready) ∧
      (∀ n p, i = .feed n p → t.status.controller = .ready ∨
        (t.status.controller = .faulted ∧ t.status.fault = .capacityExceeded)) ∧
      (i.isConstruct = true → t.status.controller = .ready ∨
        (t.status.controller = .faulted ∧ t.status.fault = .configurationError)) ∧
      (∀ op arg, i = .illegal op arg → t.status.controller = .faulted ∧ t.status.fault = .protocolError))

/-! ### FEED -/

/-- R203, every path of `FEED`: the stored fault, the missing binding, the capacity of `CITY64`, and otherwise the
loop over the data bytes in order, each stored and counted, the buffer it fills absorbed and emptied at once; each
kind absorbs a block by its own row of R201, `XOODYAK` as the first exactly when `LEN` is 16. Afterwards the buffer is
below the block again. -/
def Obligations.FeedFollowsItsRule : Prop :=
  (∀ (s : State) (n : BitVec 24) (p : List U32),
    (s.status.fault ≠ .noFault →
      exec (.feed n p) s = .next (s.answered s.status s.inst [statusWord s.status.fault 0])) ∧
    (s.status.fault = .noFault → s.status.bound = false →
      exec (.feed n p) s = .next (s.answered ⟨false, .protocolError⟩ s.inst [0x03000000])) ∧
    ∀ a : Inst, Ready s a →
      exec (.feed n p) s =
        if a.cfg.vid = 0x30 ∧ s.params.mixBufCap.toNat < a.bufLen + n.toNat then
          .next (s.answered ⟨true, .capacityExceeded⟩ (some a) [0x04000000])
        else .next (s.answered ⟨true, .noFault⟩ (some (feedBytes a (feedData n p))) [0x00000000])) ∧
  (∀ a : Inst, feedBytes a [] = a) ∧
  (∀ (p : Params) (a : Inst) (d : List Byte), InstInv p a → a.cfg.vid ≠ 0x30 →
    (feedBytes a d).bufLen < a.cfg.block.toNat) ∧
  (∀ (a : Inst) (b : Byte) (d : List Byte), feedBytes a (b :: d) =
    let stored := { a with buf := Memory.write a.buf a.bufLen b, bufLen := a.bufLen + 1, len := a.len + 1 }
    if a.cfg.vid ≠ 0x30 ∧ a.bufLen + 1 = a.cfg.block.toNat then
      feedBytes { stored with
        engine := a.engine.absorb a.cfg (a.len + 1) (Memory.bytes stored.buf 0 a.cfg.block.toNat)
        buf := [], bufLen := 0 } d
    else feedBytes stored d) ∧
  ∀ (c : Cfg) (len : U64) (d : List Byte),
    (∀ (a : KeccakLanes) (mode : Mode), (Engine.keccak a mode).absorb c len d =
      .keccak (Keccak.absorb c.rounds.toNat c.block.toNat d a) mode) ∧
    (∀ (x : XoodooLanes) (mode : Mode), (Engine.xoodoo x mode).absorb c len d =
      .xoodoo (Xoodoo.down c.rounds.toNat d (decide (len = 16)) x) mode) ∧
    (∀ h : Chaining, (Engine.rmd h).absorb c len d = .rmd (Ripemd.compress d h)) ∧
    (∀ v : Vector U32 4, ∃ w : Vector U32 4, (Engine.xxh32 v).absorb c len d = .xxh32 w ∧
      ∀ i : Fin 4, w[i] = Mix.xxh32Round v[i] (pack32le (d.getD (4 * i) 0) (d.getD (4 * i + 1) 0)
        (d.getD (4 * i + 2) 0) (d.getD (4 * i + 3) 0))) ∧
    ∀ v : Vector U64 4, ∃ w : Vector U64 4, (Engine.xxh64 v).absorb c len d = .xxh64 w ∧
      ∀ i : Fin 4, w[i] = Mix.xxh64Round v[i] (pack64le (d.getD (8 * i) 0) (d.getD (8 * i + 1) 0)
        (d.getD (8 * i + 2) 0) (d.getD (8 * i + 3) 0) (d.getD (8 * i + 4) 0) (d.getD (8 * i + 5) 0)
        (d.getD (8 * i + 6) 0) (d.getD (8 * i + 7) 0))

/-- The frame of a `FEED` that completes no block (R203, R37, R19): its bytes stand at the consecutive offsets from
`BUFLEN`, every other byte of the buffer is unchanged, `BUFLEN` and `LEN` count them, the state array and `CFG` are
unchanged. For `CITY64` that is every `FEED` within the capacity. -/
def Obligations.FeedBelowTheBlockOnlyAppends : Prop :=
  ∀ (s : State) (a : Inst) (n : BitVec 24) (p : List U32), Ready s a → (Instr.feed n p).wf = true →
    (if a.cfg.vid = 0x30 then a.bufLen + n.toNat ≤ s.params.mixBufCap.toNat
      else a.bufLen + n.toNat < a.cfg.block.toNat) →
    ∃ j : Inst, exec (.feed n p) s = .next (s.answered ⟨true, .noFault⟩ (some j) [0x00000000]) ∧
      j.cfg = a.cfg ∧ j.engine = a.engine ∧ j.bufLen = a.bufLen + n.toNat ∧ j.len = a.len + n.setWidth 64 ∧
      ∀ x, Memory.read j.buf x =
        if a.bufLen ≤ x ∧ x < a.bufLen + n.toNat then (feedData n p).getD (x - a.bufLen) 0 else Memory.read a.buf x

/-- A `FEED` whose last byte completes the block has the block absorbed with that byte and leaves an empty buffer (R203,
R204). -/
def Obligations.FeedAbsorbsTheCompletedBlock : Prop :=
  ∀ (s : State) (a : Inst) (n : BitVec 24) (p : List U32), Ready s a → (Instr.feed n p).wf = true →
    a.cfg.vid ≠ 0x30 → a.bufLen + n.toNat = a.cfg.block.toNat →
    exec (.feed n p) s = .next (s.answered ⟨true, .noFault⟩ (some
      ⟨a.cfg, a.engine.absorb a.cfg (a.len + n.setWidth 64) (a.pending ++ feedData n p), [], 0, a.len + n.setWidth 64⟩)
      [0x00000000])

/-- A zero-length `FEED`, the pseudo-instruction `NOP`, changes nothing and answers `OK` (R203, R67). -/
def Obligations.NopChangesNothing : Prop :=
  AsmLine.nop.expand = [.feed 0 []] ∧
  ∀ (s : State) (a : Inst), Ready s a →
    execAll AsmLine.nop.expand s = .next (s.answered s.status (some a) [0x00000000])

/-! ### RESULT and RESET -/

/-- R205, every path of `RESULT`: the stored fault, the missing binding, and otherwise `OK` with exactly `CFG.OUTLEN`
bytes, the digest of the pending message (`finalize`, then `extractOutput`), and the instance reset; nothing else
changes. -/
def Obligations.ResultFollowsItsRule : Prop :=
  ∀ s : State,
    (s.status.fault ≠ .noFault →
      exec .result s = .next (s.answered s.status s.inst [statusWord s.status.fault 0])) ∧
    (s.status.fault = .noFault → s.status.bound = false →
      exec .result s = .next (s.answered ⟨false, .protocolError⟩ s.inst [0x03000000])) ∧
    ∀ a : Inst, Ready s a →
      let out := (extractOutput s.params (finalize a).1 (finalize a).2).1
      out.length = a.cfg.outlen.toNat ∧
      exec .result s = .next (s.answered ⟨true, .noFault⟩ (some (initState a))
        (statusWord .noFault (a.cfg.outlen.setWidth 24) :: packWords out))

/-- The property of R211, which the spec marks as its own inference from R202 and R205 to R207: the states after a
successful `RESULT`, after `RESET` and after `CONSTRUCT` of the same variant and output length agree in every field of
the instance and in `STATUS`, whatever message was in progress. -/
def Obligations.ReuseAfterReset : Prop :=
  ∀ (s : State) (a : Inst) (v : Variant) (outreq outlen : BitVec 16), Ready s a → v ∈ s.params.variants →
    effectiveOutLen (v.row s.params) outreq = some outlen → a.cfg = cfgOf s.params v outlen →
    ∃ t1 t2 t3, exec .result s = .next t1 ∧ exec .reset s = .next t2 ∧
      exec (Variant.construct outreq v) s = .next t3 ∧
      t1.inst = t3.inst ∧ t2.inst = t3.inst ∧ t1.status = t3.status ∧ t2.status = t3.status ∧
      t3.inst = some (Inst.fresh a.cfg)

/-- R206, every path of `RESET`: the stored fault, the missing binding, and otherwise the message is abandoned and the
binding kept. -/
def Obligations.ResetFollowsItsRule : Prop :=
  ∀ s : State,
    (s.status.fault ≠ .noFault →
      exec .reset s = .next (s.answered s.status s.inst [statusWord s.status.fault 0])) ∧
    (s.status.fault = .noFault → s.status.bound = false →
      exec .reset s = .next (s.answered ⟨false, .protocolError⟩ s.inst [0x03000000])) ∧
    ∀ a : Inst, Ready s a →
      exec .reset s = .next (s.answered ⟨true, .noFault⟩ (some ⟨a.cfg, Engine.fresh a.cfg, [], 0, 0⟩) [0x00000000])

/-- R61: every command gives one response; `ST` is the fault code after it, `RN` the number of data bytes, the data
bytes are packed low byte first with zeros in the unused bytes; only a successful `RESULT` carries data, `CFG.OUTLEN`
bytes. -/
def Obligations.ResponseFormat : Prop :=
  ([FaultCode.noFault, .configurationError, .invariantViolation, .protocolError, .capacityExceeded].map FaultCode.st =
    [0x00, 0x01, 0x02, 0x03, 0x04]) ∧
  ∀ (i : Instr) (s : State), StateInv s → ∃ (t : State) (w : U32) (ws : List U32) (data : List Byte),
    exec i s = .next t ∧ t.responses = s.responses ++ w :: ws ∧
    w.extractLsb' 24 8 = t.status.fault.st ∧ (w.extractLsb' 0 24).toNat = data.length ∧
    ws.length = (data.length + 3) / 4 ∧
    (∀ k, k < 4 * ws.length → ∃ x, ws[k / 4]? = some x ∧ x.extractLsb' (8 * (k % 4)) 8 = data.getD k 0) ∧
    (i = .result → t.status.fault = .noFault → ∃ a, s.inst = some a ∧ data.length = a.cfg.outlen.toNat) ∧
    (¬ (i = .result ∧ t.status.fault = .noFault) → data = [])

/-- The frame common to all commands: the parameters, the input and `cpc` are the step's business; `CFG` and `BOUND` are
written by `CONSTRUCT` alone (R11, R12, R24). -/
def Obligations.FrameOfEveryCommand : Prop :=
  ∀ (i : Instr) (s t : State), exec i s = .next t →
    t.params = s.params ∧ t.input = s.input ∧ t.cpc = s.cpc ∧
    (∃ w ws, t.responses = s.responses ++ w :: ws) ∧
    (i.isConstruct = false → t.status.bound = s.status.bound ∧ t.inst.map Inst.cfg = s.inst.map Inst.cfg)

/-! ### Whole-machine properties -/

/-- A state after hardware reset satisfies the invariant, and `State.reset` is one. -/
def Obligations.InvariantHoldsAfterReset : Prop :=
  (∀ s : State, Initial s → StateInv s) ∧ Initial State.reset

/-- Every step keeps the invariant of R25: canonical buffer, zeros beyond `BUFLEN`, `BUFLEN` below the block or the
store, `MODE` absorbing, the state array of the bound kind, no recorded `InvariantViolation`. -/
def Obligations.StepKeepsTheInvariant : Prop :=
  ∀ s t : State, StateInv s → step s = .next t → StateInv t

/-- R232: from a hardware reset no run reaches a buffer longer than the block, a state array that is not the bound
kind's, or `STATUS.FAULT = 2`; a command that did report it, from a state no run reaches, would behave as R233 says.
-/
def Obligations.InvariantViolationIsUnreachable : Prop :=
  (∀ s0 s : State, Initial s0 → Reachable s0 s →
    s.status.fault ≠ .invariantViolation ∧
    ∀ a, s.inst = some a → a.bufLen ≤ a.cfg.block.toNat ∧ a.engine.agrees a.cfg = true) ∧
  ∀ (i : Instr) (s t : State), s.status.fault = .noFault → exec i s = .next t →
    t.status.fault = .invariantViolation →
    t = s.answered ⟨s.status.bound, .invariantViolation⟩ s.inst [0x02000000]

/-- Every step keeps `Carries` (the five clauses of R25, which the spec marks as its own inference): the message an
instance holds is exactly the bytes fed since the last `CONSTRUCT`, `RESULT` or `RESET`; a `FEED` that succeeds
appends its data bytes, a command answered with a fault leaves it. Which of a command and an `RST` behind it comes first
is the model's choice (log entry 6). -/
def Obligations.StepKeepsTheMessage : Prop :=
  ∀ (s t : State) (m : List Byte), Carries s m → step s = .next t → Carries t (stepMessage s t m)

/-- R25, over runs: from a hardware reset every reachable state carries the bytes fed since its message began, and every
reachable state is the end of such a run. -/
def Obligations.InstanceHoldsItsMessage : Prop :=
  ∀ s0 : State, Initial s0 →
    (∀ (s : State) (m : List Byte) (a : Inst), Run s0 s m → s.inst = some a → HoldsMessage s.params a m) ∧
    ∀ s : State, Reachable s0 s → ∃ m, Run s0 s m

/-- The property of R209, which the spec marks as its own inference: feeding a message in any chunks and asking for
the result gives the same digest, and leaves the same instance, as feeding it whole; for `CITY64` beyond the capacity
both sides fault. -/
def Obligations.StreamingEquivalence : Prop :=
  ∀ (s : State) (a : Inst) (chunks : List (BitVec 24 × List U32)) (n : BitVec 24) (p : List U32), Ready s a →
    (∀ c ∈ chunks, (Instr.feed c.1 c.2).wf = true) → (Instr.feed n p).wf = true →
    chunks.flatMap (fun c => feedData c.1 c.2) = feedData n p →
    ∃ b c : State, execAll (chunks.map (fun c => Instr.feed c.1 c.2) ++ [.result]) s = .next b ∧
      execAll [.feed n p, .result] s = .next c ∧
      ((a.cfg.vid = 0x30 → a.bufLen + n.toNat ≤ s.params.mixBufCap.toNat) →
        b.inst = c.inst ∧ b.status = c.status ∧ c.status = ⟨true, .noFault⟩ ∧
        ∃ r, b.responses = s.responses ++ List.replicate chunks.length 0x00000000 ++ r ∧
          c.responses = s.responses ++ [0x00000000] ++ r) ∧
      (a.cfg.vid = 0x30 → s.params.mixBufCap.toNat < a.bufLen + n.toNat →
        b.status.fault = .capacityExceeded ∧ c.status.fault = .capacityExceeded)

/-- The expansion of `HASH` (R67) run on an instance that accepts commands answers with the digest of the data: the
response to the last command carries it. How the `FEED` of long data is split, on which the number of responses depends,
is the model's choice (log entry 14). -/
def Obligations.HashAnswersTheDigest : Prop :=
  ∀ (s : State) (v : Variant) (outreq outlen : BitVec 16) (data : List Byte), StateInv s →
    s.status.fault = .noFault → v ∈ s.params.variants → effectiveOutLen (v.row s.params) outreq = some outlen →
    (v = .city64 → data.length ≤ s.params.mixBufCap.toNat) →
    ∃ (t : State) (k : Nat), execAll (AsmLine.hash v outreq data).expand s = .next t ∧
      t.status = ⟨true, .noFault⟩ ∧ t.inst = some (Inst.fresh (cfgOf s.params v outlen)) ∧
      t.responses = s.responses ++ List.replicate k 0x00000000 ++
        responseWords .noFault (digest s.params (feedBytes (Inst.fresh (cfgOf s.params v outlen)) data))

/-- A command of one instance is its own step and leaves every other instance as it was (R10); the hardware reset that one
instance meets is delivered to the whole block (R250). Where `RST` stands in an input, and that which instance moves is an
argument, are the model's choices (log entries 6 and 10). -/
def Obligations.InstancesAreIndependent : Prop :=
  ∀ (b : Block) (k : Fin b.insts.length),
    (∀ i words, fetch b.insts[k].input = .command i words →
      ∃ b' t, b.stepAt k = .next b' ∧ step b.insts[k] = .next t ∧ b'.insts[k.val]? = some t ∧
        b'.insts.length = b.insts.length ∧ ∀ j, j ≠ k.val → b'.insts[j]? = b.insts[j]?) ∧
    (∀ fresh, fetch b.insts[k].input = .rst fresh → b.stepAt k = .next b.rst ∧
      ∃ t, step b.insts[k] = .next t ∧ b.rst.insts[k.val]? = some t) ∧
    ∀ f, fetch b.insts[k].input = .stuck f → b.stepAt k = .fault f

/-! ### The engines -/

/-- The formula of R115, which the spec marks as its own inference, for the digest under a `KECCAK` variant: pad to a
multiple of the rate, absorb every block from the zero state, squeeze. -/
def Obligations.KeccakDigestFormula : Prop :=
  ∀ (p : Params) (v : Variant) (outlen : BitVec 16) (m : List Byte), (v.row p).kind = .keccak →
    let block := (v.row p).block.toNat
    let padded := m ++ keccakPad block (v.row p).ds m.length
    padded.length = block * (m.length / block + 1) ∧
    digest p (feedBytes (Inst.fresh (cfgOf p v outlen)) m) =
      (Keccak.squeeze 24 block outlen.toNat outlen.toNat
        ((List.range (m.length / block + 1)).foldl
          (fun a k => Keccak.absorb 24 block (blockOf block padded k) a) (Vector.replicate 25 0))).1

/-- The formula of R137 for `XOODYAK`, which the spec marks as its own inference: blocks of 16 bytes, the last
possibly shorter, one empty block for the empty message, the colour on block 0 only, then the squeeze. (A message of
2^64 bytes or more wraps `LEN`, R259.) -/
def Obligations.XoodyakDigestFormula : Prop :=
  ∀ (p : Params) (outlen : BitVec 16) (m : List Byte), m.length < 2 ^ 64 →
    digest p (feedBytes (Inst.fresh (cfgOf p .xoodyak outlen)) m) =
      (Xoodoo.squeeze 12 outlen.toNat outlen.toNat
        ((List.range (xoodyakBlocks m)).foldl
          (fun x k => Xoodoo.down 12 (blockOf 16 m k) (k == 0) x) (Vector.replicate 12 0))).1

/-- `RIPEMD256` as Merkle-Damgard iteration over the padded message (R155 to R157): 0x80, zeros and the 64-bit bit
length. -/
def Obligations.RipemdDigestFormula : Prop :=
  ∀ (p : Params) (outlen : BitVec 16) (m : List Byte),
    let padded := m ++ ripemdPad m.length
    padded.length % 64 = 0 ∧
    digest p (feedBytes (Inst.fresh (cfgOf p .ripemd256 outlen)) m) =
      stBytes32 ((List.range (padded.length / 64)).foldl
        (fun h k => Ripemd.compress (blockOf 64 padded k) h) Ripemd.iv)

/-- R193: the digest of a `MIX` instance is its number written in `CFG.OUTLEN` bytes (8, 4, 8) in the order
`MIX_OUT_ORDER` names, by default most significant byte first. -/
def Obligations.MixDigestBytes : Prop :=
  ∀ (p : Params) (a : Inst), InstInv p a → a.cfg.kind = .mix →
    ∃ (w : Nat) (h : U64), a.cfg.outlen.toNat = w ∧
      (a.cfg.vid = 0x30 → w = 8 ∧ h = Mix.city64 a.buf a.bufLen) ∧
      (a.cfg.vid = 0x31 → w = 4 ∧ ∃ v, a.engine = .xxh32 v ∧
        h = (Mix.xxh32Finalize v a.buf a.bufLen a.len).setWidth 64) ∧
      (a.cfg.vid = 0x32 → w = 8 ∧ ∃ v, a.engine = .xxh64 v ∧ h = Mix.xxh64Finalize v a.buf a.bufLen a.len) ∧
      (digest p a).length = w ∧
      ∀ k, k < w → (digest p a)[k]? = some (h.extractLsb'
        (8 * (if p.mixOutOrder = .mostFirst then w - 1 - k else k)) 8)

/-- The `CITY64` rows of R165 with what each branch computes, R168 to R178: every length has exactly one branch; 16
belongs to the branch of 8 to 16 (conflict C4). The constants are those of R166. -/
def Obligations.CityBranches : Prop :=
  (∀ v : U64, Mix.shiftMix v = v ^^^ (v >>> 47)) ∧
  (∀ u v k : U64, Mix.hashLen16M u v k =
    let a := ((u ^^^ v) * k) ^^^ (((u ^^^ v) * k) >>> 47)
    let b := ((v ^^^ a) * k) ^^^ (((v ^^^ a) * k) >>> 47)
    b * k) ∧
  (∀ u v : U64, Mix.hashLen16 u v = Mix.hashLen16M u v 0x9DDFEA08EB382D69) ∧
  (∀ w x y z a b : U64, Mix.weakMix w x y z a b =
    (a + w + x + y + z, rotr64 (b + (a + w) + z) 21 + rotr64 (a + w + x + y) 44 + (a + w))) ∧
  ∀ (m : Memory) (n : Nat),
    let k0 : U64 := 0xC3A5C85C97CB3127
    let k1 : U64 := 0xB492B66FBE98F273
    let k2 : U64 := 0x9AE16A3B2F90404F
    let len : U64 := BitVec.ofNat 64 n
    let mul : U64 := k2 + 2 * len
    let f32 := fun i => (memRead4 m i).setWidth 64
    let f64 := fun i => memRead8 m i
    let weakAt := fun (i : Nat) (a b : U64) => Mix.weakMix (f64 i) (f64 (i + 8)) (f64 (i + 16)) (f64 (i + 24)) a b
    (n = 0 → Mix.city64 m n = k2) ∧
    (1 ≤ n → n ≤ 3 → Mix.city64 m n =
      let y : U32 := (memRead1 m 0).setWidth 32 + ((memRead1 m (n / 2)).setWidth 32 <<< 8)
      let z : U32 := BitVec.ofNat 32 n + ((memRead1 m (n - 1)).setWidth 32 <<< 2)
      Mix.shiftMix ((y.setWidth 64 * k2) ^^^ (z.setWidth 64 * k0)) * k2) ∧
    (4 ≤ n → n ≤ 7 → Mix.city64 m n = Mix.hashLen16M (len + (f32 0 <<< 3)) (f32 (n - 4)) mul) ∧
    (8 ≤ n → n ≤ 16 → Mix.city64 m n =
      let a := f64 0 + k2
      let b := f64 (n - 8)
      Mix.hashLen16M (rotr64 b 37 * mul + a) ((rotr64 a 25 + b) * mul) mul) ∧
    (17 ≤ n → n ≤ 32 → Mix.city64 m n =
      let a := f64 0 * k1
      let b := f64 8
      let c := f64 (n - 8) * mul
      let d := f64 (n - 16) * k2
      Mix.hashLen16M (rotr64 (a + b) 43 + rotr64 c 30 + d) (a + rotr64 (b + k2) 18 + c) mul) ∧
    (33 ≤ n → n ≤ 64 → Mix.city64 m n =
      let a := f64 0 * k2
      let b := f64 8
      let c := f64 (n - 24)
      let d := f64 (n - 32)
      let e := f64 16 * k2
      let f := f64 24 * 9
      let g := f64 (n - 8)
      let h := f64 (n - 16) * mul
      let u := rotr64 (a + g) 43 + (rotr64 b 30 + c) * 9
      let v := ((a + g) ^^^ d) + f + 1
      let w := bswap64 ((u + v) * mul) + h
      let x := rotr64 (e + f) 42 + c
      let y := (bswap64 ((v + w) * mul) + g) * mul
      let z := e + f + c
      Mix.shiftMix ((z + (bswap64 ((x + z) * mul + y) + b)) * mul + d + h) * mul + x) ∧
    (65 ≤ n → Mix.city64 m n =
      let x0 := f64 (n - 40)
      let y0 := f64 (n - 16) + f64 (n - 56)
      let z0 := Mix.hashLen16 (f64 (n - 48) + len) (f64 (n - 24))
      let pass := fun ((x, y, z, v, w, p) : U64 × U64 × U64 × (U64 × U64) × (U64 × U64) × Nat) =>
        let x := (rotr64 (x + y + v.1 + f64 (p + 8)) 37 * k1) ^^^ w.2
        let y := rotr64 (y + v.2 + f64 (p + 48)) 42 * k1 + v.1 + f64 (p + 40)
        let z := rotr64 (z + w.1) 33 * k1
        (z, y, x, weakAt p (v.2 * k1) (x + w.1), weakAt (p + 32) (z + w.2) (y + f64 (p + 16)), p + 64)
      let (x, y, z, v, w, _) := pass^[(n - 1) / 64]
        (x0 * k1 + f64 0, y0, z0, weakAt (n - 64) len z0, weakAt (n - 32) (y0 + k1) x0, 0)
      Mix.hashLen16 (Mix.hashLen16 v.1 w.1 + Mix.shiftMix y * k1 + z) (Mix.hashLen16 v.2 w.2 + x))

/-- R181 and R183 to R185: the round, the stripe, the avalanche and `XXH32_FINALIZE` as the rules write them, with the
primes of R180. -/
def Obligations.Xxh32Formulas : Prop :=
  let p1 : U32 := 0x9E3779B1
  let p2 : U32 := 0x85EBCA77
  let p3 : U32 := 0xC2B2AE3D
  let p4 : U32 := 0x27D4EB2F
  let p5 : U32 := 0x165667B1
  (∀ acc w : U32, Mix.xxh32Round acc w = rotl32 (acc + w * p2) 13 * p1) ∧
  (∀ (d : List Byte) (v : Vector U32 4) (i : Fin 4),
    (Mix.xxh32Stripe d v)[i] = Mix.xxh32Round v[i] (pack32le (d.getD (4 * i) 0) (d.getD (4 * i + 1) 0)
      (d.getD (4 * i + 2) 0) (d.getD (4 * i + 3) 0))) ∧
  (∀ h : U32, Mix.xxh32Avalanche h =
    let h1 := (h ^^^ (h >>> 15)) * p2
    let h2 := (h1 ^^^ (h1 >>> 13)) * p3
    h2 ^^^ (h2 >>> 16)) ∧
  ∀ (v : Vector U32 4) (m : Memory) (bufLen : Nat) (len : U64), Mix.xxh32Finalize v m bufLen len =
    let start := (if 16 ≤ len.toNat then rotl32 v[0] 1 + rotl32 v[1] 7 + rotl32 v[2] 12 + rotl32 v[3] 18 else p5) +
      BitVec.ofNat 32 len.toNat
    let words := whileBelow 4 bufLen (fun h i => rotl32 (h + memRead4 m i * p3) 17 * p4) bufLen (start, 0)
    let bytes := whileBelow 1 bufLen (fun h i => rotl32 (h + (memRead1 m i).setWidth 32 * p5) 11 * p1) bufLen words
    Mix.xxh32Avalanche bytes.1

/-- R187, R188 and R190 to R192: the round, the merge, the stripe, the avalanche and `XXH64_FINALIZE` as the rules write
them, with the primes of R186. -/
def Obligations.Xxh64Formulas : Prop :=
  let q1 : U64 := 0x9E3779B185EBCA87
  let q2 : U64 := 0xC2B2AE3D27D4EB4F
  let q3 : U64 := 0x165667B19E3779F9
  let q4 : U64 := 0x85EBCA77C2B2AE63
  let q5 : U64 := 0x27D4EB2F165667C5
  (∀ acc w : U64, Mix.xxh64Round acc w = rotl64 (acc + w * q2) 31 * q1) ∧
  (∀ h v : U64, Mix.xxh64Merge h v = (h ^^^ Mix.xxh64Round 0 v) * q1 + q4) ∧
  (∀ (d : List Byte) (v : Vector U64 4) (i : Fin 4),
    (Mix.xxh64Stripe d v)[i] = Mix.xxh64Round v[i] (pack64le (d.getD (8 * i) 0) (d.getD (8 * i + 1) 0)
      (d.getD (8 * i + 2) 0) (d.getD (8 * i + 3) 0) (d.getD (8 * i + 4) 0) (d.getD (8 * i + 5) 0)
      (d.getD (8 * i + 6) 0) (d.getD (8 * i + 7) 0))) ∧
  (∀ h : U64, Mix.xxh64Avalanche h =
    let h1 := (h ^^^ (h >>> 33)) * q2
    let h2 := (h1 ^^^ (h1 >>> 29)) * q3
    h2 ^^^ (h2 >>> 32)) ∧
  ∀ (v : Vector U64 4) (m : Memory) (bufLen : Nat) (len : U64), Mix.xxh64Finalize v m bufLen len =
    let start := (if 32 ≤ len.toNat then
        [v[0], v[1], v[2], v[3]].foldl Mix.xxh64Merge (rotl64 v[0] 1 + rotl64 v[1] 7 + rotl64 v[2] 12 + rotl64 v[3] 18)
      else q5) + len
    let longs := whileBelow 8 bufLen (fun h i => rotl64 (h ^^^ Mix.xxh64Round 0 (memRead8 m i)) 27 * q1 + q4) bufLen
      (start, 0)
    let word := whileBelow 4 bufLen (fun h i => rotl64 (h ^^^ ((memRead4 m i).setWidth 64 * q1)) 23 * q2 + q3) 1 longs
    let bytes := whileBelow 1 bufLen (fun h i => rotl64 (h ^^^ ((memRead1 m i).setWidth 64 * q5)) 11 * q1) bufLen word
    Mix.xxh64Avalanche bytes.1

/-- R113 and R136 byte by byte: output byte `k` is byte `k mod BLOCK` of the state after `k / BLOCK` further permutations
(for `XOODYAK`, absorptions of the empty block); nothing is permuted after the last output block. -/
def Obligations.SqueezedBytes : Prop :=
  (∀ (rounds block outlen : Nat) (a : KeccakLanes), 0 < block → block ≤ 200 → 0 < outlen →
    let out := Keccak.squeeze rounds block outlen outlen a
    out.1.length = outlen ∧ out.2 = (Keccak.permute rounds)^[(outlen - 1) / block] a ∧
    ∀ k, k < outlen → out.1[k]? = (stBytes64 ((Keccak.permute rounds)^[k / block] a))[k % block]?) ∧
  ∀ (rounds outlen : Nat) (x : XoodooLanes), 0 < outlen →
    let out := Xoodoo.squeeze rounds outlen outlen x
    out.1.length = outlen ∧ out.2 = (Xoodoo.down rounds [] false)^[(outlen - 1) / 16] x ∧
    ∀ k, k < outlen → out.1[k]? = (stBytes32 ((Xoodoo.down rounds [] false)^[k / 16] x))[k % 16]?

/-- An output of `n` bytes is a prefix of the output of `n + k` bytes from the same state (R113, R136). -/
def Obligations.ShorterOutputIsAPrefix : Prop :=
  (∀ (rounds block n k : Nat) (a : KeccakLanes), 0 < block → block ≤ 200 →
    (Keccak.squeeze rounds block n n a).1 = ((Keccak.squeeze rounds block (n + k) (n + k) a).1).take n) ∧
  ∀ (rounds n k : Nat) (x : XoodooLanes),
    (Xoodoo.squeeze rounds n n x).1 = ((Xoodoo.squeeze rounds (n + k) (n + k) x).1).take n

/-- The Keccak permutation is a bijection on the states (the sentence of R110), for every number of rounds. -/
def Obligations.KeccakPermutationIsBijective : Prop :=
  ∀ rounds : Nat, Function.Bijective (Keccak.permute rounds)

/-- The five steps of a Keccak round lane by lane, the round, the permutation and the absorption of a block, as R104
to R111 write them. -/
def Obligations.KeccakStepFormulas : Prop :=
  ∀ (a : KeccakLanes) (r : Fin 24),
    (∀ i : Fin 25, (Keccak.theta a)[i] =
      let c := fun x : Nat => a[Keccak.lane x 0] ^^^ a[Keccak.lane x 1] ^^^ a[Keccak.lane x 2] ^^^ a[Keccak.lane x 3] ^^^
        a[Keccak.lane x 4]
      a[i] ^^^ (c (i.val + 4) ^^^ rotl64 (c (i.val + 1)) 1)) ∧
    (∀ x y : Nat, x < 5 → y < 5 →
      (Keccak.rho a)[Keccak.lane x y] = rotl64 a[Keccak.lane x y] (Keccak.rhoOffset x y) ∧
      (Keccak.pi a)[Keccak.lane y (2 * x + 3 * y)] = a[Keccak.lane x y]) ∧
    (∀ x y : Nat, x < 5 → y < 5 → (Keccak.chi a)[Keccak.lane x y] =
      a[Keccak.lane x y] ^^^ (~~~ a[Keccak.lane (x + 1) y] &&& a[Keccak.lane (x + 2) y])) ∧
    (∀ i : Fin 25, (Keccak.iota a r)[i] = if i = 0 then a[i] ^^^ Keccak.rc r else a[i]) ∧
    Keccak.round a r = Keccak.iota (Keccak.chi (Keccak.pi (Keccak.rho (Keccak.theta a)))) r ∧
    Keccak.permute 0 a = a ∧ Keccak.permute (24 - r.val) a = Keccak.permute (23 - r.val) (Keccak.round a r) ∧
    ∀ (rounds block : Nat) (d : List Byte), ∃ w : KeccakLanes, Keccak.absorb rounds block d a = Keccak.permute rounds w ∧
      ∀ i : Fin 25, w[i] = if i.val < block / 8 then a[i] ^^^ word64At d (8 * i.val) else a[i]

/-- The five steps of a Xoodoo round plane by plane, the round, the permutation and `XOODYAK_DOWN` byte by byte, as
R127 to R134 write them. -/
def Obligations.XoodooStepFormulas : Prop :=
  (∀ (a : XoodooLanes) (r : Fin 12),
    Xoodoo.round a r = Xoodoo.rhoEast (Xoodoo.chi (Xoodoo.iota (Xoodoo.rhoWest (Xoodoo.theta a)) r)) ∧
    Xoodoo.permute 0 a = a ∧ Xoodoo.permute (12 - r.val) a = Xoodoo.permute (11 - r.val) (Xoodoo.round a r)) ∧
  (∀ (a : XoodooLanes) (rounds : Nat) (d : List Byte) (first : Bool), d.length ≤ 16 →
    ∃ w : XoodooLanes, Xoodoo.down rounds d first a = Xoodoo.permute rounds w ∧
      ∀ k, k < 48 → ∃ b, (stBytes32 a)[k]? = some b ∧ (stBytes32 w)[k]? = some
        (b ^^^ (if k < d.length then d.getD k 0 else if k = d.length then 0x01 else 0x00) ^^^
          (if first = true ∧ k = 47 then 0x01 else 0x00))) ∧
  ∀ (a : XoodooLanes) (r : Fin 12) (x : Nat), x < 4 →
    (∀ y, y < 3 → (Xoodoo.theta a)[Xoodoo.lane x y] =
      let p := a[Xoodoo.lane (x + 3) 0] ^^^ a[Xoodoo.lane (x + 3) 1] ^^^ a[Xoodoo.lane (x + 3) 2]
      a[Xoodoo.lane x y] ^^^ (rotl32 p 5 ^^^ rotl32 p 14)) ∧
    ((Xoodoo.rhoWest a)[Xoodoo.lane x 0] = a[Xoodoo.lane x 0] ∧
      (Xoodoo.rhoWest a)[Xoodoo.lane x 1] = a[Xoodoo.lane (x + 3) 1] ∧
      (Xoodoo.rhoWest a)[Xoodoo.lane x 2] = rotl32 a[Xoodoo.lane x 2] 11) ∧
    (∀ y, y < 3 → (Xoodoo.iota a r)[Xoodoo.lane x y] =
      if x = 0 ∧ y = 0 then a[Xoodoo.lane x y] ^^^ Xoodoo.rc[r] else a[Xoodoo.lane x y]) ∧
    ((Xoodoo.chi a)[Xoodoo.lane x 0] = a[Xoodoo.lane x 0] ^^^ (~~~ a[Xoodoo.lane x 1] &&& a[Xoodoo.lane x 2]) ∧
      (Xoodoo.chi a)[Xoodoo.lane x 1] = a[Xoodoo.lane x 1] ^^^ (~~~ a[Xoodoo.lane x 2] &&& a[Xoodoo.lane x 0]) ∧
      (Xoodoo.chi a)[Xoodoo.lane x 2] = a[Xoodoo.lane x 2] ^^^ (~~~ a[Xoodoo.lane x 0] &&& a[Xoodoo.lane x 1])) ∧
    ((Xoodoo.rhoEast a)[Xoodoo.lane x 0] = a[Xoodoo.lane x 0] ∧
      (Xoodoo.rhoEast a)[Xoodoo.lane x 1] = rotl32 a[Xoodoo.lane x 1] 1 ∧
      (Xoodoo.rhoEast a)[Xoodoo.lane x 2] = rotl32 a[Xoodoo.lane (x + 2) 2] 8)

/-- The selector functions of R149 act bit by bit with its truth tables, the index being 4x + 2y + z. -/
def Obligations.SelectorTruthTables : Prop :=
  ∀ (sel : Fin 4) (x y z : U32) (j : Nat), j < 32 →
    let table : List (List Bool) :=
      [[false, true, true, false, true, false, false, true],
       [false, true, false, true, false, false, true, true],
       [true, false, false, true, true, false, true, false],
       [false, false, true, false, false, true, true, true]]
    let index := 4 * (x.getLsbD j).toNat + 2 * (y.getLsbD j).toNat + (z.getLsbD j).toNat
    (Ripemd.select sel x y z).getLsbD j = ((table.getD sel.val []).getD index false)

/-- `RMD_COMPRESS`, R149 to R155: the message words, the left and the right step, sixteen steps of both lines to a
quartile, the exchange of `a`, `b` and `c` after the first three, and the final addition, in which `H[3]` takes `d'`
and `H[7]` takes `d`. -/
def Obligations.RipemdCompressFormula : Prop :=
  (∀ x y z : U32, Ripemd.select 0 x y z = x ^^^ y ^^^ z ∧ Ripemd.select 1 x y z = (x &&& y) ||| (~~~x &&& z) ∧
    Ripemd.select 2 x y z = (x ||| ~~~y) ^^^ z ∧ Ripemd.select 3 x y z = (x &&& z) ||| (y &&& ~~~z)) ∧
  (∀ (w : Vector U32 16) (q : Fin 4) (i : Fin 16) (l : Ripemd.Line),
    let j : Fin 64 := ⟨16 * q.val + i.val, by omega⟩
    Ripemd.leftStep w j l = ⟨l.d, rotl32 (l.a + Ripemd.select q l.b l.c l.d + w[Ripemd.r[j]] + Ripemd.k[q]) Ripemd.s[j],
      l.b, l.c⟩ ∧
    Ripemd.rightStep w j l = ⟨l.d, rotl32 (l.a + Ripemd.select (3 - q) l.b l.c l.d + w[Ripemd.rp[j]] + Ripemd.kp[q])
      Ripemd.sp[j], l.b, l.c⟩) ∧
  ∀ (d : List Byte) (h : Chaining),
    let w : Vector U32 16 := Vector.ofFn fun i => pack32le (d.getD (4 * i) 0) (d.getD (4 * i + 1) 0)
      (d.getD (4 * i + 2) 0) (d.getD (4 * i + 3) 0)
    let both := fun (q : Fin 4) (p : Ripemd.Line × Ripemd.Line) (i : Fin 16) =>
      (Ripemd.leftStep w ⟨16 * q.val + i.val, by omega⟩ p.1, Ripemd.rightStep w ⟨16 * q.val + i.val, by omega⟩ p.2)
    let quartile := fun (q : Fin 4) (p : Ripemd.Line × Ripemd.Line) => (List.finRange 16).foldl (both q) p
    let e := quartile 0 (⟨h[0], h[1], h[2], h[3]⟩, ⟨h[4], h[5], h[6], h[7]⟩)
    let f := quartile 1 (⟨e.2.a, e.1.b, e.1.c, e.1.d⟩, ⟨e.1.a, e.2.b, e.2.c, e.2.d⟩)
    let g := quartile 2 (⟨f.1.a, f.2.b, f.1.c, f.1.d⟩, ⟨f.2.a, f.1.b, f.2.c, f.2.d⟩)
    let z := quartile 3 (⟨g.1.a, g.1.b, g.2.c, g.1.d⟩, ⟨g.2.a, g.2.b, g.1.c, g.2.d⟩)
    Ripemd.compress d h = #v[h[0] + z.1.a, h[1] + z.1.b, h[2] + z.1.c, h[3] + z.2.d,
      h[4] + z.2.a, h[5] + z.2.b, h[6] + z.2.c, h[7] + z.1.d]

/-- The final block of a one-block `RIPEMD256` finalization is the buffer with the pad byte appended and the length
field stored by `MemWrite` at offset 56 (R38, R156). -/
def Obligations.LengthFieldByMemWrite : Prop :=
  ∀ (p : Params) (a : Inst), InstInv p a → a.bufLen ≤ 55 →
    Memory.bytes (memWrite (Memory.write a.buf a.bufLen 0x80) 56 8 (shl a.len 3)) 0 64 =
      a.pending ++ [0x80] ++ zeros (55 - a.bufLen) ++ unpack64le (shl a.len 3)

/-! ### The word primitives -/

/-- `UNPACK32LE` (R77; the inverse laws are the spec's own inference there) takes byte `i` from bits 8i+7 to 8i and is
the inverse of `PACK32LE` in both directions. -/
def Obligations.UnpackInvertsPack : Prop :=
  (∀ w : U32, unpack32le w = [w.extractLsb' 0 8, w.extractLsb' 8 8, w.extractLsb' 16 8, w.extractLsb' 24 8] ∧
    pack32le (w.extractLsb' 0 8) (w.extractLsb' 8 8) (w.extractLsb' 16 8) (w.extractLsb' 24 8) = w) ∧
  ∀ b0 b1 b2 b3 : Byte, unpack32le (pack32le b0 b1 b2 b3) = [b0, b1, b2, b3]

/-- R79: the same of `UNPACK64LE`, which is two `UNPACK32LE`. -/
def Obligations.UnpackInvertsPack64 : Prop :=
  (∀ w : U64, unpack64le w = unpack32le (w.extractLsb' 0 32) ++ unpack32le (w.extractLsb' 32 32) ∧
    ∀ k, k < 8 → (unpack64le w)[k]? = some (w.extractLsb' (8 * k) 8)) ∧
  (∀ b0 b1 b2 b3 b4 b5 b6 b7 : Byte,
    unpack64le (pack64le b0 b1 b2 b3 b4 b5 b6 b7) = [b0, b1, b2, b3, b4, b5, b6, b7]) ∧
  ∀ (w : U64) (b0 b1 b2 b3 b4 b5 b6 b7 : Byte), unpack64le w = [b0, b1, b2, b3, b4, b5, b6, b7] →
    pack64le b0 b1 b2 b3 b4 b5 b6 b7 = w

/-- The rotates of R80 to R83: bit `j` moves to bit `j + n` (left) or from it (right), modulo the width, for every `n`;
a right rotation is a left rotation by the complement. -/
def Obligations.RotatesWrap : Prop :=
  (∀ (w : U32) (n j : Nat), j < 32 →
    (rotl32 w n).getLsbD ((j + n) % 32) = w.getLsbD j ∧ (rotr32 w n).getLsbD j = w.getLsbD ((j + n) % 32)) ∧
  (∀ (w : U64) (n j : Nat), j < 64 →
    (rotl64 w n).getLsbD ((j + n) % 64) = w.getLsbD j ∧ (rotr64 w n).getLsbD j = w.getLsbD ((j + n) % 64)) ∧
  ∀ (w : U32) (n : Nat), rotr32 w n = rotl32 w (32 - n % 32)

/-- The sum on halves (R88, whose law the spec marks as its own inference): the low half is exact modulo 2^32, the
high half takes the carry, and together they are the 64-bit sum. -/
def Obligations.AddOnHalves : Prop :=
  ∀ a b : U32 × U32,
    (add64H a b).1.toNat = (a.1.toNat + b.1.toNat) % 2 ^ 32 ∧
    (add64H a b).2.toNat = (a.2.toNat + b.2.toNat + (a.1.toNat + b.1.toNat) / 2 ^ 32) % 2 ^ 32 ∧
    ofHalves (add64H a b) = add64 (ofHalves a) (ofHalves b)

/-- The product on halves (R89, whose law the spec marks as its own inference): each half from the partial products, and
together they are the 64-bit product. -/
def Obligations.MulOnHalves : Prop :=
  ∀ a b : U32 × U32,
    (mul64H a b).1.toNat = (a.1.toNat * b.1.toNat) % 2 ^ 32 ∧
    (mul64H a b).2.toNat = ((a.1.toNat * b.1.toNat) / 2 ^ 32 + (a.1.toNat * b.2.toNat) % 2 ^ 32 +
      (a.2.toNat * b.1.toNat) % 2 ^ 32) % 2 ^ 32 ∧
    ofHalves (mul64H a b) = mul64 (ofHalves a) (ofHalves b)

/-- The byte reversal of R92, and that doing it twice gives the word back. -/
def Obligations.ByteSwapReverses : Prop :=
  (∀ b0 b1 b2 b3 b4 b5 b6 b7 : Byte,
    bswap64 (pack64le b0 b1 b2 b3 b4 b5 b6 b7) = pack64le b7 b6 b5 b4 b3 b2 b1 b0) ∧
  ∀ w : U64, bswap64 (bswap64 w) = w
end

