-- ==== Sys2Proof/Laws/Encoding.lean ====
section
/-! SUPPORT. The fields of command words and the variant table read back and forth. -/

namespace Sys2Proof

@[simp] theorem opOf_commandWord (op : BitVec 8) (arg : BitVec 24) : opOf (commandWord op arg) = op := by
  ext i hi
  simp [opOf, commandWord, hi, show 24 + i < 32 by omega, show ¬ 24 + i < 24 by omega, BitVec.getLsbD_eq_getElem]

@[simp] theorem argOf_commandWord (op : BitVec 8) (arg : BitVec 24) : argOf (commandWord op arg) = arg := by
  ext i hi
  simp [argOf, commandWord, hi, show i < 32 by omega, BitVec.getLsbD_eq_getElem]

@[simp] theorem commandWord_fields (w : U32) : commandWord (opOf w) (argOf w) = w := by
  ext i hi
  by_cases h : i < 24
  · simp [opOf, argOf, commandWord, h, BitVec.getLsbD_eq_getElem hi]
  · simp [opOf, argOf, commandWord, h, show 24 + (i - 24) = i by omega, show i - 24 < 8 by omega,
      BitVec.getLsbD_eq_getElem hi]

@[simp] theorem vidOf_constructArg (outreq : BitVec 16) (vid : BitVec 8) : vidOf (constructArg outreq vid) = vid := by
  ext i hi
  simp [vidOf, constructArg, hi, show i < 24 by omega, BitVec.getLsbD_eq_getElem]

@[simp] theorem outreqOf_constructArg (outreq : BitVec 16) (vid : BitVec 8) :
    outreqOf (constructArg outreq vid) = outreq := by
  ext i hi
  simp [outreqOf, constructArg, hi, show 8 + i < 24 by omega, show ¬ 8 + i < 8 by omega, BitVec.getLsbD_eq_getElem]

@[simp] theorem constructArg_fields (arg : BitVec 24) : constructArg (outreqOf arg) (vidOf arg) = arg := by
  ext i hi
  by_cases h : i < 8
  · simp [outreqOf, vidOf, constructArg, h, BitVec.getLsbD_eq_getElem hi]
  · simp [outreqOf, vidOf, constructArg, h, show 8 + (i - 8) = i by omega, show i - 8 < 16 by omega,
      BitVec.getLsbD_eq_getElem hi]

@[simp] theorem Variant.ofVid_vid (v : Variant) : Variant.ofVid v.vid = some v := by
  cases v <;> rfl

/-- The variant table is read the same in both directions. -/
theorem Variant.ofVid_eq_some {b : BitVec 8} {v : Variant} : Variant.ofVid b = some v ↔ v.vid = b := by
  constructor
  · intro h
    simpa using List.find?_some h
  · rintro rfl
    exact ofVid_vid v

/-- Two variants have different ids. -/
theorem Variant.vid_injective {v v' : Variant} (h : v.vid = v'.vid) : v = v' := by
  have h1 := ofVid_vid v
  rw [h, ofVid_vid v'] at h1
  exact (Option.some.inj h1).symm

end Sys2Proof
end

