-- ==== Sys2Proof/Laws/State.lean ====
section
/-! SUPPORT. One lemma per field per named update of State, so that no later proof unfolds a record update; and what a
response and a fault entry leave of every field. -/

namespace Sys2Proof.Machine

variable (s : State) (st : Status) (i : Inst) (ws : List U32) (k : Nat)

@[simp] theorem State.setStatus_params : (s.setStatus st).params = s.params := rfl
@[simp] theorem State.setStatus_status : (s.setStatus st).status = st := rfl
@[simp] theorem State.setStatus_inst : (s.setStatus st).inst = s.inst := rfl
@[simp] theorem State.setStatus_input : (s.setStatus st).input = s.input := rfl
@[simp] theorem State.setStatus_responses : (s.setStatus st).responses = s.responses := rfl
@[simp] theorem State.setStatus_cpc : (s.setStatus st).cpc = s.cpc := rfl

@[simp] theorem State.setInst_params : (s.setInst i).params = s.params := rfl
@[simp] theorem State.setInst_status : (s.setInst i).status = s.status := rfl
@[simp] theorem State.setInst_inst : (s.setInst i).inst = some i := rfl
@[simp] theorem State.setInst_input : (s.setInst i).input = s.input := rfl
@[simp] theorem State.setInst_responses : (s.setInst i).responses = s.responses := rfl
@[simp] theorem State.setInst_cpc : (s.setInst i).cpc = s.cpc := rfl

@[simp] theorem State.emit_params : (s.emit ws).params = s.params := rfl
@[simp] theorem State.emit_status : (s.emit ws).status = s.status := rfl
@[simp] theorem State.emit_inst : (s.emit ws).inst = s.inst := rfl
@[simp] theorem State.emit_input : (s.emit ws).input = s.input := rfl
@[simp] theorem State.emit_responses : (s.emit ws).responses = s.responses ++ ws := rfl
@[simp] theorem State.emit_cpc : (s.emit ws).cpc = s.cpc := rfl

@[simp] theorem State.consume_params : (s.consume k).params = s.params := rfl
@[simp] theorem State.consume_status : (s.consume k).status = s.status := rfl
@[simp] theorem State.consume_inst : (s.consume k).inst = s.inst := rfl
@[simp] theorem State.consume_input : (s.consume k).input = s.input.drop k := rfl
@[simp] theorem State.consume_responses : (s.consume k).responses = s.responses := rfl
@[simp] theorem State.consume_cpc : (s.consume k).cpc = s.cpc + k := rfl

variable (c : FaultCode) (d : List Byte) (fresh : List HostEvent)

@[simp] theorem respond_params : (respond c d s).params = s.params := rfl
@[simp] theorem respond_status : (respond c d s).status = s.status := rfl
@[simp] theorem respond_inst : (respond c d s).inst = s.inst := rfl
@[simp] theorem respond_input : (respond c d s).input = s.input := rfl
@[simp] theorem respond_responses : (respond c d s).responses = s.responses ++ responseWords c d := rfl
@[simp] theorem respond_cpc : (respond c d s).cpc = s.cpc := rfl

@[simp] theorem recordFault_params : (recordFault c s).params = s.params := rfl
@[simp] theorem recordFault_fault : (recordFault c s).status.fault = c := rfl
@[simp] theorem recordFault_bound :
    (recordFault c s).status.bound = if c = .configurationError then false else s.status.bound := rfl
@[simp] theorem recordFault_inst : (recordFault c s).inst = if c = .configurationError then none else s.inst := rfl
@[simp] theorem recordFault_input : (recordFault c s).input = s.input := rfl
@[simp] theorem recordFault_responses : (recordFault c s).responses = s.responses := rfl
@[simp] theorem recordFault_cpc : (recordFault c s).cpc = s.cpc := rfl

@[simp] theorem raiseFault_params : (raiseFault c s).params = s.params := rfl
@[simp] theorem raiseFault_fault : (raiseFault c s).status.fault = c := rfl
@[simp] theorem raiseFault_bound :
    (raiseFault c s).status.bound = if c = .configurationError then false else s.status.bound := rfl
@[simp] theorem raiseFault_inst : (raiseFault c s).inst = if c = .configurationError then none else s.inst := rfl
@[simp] theorem raiseFault_input : (raiseFault c s).input = s.input := rfl
@[simp] theorem raiseFault_responses : (raiseFault c s).responses = s.responses ++ responseWords c [] := rfl
@[simp] theorem raiseFault_cpc : (raiseFault c s).cpc = s.cpc := rfl

@[simp] theorem hardwareReset_params : (hardwareReset fresh s).params = s.params := rfl
@[simp] theorem hardwareReset_status : (hardwareReset fresh s).status = ⟨false, .noFault⟩ := rfl
@[simp] theorem hardwareReset_inst : (hardwareReset fresh s).inst = none := rfl
@[simp] theorem hardwareReset_input : (hardwareReset fresh s).input = fresh := rfl
@[simp] theorem hardwareReset_responses : (hardwareReset fresh s).responses = [] := rfl
@[simp] theorem hardwareReset_cpc : (hardwareReset fresh s).cpc = 0 := rfl

/-- The two guards and the internal check, said once: what a guarded command can answer. -/
theorem withInst_cases {s : State} {k : Inst → Host.Outcome State Fault Refusal} {o : Host.Outcome State Fault Refusal}
    (h : withInst s k = o) :
    (s.status.fault ≠ .noFault ∧ o = .next (respond s.status.fault [] s)) ∨
    (s.status.fault = .noFault ∧ s.status.bound = false ∧ o = .next (raiseFault .protocolError s)) ∨
    (s.status.fault = .noFault ∧ s.status.bound = true ∧ (∀ i, s.inst = some i → i.sized = false) ∧
      o = .next (raiseFault .invariantViolation s)) ∨
    (s.status.fault = .noFault ∧ s.status.bound = true ∧ ∃ i, s.inst = some i ∧ i.sized = true ∧ o = k i) := by
  subst h
  unfold withInst
  by_cases hf : s.status.fault = .noFault
  · cases hb : s.status.bound
    · simp [hf]
    · cases hi : s.inst with
      | none => simp [hf]
      | some i => cases hz : i.sized <;> simp [hf, hz]
  · simp [hf]

/-- A ready, sized instance passes the guards. -/
theorem withInst_ready {s : State} {i : Inst} {k : Inst → Host.Outcome State Fault Refusal}
    (hf : s.status.fault = .noFault) (hb : s.status.bound = true) (hi : s.inst = some i) (hz : i.sized = true) :
    withInst s k = k i := by
  simp [withInst, hf, hb, hi, hz]

end Sys2Proof.Machine
end

