-- ==== Sys2Proof/Laws/Exec.lean ====
section
/-! SUPPORT. What each meaning can answer, said once per shared operation; callers cite these instead of unfolding. -/

namespace Sys2Proof.Machine

/-- Every `CONSTRUCT` of a defined variant runs the one shared operation. -/
theorem exec_construct (v : Variant) (outreq : BitVec 16) (s : State) :
    exec (v.construct outreq) s = constructVariant v outreq s := by
  cases v <;> rfl

/-- All a `CONSTRUCT` of a defined variant can answer. -/
theorem constructVariant_cases {v : Variant} {outreq : BitVec 16} {s : State} {o : Host.Outcome State Fault Refusal}
    (h : constructVariant v outreq s = o) :
    (s.status.fault ≠ .noFault ∧ o = .next (respond s.status.fault [] s)) ∨
    (s.status.fault = .noFault ∧ (v ∉ s.params.variants ∨ effectiveOutLen (v.row s.params) outreq = none) ∧
      o = .next (raiseFault .configurationError s)) ∨
    (s.status.fault = .noFault ∧ v ∈ s.params.variants ∧ ∃ n, effectiveOutLen (v.row s.params) outreq = some n ∧
      o = .next (respond .noFault [] ((s.setStatus ⟨true, .noFault⟩).setInst (.fresh (cfgOf s.params v n))))) := by
  subst h
  unfold constructVariant
  by_cases hf : s.status.fault = .noFault
  · by_cases hv : v ∈ s.params.variants
    · cases hn : effectiveOutLen (v.row s.params) outreq <;> simp [hf, hv]
    · simp [hf, hv]
  · simp [hf]

/-- All a `FEED` can do once past the guards. -/
theorem execFeed_ready {n : BitVec 24} {payload : List U32} {s : State} {i : Inst}
    (hf : s.status.fault = .noFault) (hb : s.status.bound = true) (hi : s.inst = some i) (hz : i.sized = true) :
    execFeed n payload s =
      if i.cfg.isCity ∧ s.params.mixBufCap.toNat < i.bufLen + n.toNat then .next (raiseFault .capacityExceeded s)
      else .next (respond .noFault [] (s.setInst (feedBytes i (feedData n payload)))) := by
  rw [execFeed, withInst_ready hf hb hi hz]

/-- Extraction leaves the configuration alone. -/
@[simp] theorem extractOutput_cfg (p : Params) (i : Inst) (r : U64) : (extractOutput p i r).2.cfg = i.cfg := by
  unfold extractOutput; cases i.engine <;> rfl

/-- Finalization leaves the configuration alone. -/
@[simp] theorem finalize_cfg (i : Inst) : (finalize i).1.cfg = i.cfg := by
  unfold finalize; cases i.engine <;> rfl

/-- All a `RESULT` can do once past the guards. -/
theorem execResult_ready {s : State} {i : Inst}
    (hf : s.status.fault = .noFault) (hb : s.status.bound = true) (hi : s.inst = some i) (hz : i.sized = true) :
    execResult s = .next (respond .noFault (digest s.params i) (s.setInst (.fresh i.cfg))) := by
  rw [execResult, withInst_ready hf hb hi hz]
  simp [digest, initState]

/-- All a `RESET` can do once past the guards. -/
theorem execReset_ready {s : State} {i : Inst}
    (hf : s.status.fault = .noFault) (hb : s.status.bound = true) (hi : s.inst = some i) (hz : i.sized = true) :
    execReset s = .next (respond .noFault [] (s.setInst (.fresh i.cfg))) := by
  rw [execReset, withInst_ready hf hb hi hz]
  rfl

/-- The six shapes of an instruction. -/
theorem Instr.families (i : Instr) :
    (∃ v outreq, i = Variant.construct outreq v) ∨ (∃ outreq vid, i = .constructUnsupported outreq vid) ∨
    (∃ n p, i = .feed n p) ∨ i = .result ∨ i = .reset ∨ ∃ op arg, i = .illegal op arg := by
  cases i with
  | constructKeccak224 o => exact .inl ⟨.keccak224, o, rfl⟩
  | constructKeccak256 o => exact .inl ⟨.keccak256, o, rfl⟩
  | constructKeccak384 o => exact .inl ⟨.keccak384, o, rfl⟩
  | constructKeccak512 o => exact .inl ⟨.keccak512, o, rfl⟩
  | constructSha3_224 o => exact .inl ⟨.sha3_224, o, rfl⟩
  | constructSha3_256 o => exact .inl ⟨.sha3_256, o, rfl⟩
  | constructSha3_384 o => exact .inl ⟨.sha3_384, o, rfl⟩
  | constructSha3_512 o => exact .inl ⟨.sha3_512, o, rfl⟩
  | constructShake128 o => exact .inl ⟨.shake128, o, rfl⟩
  | constructShake256 o => exact .inl ⟨.shake256, o, rfl⟩
  | constructXoodyak o => exact .inl ⟨.xoodyak, o, rfl⟩
  | constructRipemd256 o => exact .inl ⟨.ripemd256, o, rfl⟩
  | constructCity64 o => exact .inl ⟨.city64, o, rfl⟩
  | constructXxh32 o => exact .inl ⟨.xxh32, o, rfl⟩
  | constructXxh64 o => exact .inl ⟨.xxh64, o, rfl⟩
  | constructUnsupported o vid => exact .inr (.inl ⟨o, vid, rfl⟩)
  | feed n p => exact .inr (.inr (.inl ⟨n, p, rfl⟩))
  | result => simp
  | reset => simp
  | illegal op arg => simp

@[simp] theorem Variant.construct_isConstruct (v : Variant) (outreq : BitVec 16) :
    (Variant.construct outreq v).isConstruct = true := by
  cases v <;> rfl

/-- Everything a command can do to a state, case by case: `Answers s i t` says that `i` takes `s` to `t`, and why. -/
inductive Answers (s : State) : Instr → State → Prop
  | stored (i : Instr) (hf : s.status.fault ≠ .noFault) : Answers s i (respond s.status.fault [] s)
  | illegal (op : BitVec 8) (arg : BitVec 24) (hf : s.status.fault = .noFault) :
      Answers s (.illegal op arg) (raiseFault .protocolError s)
  | unsupported (outreq : BitVec 16) (vid : BitVec 8) (hf : s.status.fault = .noFault) :
      Answers s (.constructUnsupported outreq vid) (raiseFault .configurationError s)
  | unconfigurable (v : Variant) (outreq : BitVec 16) (hf : s.status.fault = .noFault)
      (hv : v ∉ s.params.variants ∨ effectiveOutLen (v.row s.params) outreq = none) :
      Answers s (Variant.construct outreq v) (raiseFault .configurationError s)
  | constructed (v : Variant) (outreq outlen : BitVec 16) (hf : s.status.fault = .noFault) (hv : v ∈ s.params.variants)
      (hn : effectiveOutLen (v.row s.params) outreq = some outlen) :
      Answers s (Variant.construct outreq v)
        (respond .noFault [] ((s.setStatus ⟨true, .noFault⟩).setInst (.fresh (cfgOf s.params v outlen))))
  | unbound (i : Instr) (hf : s.status.fault = .noFault) (hb : s.status.bound = false) (hc : i.isConstruct = false) :
      Answers s i (raiseFault .protocolError s)
  | violated (i : Instr) (hf : s.status.fault = .noFault) (hb : s.status.bound = true) (hc : i.isConstruct = false)
      (hz : ∀ a, s.inst = some a → a.sized = false) : Answers s i (raiseFault .invariantViolation s)
  | full (n : BitVec 24) (p : List U32) (a : Inst) (hf : s.status.fault = .noFault) (hb : s.status.bound = true)
      (hi : s.inst = some a) (hc : a.cfg.isCity = true) (hfull : s.params.mixBufCap.toNat < a.bufLen + n.toNat) :
      Answers s (.feed n p) (raiseFault .capacityExceeded s)
  | fed (n : BitVec 24) (p : List U32) (a : Inst) (hf : s.status.fault = .noFault) (hb : s.status.bound = true)
      (hi : s.inst = some a) (hz : a.sized = true)
      (hroom : a.cfg.isCity = true → a.bufLen + n.toNat ≤ s.params.mixBufCap.toNat) :
      Answers s (.feed n p) (respond .noFault [] (s.setInst (feedBytes a (feedData n p))))
  | result (a : Inst) (hf : s.status.fault = .noFault) (hb : s.status.bound = true) (hi : s.inst = some a)
      (hz : a.sized = true) : Answers s .result (respond .noFault (digest s.params a) (s.setInst (.fresh a.cfg)))
  | reset (a : Inst) (hf : s.status.fault = .noFault) (hb : s.status.bound = true) (hi : s.inst = some a)
      (hz : a.sized = true) : Answers s .reset (respond .noFault [] (s.setInst (.fresh a.cfg)))

/-- Every command answers a next state, and one of the cases says which. -/
theorem exec_answers (i : Instr) (s : State) : ∃ t, exec i s = .next t ∧ Answers s i t := by
  obtain ⟨v, o, rfl⟩ | ⟨o, vid, rfl⟩ | ⟨n, p, rfl⟩ | rfl | rfl | ⟨op, arg, rfl⟩ := Instr.families i
  · rw [exec_construct]
    obtain ⟨hf, h⟩ | ⟨hf, hv, h⟩ | ⟨hf, hv, m, hm, h⟩ :=
      constructVariant_cases (rfl : constructVariant v o s = constructVariant v o s)
    · exact ⟨_, h, .stored _ hf⟩
    · exact ⟨_, h, .unconfigurable v o hf hv⟩
    · exact ⟨_, h, .constructed v o m hf hv hm⟩
  · by_cases hf : s.status.fault = .noFault
    · exact ⟨_, by simp only [exec, execConstructUnsupported, hf]; rfl, .unsupported o vid hf⟩
    · exact ⟨_, by simp only [exec, execConstructUnsupported, if_pos hf], .stored _ hf⟩
  · obtain ⟨hf, h⟩ | ⟨hf, hb, h⟩ | ⟨hf, hb, hz, h⟩ | ⟨hf, hb, a, hi, hz, -⟩ :=
      withInst_cases (rfl : execFeed n p s = execFeed n p s)
    · exact ⟨_, h, .stored _ hf⟩
    · exact ⟨_, h, .unbound _ hf hb rfl⟩
    · exact ⟨_, h, .violated _ hf hb rfl hz⟩
    · have h := execFeed_ready (n := n) (payload := p) hf hb hi hz
      by_cases hc : a.cfg.isCity = true ∧ s.params.mixBufCap.toNat < a.bufLen + n.toNat
      · exact ⟨_, h.trans (if_pos hc), .full n p a hf hb hi hc.1 hc.2⟩
      · exact ⟨_, h.trans (if_neg hc), .fed n p a hf hb hi hz fun h1 => Nat.le_of_not_lt fun h2 => hc ⟨h1, h2⟩⟩
  · obtain ⟨hf, h⟩ | ⟨hf, hb, h⟩ | ⟨hf, hb, hz, h⟩ | ⟨hf, hb, a, hi, hz, -⟩ :=
      withInst_cases (rfl : execResult s = execResult s)
    · exact ⟨_, h, .stored _ hf⟩
    · exact ⟨_, h, .unbound _ hf hb rfl⟩
    · exact ⟨_, h, .violated _ hf hb rfl hz⟩
    · exact ⟨_, execResult_ready hf hb hi hz, .result a hf hb hi hz⟩
  · obtain ⟨hf, h⟩ | ⟨hf, hb, h⟩ | ⟨hf, hb, hz, h⟩ | ⟨hf, hb, a, hi, hz, -⟩ :=
      withInst_cases (rfl : execReset s = execReset s)
    · exact ⟨_, h, .stored _ hf⟩
    · exact ⟨_, h, .unbound _ hf hb rfl⟩
    · exact ⟨_, h, .violated _ hf hb rfl hz⟩
    · exact ⟨_, execReset_ready hf hb hi hz, .reset a hf hb hi hz⟩
  · by_cases hf : s.status.fault = .noFault
    · exact ⟨_, by simp only [exec, execIllegal, hf]; rfl, .illegal op arg hf⟩
    · exact ⟨_, by simp only [exec, execIllegal, if_pos hf], .stored _ hf⟩

/-- The same, read from an answer. -/
theorem Answers.of_exec {i : Instr} {s t : State} (h : exec i s = .next t) : Answers s i t := by
  obtain ⟨u, hu, ha⟩ := exec_answers i s
  cases hu.symm.trans h
  exact ha

/-- All a step can be. -/
theorem step_cases {s : State} {o : Host.Outcome State Fault Refusal} (h : step s = o) :
    (∃ i rest, decode (arrivedWords s.input) = .ok (i, rest) ∧
      o = exec i (s.consume ((arrivedWords s.input).length - rest.length))) ∨
    (∃ e fresh, decode (arrivedWords s.input) = .error e ∧ afterRst s.input = some fresh ∧
      o = .next (hardwareReset fresh s)) ∨
    (∃ e, decode (arrivedWords s.input) = .error e ∧ afterRst s.input = none ∧ o = .fault (stuckBy e)) := by
  subst h
  unfold step fetch
  cases hd : decode (arrivedWords s.input) with
  | ok p => exact .inl ⟨p.1, p.2, rfl, rfl⟩
  | error e =>
    cases hr : afterRst s.input with
    | some fresh => exact .inr (.inl ⟨e, fresh, rfl, rfl, rfl⟩)
    | none => exact .inr (.inr ⟨e, rfl, rfl, rfl⟩)

@[simp] theorem arrivedWords_presented (ws : List U32) (r : List HostEvent) :
    arrivedWords (presented ws ++ r) = ws ++ arrivedWords r := by
  induction ws with
  | nil => rfl
  | cons w ws ih => simpa [presented, arrivedWords] using ih

end Sys2Proof.Machine
end

