-- ==== Sys2Proof/Laws/Memory.lean ====
section
/-! SUPPORT. The laws of the buffer memory: every operation keeps the canonical form, a read after a write gives the
value written there and the old value elsewhere, and equal contents are equal lists. -/

namespace Sys2Proof.Machine

@[simp] theorem Memory.read_nil (a : Nat) : Memory.read [] a = 0#8 := rfl

@[simp] theorem Memory.wf_nil : Memory.wf [] = true := rfl

@[simp] theorem Memory.bytes_length (m : Memory) (a n : Nat) : (Memory.bytes m a n).length = n := by
  induction n generalizing a with
  | zero => rfl
  | succ n ih => simp [Memory.bytes, ih]

theorem Memory.bytes_getElem? (m : Memory) (a n k : Nat) :
    (Memory.bytes m a n)[k]? = if k < n then some (Memory.read m (a + k)) else none := by
  induction n generalizing a k with
  | zero => simp [Memory.bytes]
  | succ n ih =>
    cases k with
    | zero => simp [Memory.bytes]
    | succ k => simp [Memory.bytes, ih, show a + 1 + k = a + (k + 1) by omega]

theorem Memory.wfFrom_mono {lo lo' : Nat} {m : Memory} (h : lo' ≤ lo) (hw : Memory.wfFrom lo m = true) :
    Memory.wfFrom lo' m = true := by
  cases m with
  | nil => rfl
  | cons c r => simp [Memory.wfFrom] at hw ⊢; exact ⟨⟨by omega, hw.1.2⟩, hw.2⟩

/-- Below the first cell everything reads as 0. -/
theorem Memory.read_of_lt {lo : Nat} {m : Memory} (hw : Memory.wfFrom lo m = true) {a : Nat} (h : a < lo) :
    Memory.read m a = 0#8 := by
  induction m generalizing lo with
  | nil => rfl
  | cons c r ih =>
    simp [Memory.wfFrom] at hw
    have hne : a ≠ c.1 := by omega
    simp [Memory.read, hne]
    exact ih hw.2 (by omega)

theorem Memory.wfFrom_write {lo : Nat} {m : Memory} (hw : Memory.wfFrom lo m = true) {a : Nat} (h : lo ≤ a) (b : Byte) :
    Memory.wfFrom lo (Memory.write m a b) = true := by
  induction m generalizing lo with
  | nil => by_cases hb : b = 0#8 <;> simp [Memory.write, Memory.wfFrom, hb, h]
  | cons c r ih =>
    obtain ⟨k, v⟩ := c
    simp [Memory.wfFrom] at hw
    obtain ⟨⟨hk, hv⟩, hr⟩ := hw
    unfold Memory.write
    split
    · split
      · simp [Memory.wfFrom, hk, hv, hr]
      · rename_i h1 hb
        simp [Memory.wfFrom, h, hb, hv, hr, h1]
    · split
      · rename_i _ h2
        split
        · exact wfFrom_mono (by omega) hr
        · rename_i hb
          subst h2
          simp [Memory.wfFrom, hk, hb, hr]
      · simp [Memory.wfFrom, hk, hv, ih hr (by omega)]

/-- Storing a byte keeps the canonical form. -/
theorem Memory.wf_write {m : Memory} (hw : Memory.wf m = true) (a : Nat) (b : Byte) :
    Memory.wf (Memory.write m a b) = true :=
  wfFrom_write hw (Nat.zero_le a) b

/-- Storing a sequence of bytes keeps the canonical form. -/
theorem Memory.wf_writeBytes {m : Memory} (hw : Memory.wf m = true) (a : Nat) (bs : List Byte) :
    Memory.wf (Memory.writeBytes m a bs) = true := by
  induction bs generalizing m a with
  | nil => exact hw
  | cons b bs ih => exact ih (wf_write hw a b) (a + 1)

/-- `MemWrite` keeps the canonical form. -/
theorem memWrite_wf {m : Memory} (hw : Memory.wf m = true) (a n : Nat) (v : U64) :
    Memory.wf (memWrite m a n v) = true :=
  Memory.wf_writeBytes hw a _

theorem Memory.read_write_from {lo : Nat} {m : Memory} (hw : Memory.wfFrom lo m = true) (a a' : Nat) (b : Byte) :
    Memory.read (Memory.write m a b) a' = if a' = a then b else Memory.read m a' := by
  induction m generalizing lo with
  | nil => by_cases hb : b = 0#8 <;> by_cases ha : a' = a <;> simp [Memory.write, Memory.read, hb, ha]
  | cons c r ih =>
    obtain ⟨k, v⟩ := c
    simp [Memory.wfFrom] at hw
    obtain ⟨_, hr⟩ := hw
    unfold Memory.write
    split
    · rename_i h1
      split
      · rename_i hb
        by_cases ha : a' = a
        · subst ha
          have : a' ≠ k := by omega
          simp [Memory.read, this, hb, read_of_lt hr (by omega : a' < k + 1)]
        · simp [ha]
      · simp only [Memory.read]
    · split
      · rename_i _ h2
        subst h2
        split
        · rename_i hb
          by_cases ha : a' = a
          · subst ha; simp [hb, read_of_lt hr (by omega : a' < a' + 1)]
          · simp [Memory.read, ha]
        · by_cases ha : a' = a <;> simp [Memory.read, ha]
      · by_cases ha : a' = k
        · subst ha
          rename_i h2
          have : a' ≠ a := fun h => h2 h.symm
          simp [Memory.read, this]
        · simp [Memory.read, ha, ih hr]

/-- A read after a write. -/
theorem Memory.read_write {m : Memory} (hw : Memory.wf m = true) (a a' : Nat) (b : Byte) :
    Memory.read (Memory.write m a b) a' = if a' = a then b else Memory.read m a' :=
  read_write_from hw a a' b

/-- A read after storing a sequence. -/
theorem Memory.read_writeBytes {m : Memory} (hw : Memory.wf m = true) (a : Nat) (bs : List Byte) (a' : Nat) :
    Memory.read (Memory.writeBytes m a bs) a' =
      if h : a ≤ a' ∧ a' - a < bs.length then bs[a' - a] else Memory.read m a' := by
  induction bs generalizing m a with
  | nil => simp [Memory.writeBytes]
  | cons b bs ih =>
    rw [Memory.writeBytes, ih (wf_write hw a b)]
    by_cases h0 : a' = a
    · subst h0
      simp [read_write hw, show ¬ (a' + 1 ≤ a') by omega]
    · by_cases h1 : a + 1 ≤ a' ∧ a' - (a + 1) < bs.length
      · have h2 : a ≤ a' ∧ a' - a < (b :: bs).length := by simp; omega
        obtain ⟨d, hd⟩ : ∃ d, a' = a + 1 + d := ⟨a' - (a + 1), by omega⟩
        subst hd
        rw [dif_pos h1, dif_pos h2]
        simp [show a + 1 + d - a = d + 1 by omega]
      · have h2 : ¬ (a ≤ a' ∧ a' - a < (b :: bs).length) := by simp; omega
        rw [dif_neg h1, dif_neg h2, read_write hw, if_neg h0]

theorem Memory.ext_from {lo : Nat} {m m' : Memory} (hw : Memory.wfFrom lo m = true) (hw' : Memory.wfFrom lo m' = true)
    (h : ∀ a, Memory.read m a = Memory.read m' a) : m = m' := by
  induction m generalizing lo m' with
  | nil =>
    cases m' with
    | nil => rfl
    | cons c r =>
      obtain ⟨k, v⟩ := c
      simp [Memory.wfFrom] at hw'
      exact absurd (by simpa [Memory.read] using (h k).symm) hw'.1.2
  | cons c r ih =>
    obtain ⟨k, v⟩ := c
    have hw0 := hw
    simp [Memory.wfFrom] at hw
    cases m' with
    | nil => exact absurd (by simpa [Memory.read] using h k) hw.1.2
    | cons c' r' =>
      obtain ⟨k', v'⟩ := c'
      have hw0' := hw'
      simp [Memory.wfFrom] at hw'
      have hk : k = k' := by
        rcases Nat.lt_trichotomy k k' with hlt | heq | hgt
        · have := h k
          simp [Memory.read, show k ≠ k' by omega, read_of_lt hw'.2 (by omega : k < k' + 1)] at this
          exact absurd this hw.1.2
        · exact heq
        · have := h k'
          simp [Memory.read, show k' ≠ k by omega, read_of_lt hw.2 (by omega : k' < k + 1)] at this
          exact absurd this.symm hw'.1.2
      subst hk
      have hv : v = v' := by simpa [Memory.read] using h k
      subst hv
      have hr : r = r' := by
        refine ih hw.2 hw'.2 fun a => ?_
        by_cases ha : a = k
        · subst ha
          rw [read_of_lt hw.2 (by omega), read_of_lt hw'.2 (by omega)]
        · simpa [Memory.read, ha] using h a
      rw [hr]

/-- Equal contents are equal data. -/
theorem Memory.ext {m m' : Memory} (hw : Memory.wf m = true) (hw' : Memory.wf m' = true)
    (h : ∀ a, Memory.read m a = Memory.read m' a) : m = m' :=
  ext_from hw hw' h

end Sys2Proof.Machine
end

