-- ==== Sys2Proof/Laws/Invariant.lean ====
section
/-! SUPPORT. What feeding bytes does to an instance, and the instance invariant: a fresh instance has it and a stored byte
keeps it. -/

namespace Sys2Proof.Machine

/-! ### Configurations -/

/-- The kind column of R62 is the kind `VID[5:4]` names (R63). -/
theorem Variant.row_kind (p : Params) (v : Variant) : kindOfVid v.vid = (v.row p).kind := by
  cases v <;> rfl

theorem cfgOf_isCity {p : Params} {v : Variant} {n : BitVec 16} :
    (cfgOf p v n).isCity = true ↔ v = .city64 := by
  cases v <;> simp [cfgOf, Cfg.isCity, Variant.vid]

theorem cfgOf_block_pos {p : Params} (hp : p.ok = true) (v : Variant) (n : BitVec 16) :
    0 < (cfgOf p v n).block.toNat := by
  cases v <;> simp [cfgOf, Variant.row]
  simp [Params.ok] at hp
  exact Nat.pos_of_ne_zero fun h => hp (BitVec.eq_of_toNat_eq h)

theorem CfgFrom.block_pos {p : Params} {c : Cfg} (hp : p.ok = true) (h : CfgFrom p c) : 0 < c.block.toNat := by
  obtain ⟨v, _, _, n, _, rfl⟩ := h
  exact cfgOf_block_pos hp v n

theorem CfgFrom.city_block {p : Params} {c : Cfg} (h : CfgFrom p c) (hc : c.isCity = true) : c.block = p.mixBufCap := by
  obtain ⟨v, _, _, n, _, rfl⟩ := h
  rw [cfgOf_isCity] at hc
  subst hc
  rfl

theorem Cfg.isCity_iff {c : Cfg} : c.isCity = true ↔ c.vid = 0x30 := by
  simp [Cfg.isCity, Variant.vid]

/-! ### Feeding bytes -/

@[simp] theorem feedBytes_nil (i : Inst) : feedBytes i [] = i := rfl

@[simp] theorem feedBytes_cons (i : Inst) (b : Byte) (d : List Byte) :
    feedBytes i (b :: d) = feedBytes (feedByte i b) d := rfl

/-- Feeding two pieces one after the other is feeding them joined. -/
theorem feedBytes_append (i : Inst) (d e : List Byte) : feedBytes i (d ++ e) = feedBytes (feedBytes i d) e := by
  simp [feedBytes]

/-- A byte that completes no block, or any byte of `CITY64`. -/
theorem feedByte_store {i : Inst} {b : Byte} (h : i.cfg.isCity = true ∨ i.bufLen + 1 ≠ i.cfg.block.toNat) :
    feedByte i b = storeByte i b := by
  rcases h with h | h <;> simp [feedByte, drain, storeByte, h]

/-- The byte that completes a block. -/
theorem feedByte_absorb {i : Inst} {b : Byte} (hc : i.cfg.isCity = false) (h : i.bufLen + 1 = i.cfg.block.toNat) :
    feedByte i b = ⟨i.cfg, absorbBuffer (storeByte i b), [], 0, i.len + 1⟩ := by
  simp [feedByte, drain, storeByte, hc, h]

@[simp] theorem feedByte_cfg (i : Inst) (b : Byte) : (feedByte i b).cfg = i.cfg := by
  simp only [feedByte, drain]
  split <;> rfl

@[simp] theorem feedByte_len (i : Inst) (b : Byte) : (feedByte i b).len = i.len + 1 := by
  simp only [feedByte, drain]
  split <;> rfl

@[simp] theorem feedBytes_cfg (i : Inst) (d : List Byte) : (feedBytes i d).cfg = i.cfg := by
  induction d generalizing i with
  | nil => rfl
  | cons b d ih => simp [ih]

/-- `LEN` counts the bytes, modulo 2^64 (R19). -/
theorem feedBytes_len (i : Inst) (d : List Byte) : (feedBytes i d).len = i.len + BitVec.ofNat 64 d.length := by
  induction d generalizing i with
  | nil => simp
  | cons b d ih =>
    rw [feedBytes_cons, ih, feedByte_len, List.length_cons]
    rw [BitVec.add_assoc]
    congr 1
    apply BitVec.eq_of_toNat_eq
    simp
    omega

/-! ### The invariant of an instance -/

@[simp] theorem Engine.absorb_agrees (c : Cfg) (len : U64) (d : List Byte) (e : Engine) (c' : Cfg) :
    (e.absorb c len d).agrees c' = e.agrees c' := by
  cases e <;> rfl

@[simp] theorem Engine.absorb_absorbing (c : Cfg) (len : U64) (d : List Byte) (e : Engine) :
    (e.absorb c len d).absorbing = e.absorbing := by
  cases e <;> rfl

theorem Engine.fresh_agrees (p : Params) (v : Variant) (n : BitVec 16) :
    (Engine.fresh (cfgOf p v n)).agrees (cfgOf p v n) = true := by
  cases v <;> rfl

theorem Engine.fresh_absorbing (c : Cfg) : (Engine.fresh c).absorbing = true := by
  unfold Engine.fresh
  split
  · rfl
  · rfl
  · rfl
  · split
    · rfl
    · split <;> rfl

/-- An instance fresh from `CONSTRUCT` or an instance reset. -/
theorem InstInv.fresh {p : Params} {c : Cfg} (hp : p.ok = true) (hc : CfgFrom p c) : InstInv p (Inst.fresh c) := by
  refine ⟨hc, ?_, Engine.fresh_absorbing c, rfl, fun a _ => rfl, fun _ => hc.block_pos hp, fun _ => ⟨Nat.zero_le _, rfl⟩⟩
  obtain ⟨v, _, _, n, _, rfl⟩ := hc
  exact Engine.fresh_agrees p v n

/-- A stored byte keeps the invariant; a `CITY64` store must have room for it. -/
theorem InstInv.feedByte {p : Params} {i : Inst} (h : InstInv p i) (b : Byte)
    (hroom : i.cfg.isCity = true → i.bufLen + 1 ≤ p.mixBufCap.toNat) : InstInv p (feedByte i b) := by
  by_cases hs : i.cfg.isCity = true ∨ i.bufLen + 1 ≠ i.cfg.block.toNat
  · rw [feedByte_store hs]
    refine ⟨h.cfg, h.engine, h.mode, Memory.wf_write h.canonical _ _, fun a ha => ?_, fun hc => ?_, fun hc => ?_⟩
    · simp only [storeByte] at ha ⊢
      rw [Memory.read_write h.canonical, if_neg (by omega), h.zeroBeyond a (by omega)]
    · have := h.drained hc
      simp only [storeByte] at hc ⊢
      simp only [hc] at hs
      have := hs.resolve_left (by simp)
      omega
    · have := h.whole hc
      have hr := hroom hc
      have := p.mixBufCap.isLt
      refine ⟨hr, ?_⟩
      simp only [storeByte, BitVec.toNat_add]
      simp
      omega
  · simp only [not_or, Bool.not_eq_true, Decidable.not_not] at hs
    rw [feedByte_absorb hs.1 hs.2]
    refine ⟨h.cfg, ?_, ?_, rfl, fun a _ => rfl, fun _ => ?_, fun hc => ?_⟩
    · simpa [absorbBuffer, storeByte] using h.engine
    · simpa [absorbBuffer, storeByte] using h.mode
    · simp only; omega
    · simp [hs.1] at hc

/-- Fed bytes keep the invariant; a `CITY64` store must have room for them. -/
theorem InstInv.feedBytes {p : Params} {i : Inst} (h : InstInv p i) (d : List Byte)
    (hroom : i.cfg.isCity = true → i.bufLen + d.length ≤ p.mixBufCap.toNat) : InstInv p (feedBytes i d) := by
  induction d generalizing i with
  | nil => exact h
  | cons b d ih =>
    simp only [List.length_cons] at hroom
    refine ih (h.feedByte b fun hc => by have := hroom hc; omega) fun hc => ?_
    rw [feedByte_cfg] at hc
    have := hroom hc
    rw [feedByte_store (.inl hc)]
    simp only [storeByte]
    omega

/-- Neither condition of R232 holds of an instance that satisfies the invariant. -/
theorem InstInv.sized {p : Params} {i : Inst} (h : InstInv p i) : i.sized = true := by
  simp only [Inst.sized, h.engine, Bool.and_true, decide_eq_true_eq]
  cases hc : i.cfg.isCity
  · exact Nat.le_of_lt (h.drained hc)
  · rw [h.cfg.city_block hc]
    exact (h.whole hc).1

/-- A ready instance passes the guards of every command. -/
theorem Ready.sized {s : State} {i : Inst} (h : Ready s i) : i.sized = true :=
  (h.inv.inst i h.inst).sized

end Sys2Proof.Machine
end

