-- ==== Sys2Proof/Laws/Keccak.lean ====
section
/-! SUPPORT. The steps of a Keccak round lose nothing: each is injective. -/

namespace Sys2Proof.Machine.Keccak

/-- A left rotation bit by bit. -/
theorem getLsbD_rotl64 (w : U64) (n j : Nat) (hj : j < 64) :
    (rotl64 w n).getLsbD j = w.getLsbD ((j + 64 - n % 64) % 64) := by
  unfold rotl64
  have : n % 64 < 64 := Nat.mod_lt _ (by decide)
  generalize n % 64 = k at *
  simp only
  split
  · subst_vars
    congr 1; omega
  · simp only [BitVec.getLsbD_or, BitVec.getLsbD_shiftLeft, BitVec.getLsbD_ushiftRight, hj, decide_true, Bool.true_and]
    by_cases h : j < k
    · rw [show (j + 64 - k) % 64 = 64 - k + j by omega]
      simp [h]
    · rw [show (j + 64 - k) % 64 = j - k by omega]
      have : w.getLsbD (64 - k + j) = false := BitVec.getLsbD_of_ge _ _ (by omega)
      simp [h, this]

theorem rotl64_xor (a b : U64) (n : Nat) : rotl64 (a ^^^ b) n = rotl64 a n ^^^ rotl64 b n := by
  apply BitVec.eq_of_getLsbD_eq
  intro j hj
  simp [getLsbD_rotl64 _ _ _ hj]

theorem rotl64_rotl64 (a : U64) (m n : Nat) : rotl64 (rotl64 a m) n = rotl64 a (m + n) := by
  apply BitVec.eq_of_getLsbD_eq
  intro j hj
  rw [getLsbD_rotl64 _ _ _ hj, getLsbD_rotl64 _ _ _ (Nat.mod_lt _ (by decide)), getLsbD_rotl64 _ _ _ hj]
  congr 1; omega

theorem rotl64_injective (n : Nat) : Function.Injective fun w => rotl64 w n := by
  intro a b h
  have := congrArg (fun w => rotl64 w (64 - n % 64)) h
  simp only [rotl64_rotl64] at this
  have e : ∀ w : U64, rotl64 w (n + (64 - n % 64)) = w := by
    intro w
    simp [rotl64, show (n + (64 - n % 64)) % 64 = 0 by omega]
  rwa [e, e] at this

/-- The map of the column parities under `THETA`, with its shift and its rotation as parameters. -/
def mix (m : Fin 5) (n : Nat) (p : Fin 5 → U64) (x : Fin 5) : U64 := p x ^^^ p (x + 4 * m) ^^^ rotl64 (p (x + m)) n

theorem mix_mix (m : Fin 5) (n : Nat) (p : Fin 5 → U64) : mix m n (mix m n p) = mix (2 * m) (2 * n) p := by
  funext x
  simp only [mix, rotl64_xor, rotl64_rotl64]
  rw [show x + 4 * m + m = x by revert x m; decide, show x + m + 4 * m = x by revert x m; decide,
    show x + 4 * m + 4 * m = x + 4 * (2 * m) by revert x m; decide, show x + m + m = x + 2 * m by revert x m; decide, Nat.two_mul]
  generalize p x = a, p (x + 4 * m) = b, p (x + m) = c, p (x + 4 * (2 * m)) = d, p (x + 2 * m) = e
  apply BitVec.eq_of_getLsbD_eq
  intro j hj
  simp only [BitVec.getLsbD_xor]
  generalize a.getLsbD j = a, b.getLsbD j = b, (rotl64 c n).getLsbD j = c, d.getLsbD j = d, (rotl64 e (n + n)).getLsbD j = e, (rotl64 a n).getLsbD j = f
  revert a b c d e f; decide

/-- `mix 1 1` squares to ever larger shifts, and its 64th power cubes to the identity. -/
theorem mix_injective : Function.Injective (mix 1 1) := by
  have step : ∀ m n, Function.Injective (mix (2 * m) (2 * n)) → Function.Injective (mix m n) := by
    intro m n h p q hpq
    apply h
    rw [← mix_mix, ← mix_mix, hpq]
  refine step 1 1 (step 2 2 (step 4 4 (step 3 8 (step 1 16 (step 2 32 ?_)))))
  have cube : ∀ p, mix 4 64 (mix 4 64 (mix 4 64 p)) = p := by
    intro p
    have r : ∀ w : U64, rotl64 w 64 = w := fun w => rfl
    funext x
    simp only [mix, r]
    apply BitVec.eq_of_getLsbD_eq
    intro j hj
    simp only [BitVec.getLsbD_xor]
    obtain ⟨b, hb⟩ : ∃ b : Fin 5 → Bool, ∀ y, (p y).getLsbD j = b y := ⟨_, fun _ => rfl⟩
    simp only [hb]
    fin_cases x <;> simp <;>
      (generalize b 0 = b0, b 1 = b1, b 2 = b2, b 3 = b3, b 4 = b4; revert b0 b1 b2 b3 b4; decide)
  intro p q h
  rw [← cube p, ← cube q]
  exact congrArg _ (congrArg _ h)

/-- `THETA` corrects every lane of a column alike (R104). -/
theorem getElem_theta (a : KeccakLanes) (x : Fin 5) (y : Nat) :
    (theta a)[lane x y] = a[lane x y] ^^^ (correction (parity a))[x] := by
  have hc : col (lane x y).val = x := by
    have := x.isLt
    apply Fin.ext
    simp only [col, lane]
    omega
  conv => rhs; rw [← hc]
  simp only [theta, Fin.getElem_fin, Vector.getElem_ofFn, hc]

theorem getElem_parity (a : KeccakLanes) (x : Fin 5) :
    (parity a)[x] = a[lane x 0] ^^^ a[lane x 1] ^^^ a[lane x 2] ^^^ a[lane x 3] ^^^ a[lane x 4] := by
  simp only [parity, Fin.getElem_fin, Vector.getElem_ofFn]

theorem getElem_correction (p : Vector U64 5) (x : Fin 5) : (correction p)[x] = p[x + 4] ^^^ rotl64 p[x + 1] 1 := by
  have h4 : ∀ x : Fin 5, col (x.val + 4) = x + 4 := by decide
  have h1 : ∀ x : Fin 5, col (x.val + 1) = x + 1 := by decide
  simp only [correction, Fin.getElem_fin, Vector.getElem_ofFn, h4, h1]

/-- What `THETA` does to the column parities: five lanes of a column take the correction, an odd number. -/
theorem parity_theta (a : KeccakLanes) (x : Fin 5) : (parity (theta a))[x] = mix 1 1 (fun y => (parity a)[y]) x := by
  rw [getElem_parity, getElem_theta, getElem_theta, getElem_theta, getElem_theta, getElem_theta, mix, BitVec.xor_assoc _ _ (rotl64 _ 1),
    show x + 4 * 1 = x + 4 from rfl, ← getElem_correction, getElem_parity]
  generalize (correction (parity a))[x] = d
  apply BitVec.eq_of_getLsbD_eq
  intro j hj
  simp only [BitVec.getLsbD_xor]
  cases d.getLsbD j <;> simp

theorem theta_injective : Function.Injective theta := by
  intro a b h
  have hp : parity a = parity b := by
    have hm : mix 1 1 (fun y => (parity a)[y]) = mix 1 1 (fun y => (parity b)[y]) := by
      funext x
      rw [← parity_theta, ← parity_theta, h]
    have := mix_injective hm
    apply Vector.ext
    intro i hi
    exact congrFun this ⟨i, hi⟩
  apply Vector.ext
  intro i hi
  have := congrArg (fun z : KeccakLanes => z[i]) h
  simp only [theta, hp, Vector.getElem_ofFn] at this
  exact (BitVec.xor_left_inj _).1 this

theorem rho_injective : Function.Injective rho := by
  intro a b h
  apply Vector.ext
  intro i hi
  have := congrArg (fun z : KeccakLanes => z[i]) h
  simp only [rho, Vector.getElem_ofFn] at this
  exact rotl64_injective _ this

theorem piSource_piDest : ∀ i : Fin 25, piSource (piDest i.val (i.val / 5)).val ((piDest i.val (i.val / 5)).val / 5) = i := by
  decide

theorem pi_injective : Function.Injective pi := by
  intro a b h
  apply Vector.ext
  intro i hi
  have := congrArg (fun z : KeccakLanes => z[piDest i (i / 5)]) h
  simp only [pi, Vector.getElem_ofFn, Fin.getElem_fin] at this
  have e' := piSource_piDest ⟨i, hi⟩
  simpa [e'] using this

/-- A row of `CHI`, one bit of its five lanes (R107). -/
theorem chi_row : ∀ u v : Fin 5 → Bool,
    (∀ x, (u x ^^ (!u (x + 1) && u (x + 2))) = (v x ^^ (!v (x + 1) && v (x + 2)))) → u = v := by
  decide

theorem chi_injective : Function.Injective chi := by
  intro a b h
  apply Vector.ext
  intro i hi
  apply BitVec.eq_of_getLsbD_eq
  intro j hj
  have e : ∀ (a : KeccakLanes) (x : Fin 5), ((chi a)[lane x (i / 5)]).getLsbD j =
      ((a[lane x (i / 5)]).getLsbD j ^^ (!(a[lane (x + 1 : Fin 5) (i / 5)]).getLsbD j && (a[lane (x + 2 : Fin 5) (i / 5)]).getLsbD j)) := by
    intro a x
    have h1 : ∀ k : Nat, ∀ k' : Fin 5, k'.val = k % 5 → lane ((lane x (i / 5)).val + k) ((lane x (i / 5)).val / 5) = lane (x + k' : Fin 5) (i / 5) := by
      intro k k' hk
      have := x.isLt
      apply Fin.ext
      simp only [lane, Fin.val_add]
      omega
    simp only [chi, Fin.getElem_fin, Vector.getElem_ofFn, BitVec.getLsbD_xor, BitVec.getLsbD_and, BitVec.getLsbD_not, hj, decide_true, Bool.true_and]
    simp only [← Fin.getElem_fin, h1 1 1 rfl, h1 2 2 rfl]
  have r := chi_row (fun x => (a[lane x (i / 5)]).getLsbD j) (fun x => (b[lane x (i / 5)]).getLsbD j) (fun x => by
    have := e a x; rw [show chi a = chi b from h, e b x] at this; exact this.symm)
  have hi' : lane (⟨i % 5, by omega⟩ : Fin 5) (i / 5) = ⟨i, hi⟩ := by apply Fin.ext; simp only [lane]; omega
  have := congrFun r ⟨i % 5, by omega⟩
  simpa only [hi', Fin.getElem_fin] using this

theorem iota_injective (r : Fin 24) : Function.Injective (iota · r) := by
  intro a b h
  apply Vector.ext
  intro i hi
  have := congrArg (fun z : KeccakLanes => z[i]) h
  simp only [iota, Vector.getElem_set] at this
  split at this
  · subst_vars; exact (BitVec.xor_left_inj _).1 this
  · exact this

theorem round_injective (r : Fin 24) : Function.Injective (round · r) := fun _ _ h =>
  theta_injective (rho_injective (pi_injective (chi_injective (iota_injective r h))))

end Sys2Proof.Machine.Keccak
end

