-- ==== Sys2Proof/Laws/PerInstr.lean ====
section
/-! SUPPORT. The statements made per instruction. -/

namespace Sys2Proof.Laws.Length

/-- The words of a well-formed instruction are as many as its first word says (R65). -/
def Statement (i : Instr) : Prop :=
  i.wf = true → ∃ w rest, encode i = w :: rest ∧ (encode i).length = commandWords (opOf w) (argOf w)

theorem one (op : BitVec 8) (arg : BitVec 24) (h : op ≠ 0x02) :
    ∃ w rest, [commandWord op arg] = w :: rest ∧ [commandWord op arg].length = commandWords (opOf w) (argOf w) :=
  ⟨_, [], rfl, by rw [opOf_commandWord, commandWords, if_neg h]; rfl⟩

theorem constructKeccak224 (o : BitVec 16) : Statement (.constructKeccak224 o) := fun _ => one _ _ (by decide)
theorem constructKeccak256 (o : BitVec 16) : Statement (.constructKeccak256 o) := fun _ => one _ _ (by decide)
theorem constructKeccak384 (o : BitVec 16) : Statement (.constructKeccak384 o) := fun _ => one _ _ (by decide)
theorem constructKeccak512 (o : BitVec 16) : Statement (.constructKeccak512 o) := fun _ => one _ _ (by decide)
theorem constructSha3_224 (o : BitVec 16) : Statement (.constructSha3_224 o) := fun _ => one _ _ (by decide)
theorem constructSha3_256 (o : BitVec 16) : Statement (.constructSha3_256 o) := fun _ => one _ _ (by decide)
theorem constructSha3_384 (o : BitVec 16) : Statement (.constructSha3_384 o) := fun _ => one _ _ (by decide)
theorem constructSha3_512 (o : BitVec 16) : Statement (.constructSha3_512 o) := fun _ => one _ _ (by decide)
theorem constructShake128 (o : BitVec 16) : Statement (.constructShake128 o) := fun _ => one _ _ (by decide)
theorem constructShake256 (o : BitVec 16) : Statement (.constructShake256 o) := fun _ => one _ _ (by decide)
theorem constructXoodyak (o : BitVec 16) : Statement (.constructXoodyak o) := fun _ => one _ _ (by decide)
theorem constructRipemd256 (o : BitVec 16) : Statement (.constructRipemd256 o) := fun _ => one _ _ (by decide)
theorem constructCity64 (o : BitVec 16) : Statement (.constructCity64 o) := fun _ => one _ _ (by decide)
theorem constructXxh32 (o : BitVec 16) : Statement (.constructXxh32 o) := fun _ => one _ _ (by decide)
theorem constructXxh64 (o : BitVec 16) : Statement (.constructXxh64 o) := fun _ => one _ _ (by decide)
theorem constructUnsupported (o : BitVec 16) (vid : BitVec 8) : Statement (.constructUnsupported o vid) :=
  fun _ => one _ _ (by decide)
theorem feed (n : BitVec 24) (payload : List U32) : Statement (.feed n payload) := fun h =>
  ⟨_, payload, rfl, by simp [Instr.wf] at h; simp [encode, commandWords, h]; omega⟩
theorem result : Statement .result := fun _ => one _ _ (by decide)
theorem reset : Statement .reset := fun _ => one _ _ (by decide)
theorem illegal (op : BitVec 8) (arg : BitVec 24) : Statement (.illegal op arg) := fun h =>
  one _ _ (by rintro rfl; simp [Instr.wf, illegalFields] at h)

end Sys2Proof.Laws.Length
end

