-- ==== Sys2Proof/Tests/Slice0.lean ====
section
/-! SUPPORT. The author's tests. Every expected value comes from spec/: the worked examples of the rules, the tables, and the
vectors of 95_test_vectors.md, each named where it stands. Then one witness per statement with hypotheses: concrete
states and operands that meet them. -/

namespace Sys2Proof.Tests

open Sys2Proof.Machine

/-! ### WellFormed: an ill-formed term for each check -/

/-- An unsupported `CONSTRUCT` names no row of R62; 0x05 is SHA3_256's. -/
theorem test_wf_refuses_supported_vid : (Instr.constructUnsupported 0 0x05).wf = false := by decide
/-- `FEED` of 5 bytes takes two payload words (R58), neither one nor three. -/
theorem test_wf_refuses_short_payload : (Instr.feed 5 [0]).wf = false := by decide
theorem test_wf_refuses_long_payload : (Instr.feed 5 [0, 0, 0]).wf = false := by decide
/-- `RESULT`, `CONSTRUCT` and `FEED` words are not illegal (R64). -/
theorem test_wf_refuses_legal_word : (Instr.illegal 0x03 0).wf = false ∧ (Instr.illegal 0x01 7).wf = false ∧
    (Instr.illegal 0x02 0).wf = false ∧ (Instr.illegal 0x04 0).wf = false := by decide
theorem test_wf_accepts : (Instr.constructUnsupported 0 0x0A).wf = true ∧ (Instr.feed 5 [0, 0]).wf = true ∧
    (Instr.illegal 0x03 1).wf = true ∧ (Instr.illegal 0x05 0).wf = true := by decide

/-! ### Decoding: each constructor's word written out from R56 to R60, R62 and R64 as `OP` [31:24], `OUTREQ` [23:8],
`VID` [7:0] -/

theorem test_decode_keccak :
    decode [0x01000000] = .ok (.constructKeccak224 0, []) ∧ decode [0x01000001] = .ok (.constructKeccak256 0, []) ∧
    decode [0x01000002] = .ok (.constructKeccak384 0, []) ∧ decode [0x01000003] = .ok (.constructKeccak512 0, []) ∧
    decode [0x01000004] = .ok (.constructSha3_224 0, []) ∧ decode [0x01002005] = .ok (.constructSha3_256 32, []) ∧
    decode [0x01000006] = .ok (.constructSha3_384 0, []) ∧ decode [0x01000007] = .ok (.constructSha3_512 0, []) ∧
    decode [0x0101F408] = .ok (.constructShake128 500, []) ∧ decode [0x01FFFF09] = .ok (.constructShake256 65535, []) :=
  by decide
theorem test_decode_other_kinds :
    decode [0x01000010] = .ok (.constructXoodyak 0, []) ∧ decode [0x01000020] = .ok (.constructRipemd256 0, []) ∧
    decode [0x01000030] = .ok (.constructCity64 0, []) ∧ decode [0x01000031] = .ok (.constructXxh32 0, []) ∧
    decode [0x01000832] = .ok (.constructXxh64 8, []) := by decide
/-- The unsupported ids of R63 and 95_test_vectors.md 6.2. -/
theorem test_decode_unsupported :
    decode [0x0100000A] = .ok (.constructUnsupported 0 0x0A, []) ∧
    decode [0x01001011] = .ok (.constructUnsupported 0x10 0x11, []) ∧
    decode [0x01000033] = .ok (.constructUnsupported 0 0x33, []) ∧
    decode [0x01000045] = .ok (.constructUnsupported 0 0x45, []) := by decide
theorem test_decode_feed :
    decode [0x02000003, 0x00636261] = .ok (.feed 3 [0x00636261], []) ∧
    decode [0x02000005, 1, 2, 3] = .ok (.feed 5 [1, 2], [3]) ∧
    decode [0x02000000, 0x03000000] = .ok (.feed 0 [], [0x03000000]) ∧
    decode [0x02000005, 1] = .error .payloadMissing ∧ decode [] = .error .noCommandWord := by decide
theorem test_decode_result_reset_illegal :
    decode [0x03000000] = .ok (.result, []) ∧ decode [0x04000000] = .ok (.reset, []) ∧
    decode [0x03000001] = .ok (.illegal 0x03 1, []) ∧ decode [0x04800000] = .ok (.illegal 0x04 0x800000, []) ∧
    decode [0x00000000] = .ok (.illegal 0x00 0, []) ∧ decode [0xFF123456] = .ok (.illegal 0xFF 0x123456, []) := by decide
/-- The words of 30_encoding.md section 6, encoded. -/
theorem test_encode :
    encode (.constructSha3_256 0) = [0x01000005] ∧ encode (.constructShake128 500) = [0x0101F408] ∧
    encode (.feed 3 [0x00636261]) = [0x02000003, 0x00636261] ∧ encode .result = [0x03000000] ∧
    encode .reset = [0x04000000] := by decide
theorem test_decodeTableWord :
    decodeTableWord 32 0x01000030 = some (.constructCity64 0) ∧
    decodeTableWord 64 0x0063626102000003 = some (.feed 3 [0x00636261]) ∧
    decodeTableWord 32 0x02000005 = some (.feed 5 [0, 0]) := by decide

/-! ### The tables -/

/-- R62, row by row: `KIND`, `BLOCK`, `OUTLEN`, `XOF`, `DS`, `ROUNDS`. -/
theorem test_variant_table : Variant.all.map (fun v => (v.vid, v.row .default)) =
    [(0x00, ⟨.keccak, 144, 28, false, 0x01, 24⟩), (0x01, ⟨.keccak, 136, 32, false, 0x01, 24⟩),
     (0x02, ⟨.keccak, 104, 48, false, 0x01, 24⟩), (0x03, ⟨.keccak, 72, 64, false, 0x01, 24⟩),
     (0x04, ⟨.keccak, 144, 28, false, 0x06, 24⟩), (0x05, ⟨.keccak, 136, 32, false, 0x06, 24⟩),
     (0x06, ⟨.keccak, 104, 48, false, 0x06, 24⟩), (0x07, ⟨.keccak, 72, 64, false, 0x06, 24⟩),
     (0x08, ⟨.keccak, 168, 32, true, 0x1F, 24⟩), (0x09, ⟨.keccak, 136, 64, true, 0x1F, 24⟩),
     (0x10, ⟨.xoodoo, 16, 32, true, 0x01, 12⟩), (0x20, ⟨.rmd, 64, 32, false, 0x80, 0⟩),
     (0x30, ⟨.mix, 4096, 8, false, 0x00, 0⟩), (0x31, ⟨.mix, 16, 4, false, 0x00, 0⟩),
     (0x32, ⟨.mix, 32, 8, false, 0x00, 0⟩)] := by decide

/-- One step of the shift register of R101, `x^8 + x^6 + x^5 + x^4 + 1`, on its eight bits. -/
def lfsrStep (b : BitVec 8) : BitVec 8 := if b.getLsbD 7 then (b <<< 1) ^^^ 0x71 else b <<< 1

/-- `KECCAK_RC[i]` regenerated from the shift register (R101): bit `2^j - 1` is output bit `j + 7i`. -/
def rcFromLfsr (i : Nat) : U64 :=
  (List.range 7).foldl (fun acc j =>
    if ((List.range (j + 7 * i)).foldl (fun b _ => lfsrStep b) (1 : BitVec 8)).getLsbD 0 then acc ||| (1 <<< (2 ^ j - 1))
    else acc) 0

theorem test_keccak_rc_from_lfsr : ∀ i : Fin 24, Keccak.rc i = rcFromLfsr i := by decide +kernel

/-- The walk of R102: position `(x, y)` after `t` moves from `(1, 0)`. -/
def rhoWalk : Nat → Nat × Nat
  | 0 => (1, 0)
  | t + 1 => ((rhoWalk t).2, (2 * (rhoWalk t).1 + 3 * (rhoWalk t).2) % 5)

theorem test_keccak_rho_from_walk : Keccak.rhoOffset 0 0 = 0 ∧
    ∀ t : Fin 24, Keccak.rhoOffset (rhoWalk t).1 (rhoWalk t).2 = ((t.val + 1) * (t.val + 2) / 2) % 64 := by
  decide +kernel

/-- R103: entries 1, 7, 15 and 23 of its list, and entries 1, 8, 17 and 20 of the list of the inverse. -/
theorem test_keccak_pi :
    (Keccak.piDest 1 0 = 10 ∧ Keccak.piDest 2 1 = 11 ∧ Keccak.piDest 0 3 = 23 ∧ Keccak.piDest 3 4 = 19) ∧
    Keccak.piSource 1 0 = 6 ∧ Keccak.piSource 3 1 = 16 ∧ Keccak.piSource 2 3 = 11 ∧ Keccak.piSource 0 4 = 2 := by decide

/-- R145: each row of the message schedules is a permutation of 0 to 15. -/
theorem test_ripemd_rows : ∀ q : Fin 4, ∀ n : Fin 16,
    (∃ j : Fin 16, Ripemd.r[16 * q.val + j.val]? = some n) ∧ ∃ j : Fin 16, Ripemd.rp[16 * q.val + j.val]? = some n := by
  decide +kernel

/-! ### Word primitives: the examples of R76 to R92 -/

theorem test_words : pack32le 0x61 0x62 0x63 0x64 = 0x64636261 ∧ unpack32le 0x01234567 = [0x67, 0x45, 0x23, 0x01] ∧
    pack64le 1 2 3 4 5 6 7 8 = 0x0807060504030201 ∧ unpack64le 0x18 = [0x18, 0, 0, 0, 0, 0, 0, 0] ∧
    rotl32 0x12345678 8 = 0x34567812 ∧ rotl32 0x12345678 40 = 0x34567812 ∧ rotl32 0x80000001 1 = 3 ∧
    rotr32 0x12345678 8 = 0x78123456 ∧ rotl64 0x0123456789ABCDEF 36 = 0x9ABCDEF012345678 ∧
    rotr64 0x0123456789ABCDEF 36 = 0x789ABCDEF0123456 ∧ bswap64 0x0102030405060708 = 0x0807060504030201 ∧
    shr (0xEF46DB3751D8E999 : U64) 33 = 0x77A36D9B := by decide +kernel
theorem test_halves : add64H (0xFFFFFFFF, 1) (1, 0xFFFFFFFE) = (0, 0) ∧
    mul64H (0x85EBCA87, 0x9E3779B1) (0x27D4EB4F, 0xC2B2AE3D) = (0x0F796CA9, 0xDEF35B01) := by decide
theorem test_modular : add32 0x9E3779B1 0x85EBCA77 = 0x24234428 ∧ mul32 0x9E3779B1 0x85EBCA77 = 0xFC4A3B47 ∧
    add64 0x9E3779B185EBCA87 0xC2B2AE3D27D4EB4F = 0x60EA27EEADC0B5D6 ∧
    mul64 0x9E3779B185EBCA87 0xC2B2AE3D27D4EB4F = 0xDEF35B010F796CA9 := by decide

/-! ### The engines: the worked examples of their rules -/

/-- R109: round 1 after round 0 on the all-zero state, four of its lanes. -/
theorem test_keccak_round :
    let a := Keccak.round (Keccak.round (Vector.replicate 25 0) 0) 1
    a[0] = 0x8083 ∧ a[1] = 0x100000000000 ∧ a[13] = 0x202 ∧ a[22] = 0x10000000004 := by decide +kernel
/-- R110: `KECCAK_F` of the all-zero state, four of its lanes. -/
theorem test_keccak_permute :
    let a := Keccak.permute 24 (Vector.replicate 25 0)
    a[0] = 0xF1258F7940E1DDE7 ∧ a[4] = 0x8B284E056253D057 ∧ a[12] = 0x81A57C16DBCF555F ∧ a[24] = 0xEAF1FF7B5CECA249 := by
  decide +kernel
/-- R112: the padded block of `"abc"` under `SHA3_256`. -/
theorem test_keccak_pad : Keccak.padBlock 136 0x06 [0x61, 0x62, 0x63] =
    [0x61, 0x62, 0x63, 0x06] ++ zeros 131 ++ [0x80] ∧ Keccak.padBlock 136 0x06 (zeros 135) = zeros 135 ++ [0x86] := by
  decide +kernel
/-- R132: round 1 after round 0 on the all-zero state. -/
theorem test_xoodoo_round : Xoodoo.round (Xoodoo.round (Vector.replicate 12 0) 0) 1 =
    #v[0x00000060, 0xD0D21D01, 0, 0, 0x000000C0, 0x00243B60, 0x00743A00, 0, 0x3A1D0000, 0, 0, 0xE800B1D0] := by
  decide +kernel
/-- R133: `XOODOO` of the all-zero state. -/
theorem test_xoodoo_permute : Xoodoo.permute 12 (Vector.replicate 12 0) = #v[
    0x89D5D88D, 0xA963FCBF, 0x1B232D19, 0xFFA5A014, 0x36B18106, 0xAFC7C1FE,
    0xAEE57CBE, 0xA77540BD, 0x2E86E870, 0xFEF5B7C9, 0x8B4FADF2, 0x5E4F4062] := by decide +kernel
/-- R155's worked example: both lines after step 0. -/
theorem test_ripemd_step :
    let w := Ripemd.messageWords (0x80 :: zeros 63)
    let p := Ripemd.step w (⟨0x67452301, 0xEFCDAB89, 0x98BADCFE, 0x10325476⟩,
      ⟨0x76543210, 0xFEDCBA98, 0x89ABCDEF, 0x01234567⟩) 0
    p = (⟨0x10325476, 0x52341674, 0xEFCDAB89, 0x98BADCFE⟩, ⟨0x01234567, 0x7F467E4F, 0xFEDCBA98, 0x89ABCDEF⟩) := by
  decide +kernel
/-- R155: the compression of the one block of the empty message. -/
theorem test_ripemd_compress : Ripemd.compress (0x80 :: zeros 63) Ripemd.iv =
    #v[0x4E4CBA02, 0x18CD8E5F, 0xD652FC77, 0x7AE3304D, 0xFB74972D, 0x63025D1E, 0x6801AE80, 0x2D52C5E3] := by
  decide +kernel
/-- R168 to R170, R176: the CityHash helpers. -/
theorem test_city_helpers : Mix.shiftMix 0x8000000000000000 = 0x8000000000010000 ∧
    Mix.hashLen16 1 2 = 0x86668A560EC835A1 ∧ Mix.hashLen16M 1 2 (Mix.k2 + 8) = 0x8CACF058574B93ED ∧
    Mix.weakMix 1 2 3 4 5 6 = (0x0F, 0x0000800000B00006) := by decide +kernel

/-- `seq(n)`: byte `i` is `i mod 256` (95_test_vectors.md). -/
def seq (n : Nat) : List Byte := (List.range n).map fun i => BitVec.ofNat 8 i

/-- The bytes `seq(n)` in a buffer. -/
def seqMem (n : Nat) : Memory := Memory.writeBytes [] 0 (seq n)

/-- R172 to R175, R177: `"a"`, then `seq(n)` for 4, 8, 16, 17, 32, 33 and 64 bytes. -/
theorem test_city_short : Mix.city64 [(0, 0x61)] 1 = 0xB3454265B6DF75E3 ∧
    Mix.city64 (seqMem 4) 4 = 0x82BFFD898958E540 ∧ Mix.city64 (seqMem 8) 8 = 0xAD5A13E1E8E93B98 ∧
    Mix.city64 (seqMem 16) 16 = 0x0EFD25A0A34156D4 ∧ Mix.city64 (seqMem 17) 17 = 0xBBB6A6F8F20D1F1C ∧
    Mix.city64 (seqMem 32) 32 = 0x1A9D8199972CDF49 ∧ Mix.city64 (seqMem 33) 33 = 0x46E1378CBC22DABA ∧
    Mix.city64 (seqMem 64) 64 = 0xE99AB80F5EC7DCA5 := by decide +kernel
/-- R178: one and two iterations. -/
theorem test_city_long : Mix.city64 (seqMem 65) 65 = 0xAC589C990483DD2E ∧
    Mix.city64 (seqMem 129) 129 = 0x46BE8F236F918770 := by
  decide +kernel
/-- R181, R187, R188 and the initial values of R26. -/
theorem test_xxh_helpers : Mix.xxh32Round 0 1 = 0x8DF8C7AD ∧ Mix.xxh64Round 0 1 = 0x7F0E345BE3649CD2 ∧
    Mix.xxh64Merge 0 1 = 0x9D049A611F451521 ∧
    Mix.xxh32Init = #v[0x24234428, 0x85EBCA77, 0x00000000, 0x61C8864F] ∧
    Mix.xxh64Init = #v[0x60EA27EEADC0B5D6, 0xC2B2AE3D27D4EB4F, 0x0000000000000000, 0x61C8864E7A143579] := by
  decide +kernel

/-! ### One step on a small state -/

/-- The parameters the vectors of 95_test_vectors.md use, with another `MIX_BUF_CAP`. -/
def paramsWith (cap : BitVec 32) : Params := { Params.default with mixBufCap := cap }

/-- An unbound machine with these words to come. -/
def waiting (ws : List U32) : State := { State.reset with input := presented ws }

/-- An instance of `v` that has been fed `d` since its reset. -/
def fed (v : Variant) (outlen : BitVec 16) (d : List Byte) : Inst := feedBytes (.fresh (cfgOf .default v outlen)) d

/-- A bound machine whose instance has been fed `d`, with these words to come. -/
def bound (v : Variant) (outlen : BitVec 16) (d : List Byte) (ws : List U32) : State :=
  { waiting ws with status := ⟨true, .noFault⟩, inst := some (fed v outlen d) }

/-- The status bits, the response words and `cpc` after one step. -/
def outcome (s : State) : Option (BitVec 4 × List U32 × Nat) :=
  match step s with
  | .next t => some (t.status.bits, t.responses, t.cpc)
  | .fault _ => none
  | .refused _ => none

/-- The instance after one step. -/
def instAfter (s : State) : Option Inst :=
  match step s with
  | .next t => t.inst
  | .fault _ => none
  | .refused _ => none

/-- 95_test_vectors.md 6.3: accepted and refused output lengths. -/
theorem test_construct_outlen :
    outcome (waiting [0x01000005]) = some (1, [0x00000000], 1) ∧
    outcome (waiting [0x01002005]) = some (1, [0x00000000], 1) ∧
    outcome (waiting [0x01001005]) = some (2, [0x01000000], 1) ∧
    outcome (waiting [0x0100000A]) = some (2, [0x01000000], 1) ∧
    outcome (waiting [0x0101F408]) = some (1, [0x00000000], 1) := by decide
/-- R202: the configuration written, for each kind. -/
theorem test_construct_cfg :
    (instAfter (waiting [0x0101F408])).map Inst.cfg = some ⟨0x08, .keccak, 168, 500, 24, 0x1F, true⟩ ∧
    (instAfter (waiting [0x01000010])).map Inst.cfg = some ⟨0x10, .xoodoo, 16, 32, 12, 0x01, true⟩ ∧
    (instAfter (waiting [0x01000020])).map Inst.cfg = some ⟨0x20, .rmd, 64, 32, 0, 0x80, false⟩ ∧
    (instAfter (waiting [0x01000030])).map Inst.cfg = some ⟨0x30, .mix, 4096, 8, 0, 0, false⟩ := by decide
/-- R203's example: 20 bytes to an `XXH32` instance with `BUFLEN = 14` leave `BUFLEN = 2` and add 20 to `LEN`. -/
theorem test_feed_xxh32 :
    (instAfter (bound .xxh32 4 (seq 14) [0x02000014, 0, 0, 0, 0, 0])).map (fun i => (i.bufLen, i.len)) = some (2, 34) := by
  decide +kernel
/-- 95_test_vectors.md 5.4: `V` after the stripes `seq(16)` and `seq(32)`, the last byte of each arriving by `FEED`. -/
theorem test_feed_stripe :
    (instAfter (bound .xxh32 4 (seq 15) [0x02000001, 0x0F])).map (fun i => (i.engine, i.bufLen, i.len)) =
      some (.xxh32 #v[0xF817BCCB, 0x0222719B, 0xD4B0C0A4, 0xDEBB7574], 0, 16) ∧
    (instAfter (bound .xxh64 8 (seq 31) [0x02000001, 0x1F])).map (fun i => (i.engine, i.bufLen, i.len)) =
      some (.xxh64 #v[0xF4B53B57406B5E99, 0xC3D34B511FC32561, 0xCB26C007C8A1553F, 0x9A44D001A7F91C07], 0, 32) := by
  decide +kernel
/-- 95_test_vectors.md 5.3: no stripe, and every tail loop; a stripe and every tail loop. -/
theorem test_result_xxh32_tails : outcome (bound .xxh32 4 (seq 15) [0x03000000]) = some (1, [4, 0xCE1EC057], 1) ∧
    outcome (bound .xxh32 4 (seq 31) [0x03000000]) = some (1, [4, 0x09F724EF], 1) := by decide +kernel
/-- 95_test_vectors.md 5.4: the empty message; a stripe and every tail loop. -/
theorem test_result_xxh64 :
    outcome (bound .xxh64 8 [] [0x03000000]) = some (1, [8, 0x37DB46EF, 0x99E9D851], 1) ∧
    outcome (bound .xxh64 8 (seq 63) [0x03000000]) = some (1, [8, 0xE2A96AE2, 0x4F8E5FA9], 1) := by decide +kernel
/-- R58: the unused bytes of the last payload word are ignored; the stored bytes stand in arrival order. -/
theorem test_feed_stores : (instAfter (bound .city64 8 [0x7A] [0x02000003, 0xFF636261])).map Inst.buf =
    some [(0, 0x7A), (1, 0x61), (2, 0x62), (3, 0x63)] := by decide
/-- R205's example: `XXH32` of the empty message. -/
theorem test_result_xxh32 : outcome (bound .xxh32 4 [] [0x03000000]) = some (1, [0x00000004, 0x055DCC02], 1) := by
  decide +kernel
/-- R157's example: `RIPEMD256` of the empty message, its first and last data word. -/
theorem test_result_ripemd :
    (outcome (bound .ripemd256 32 [] [0x03000000])).map (fun o => (o.2.1.take 2, o.2.1.drop 8)) =
      some ([0x00000020, 0x4E4CBA02], [0x2D52C5E3]) := by decide +kernel
/-- R206: the message is abandoned and the binding kept. -/
theorem test_reset : outcome (bound .xxh32 4 [1, 2] [0x04000000]) = some (1, [0x00000000], 1) ∧
    instAfter (bound .xxh32 4 [1, 2] [0x04000000]) = some (fed .xxh32 4 []) := by decide
/-- 95_test_vectors.md 6.4: the faults of an unbound machine and of an illegal word. -/
theorem test_protocol_errors :
    outcome (waiting [0x03000000]) = some (6, [0x03000000], 1) ∧
    outcome (waiting [0x02000003, 0x00636261]) = some (6, [0x03000000], 2) ∧
    outcome (waiting [0x00000000]) = some (6, [0x03000000], 1) ∧
    outcome (bound .xxh32 4 [] [0x03000001]) = some (7, [0x03000000], 1) := by decide
/-- R233: a faulted machine answers every command with the stored code. -/
theorem test_sticky_fault :
    outcome { waiting [0x01000005] with status := ⟨false, .configurationError⟩ } = some (2, [0x01000000], 1) := by decide
/-- A bound `CITY64` machine whose store has 4 bytes, fed `d`. -/
def smallCity (d : List Byte) (ws : List U32) : State :=
  { waiting ws with
    params := paramsWith 4, status := ⟨true, .noFault⟩, inst := some (feedBytes (.fresh (cfgOf (paramsWith 4) .city64 8)) d) }

/-- 95_test_vectors.md 6.5 with a store of 4 bytes: the feed that fills it is accepted, one byte more is not. -/
theorem test_city_capacity : outcome (smallCity [1] [0x02000003, 0x00040302]) = some (1, [0x00000000], 2) ∧
    outcome (smallCity [1] [0x02000004, 0x05040302]) = some (9, [0x04000000], 2) ∧
    instAfter (smallCity [1] [0x02000004, 0x05040302]) = (smallCity [1] []).inst := by decide
/-- R250: the words of an incomplete `FEED` before `RST` are abandoned without a response. -/
theorem test_rst : step { waiting [] with input := [.word 0x02000008, .word 1, .rst, .word 0x03000000],
                                          status := ⟨true, .capacityExceeded⟩ } = .next (waiting [0x03000000]) := rfl
/-- R65: no command word, and a `FEED` without its payload. -/
theorem test_stuck : step (waiting []) = .fault .awaitingCommand ∧
    step (waiting [0x02000001]) = .fault .awaitingPayload := ⟨rfl, rfl⟩
/-- `withFetchWord` makes the next step run the table row's word. -/
theorem test_withFetchWord : outcome (State.reset.withFetchWord 32 0x01000030) = some (1, [0x00000000], 1) ∧
    outcome (State.reset.withFetchWord 32 0x00000000) = some (6, [0x03000000], 1) := by decide

/-! ### Witnesses: for every statement with hypotheses, states and operands that meet them, at the boundaries of its
clauses -/

/-- A bound machine satisfies `Ready`, whatever its variant and whatever it was fed. -/
theorem ready_bound (v : Variant) (outreq outlen : BitVec 16) (d : List Byte) (ws : List U32)
    (hn : effectiveOutLen (v.row .default) outreq = some outlen) (hroom : v = .city64 → d.length ≤ 4096) :
    Ready (bound v outlen d ws) (fed v outlen d) := by
  have hv : v ∈ Params.default.variants := by cases v <;> decide
  have hi : InstInv .default (fed v outlen d) := by
    refine (InstInv.fresh (p := .default) rfl ⟨v, hv, outreq, outlen, hn, rfl⟩).feedBytes d fun hc => ?_
    have := hroom (cfgOf_isCity.1 hc)
    show 0 + d.length ≤ 4096
    omega
  exact ⟨⟨rfl, by simp [bound], rfl, fun i h => by cases h; exact hi⟩, rfl, rfl, rfl⟩

/-- One ready machine of each kind. -/
theorem ready_keccak : Ready (bound .shake128 500 [7] []) (fed .shake128 500 [7]) :=
  ready_bound _ 500 _ _ _ rfl (by decide)
theorem ready_xoodyak : Ready (bound .xoodyak 65535 [] []) (fed .xoodyak 65535 []) :=
  ready_bound _ 65535 _ _ _ rfl (by decide)
theorem ready_ripemd : Ready (bound .ripemd256 32 [1, 2] []) (fed .ripemd256 32 [1, 2]) :=
  ready_bound _ 0 _ _ _ rfl (by decide)
theorem ready_city : Ready (bound .city64 8 [1] []) (fed .city64 8 [1]) := ready_bound _ 8 _ _ _ rfl (by decide)
theorem ready_xxh32 : Ready (bound .xxh32 4 [] []) (fed .xxh32 4 []) := ready_bound _ 0 _ _ _ rfl (by decide)
theorem ready_xxh64 : Ready (bound .xxh64 8 [] []) (fed .xxh64 8 []) := ready_bound _ 0 _ _ _ rfl (by decide)

/-- The `CITY64` machine with a store of 4 bytes, one of them used. -/
theorem ready_smallCity : Ready (smallCity [1] []) (feedBytes (.fresh (cfgOf (paramsWith 4) .city64 8)) [1]) := by
  have hi : InstInv (paramsWith 4) (feedBytes (.fresh (cfgOf (paramsWith 4) .city64 8)) [1]) :=
    (InstInv.fresh (p := paramsWith 4) (by decide) ⟨.city64, by decide, 0, 8, rfl, rfl⟩).feedBytes _ fun _ => by decide
  exact ⟨⟨by decide, by decide, rfl, fun i h => by cases h; exact hi⟩, rfl, rfl, rfl⟩

/-- A machine with a stored fault and no binding, for any words to come. -/
def faulted (ws : List U32) : State := { waiting ws with status := ⟨false, .protocolError⟩ }

theorem witness_DecodeOfEncodeIsIdentity : (Instr.feed 5 [1, 0xFFFFFFFF]).wf = true ∧ (Instr.feed 0 []).wf = true ∧
    (Instr.constructUnsupported 0xFFFF 0xFF).wf = true ∧ (Instr.illegal 0x04 0xFFFFFF).wf = true := by decide
theorem witness_EncodeOfDecodeIsIdentity : decode [0x02000004, 9, 8] = .ok (.feed 4 [9], [8]) ∧
    decode [0x01000831] = .ok (.constructXxh32 8, []) := by decide
/-- The payload just complete, another operation, the payload one word short. -/
theorem witness_LengthIsKnownFromTheFirstWord :
    (opOf 0x02000005 = 0x02 ∧ ((argOf 0x02000005).toNat + 3) / 4 ≤ [1, 2].length) ∧ opOf 0x03000000 ≠ 0x02 ∧
    ([1].length < ((argOf 0x02000005).toNat + 3) / 4 ∧ arrivedWords (waiting [0x02000005, 1]).input = [0x02000005, 1] ∧
      afterRst (waiting [0x02000005, 1]).input = none) := by decide
/-- The boundary words of each of R64's ranges, and the legal words next to them. -/
theorem witness_IllegalWordsRaiseProtocolError : State.reset.status.fault = .noFault ∧ opOf 0x00FFFFFF = 0x00 ∧
    5 ≤ (opOf 0x05000000).toNat ∧ ¬ 5 ≤ (opOf 0x04000000).toNat ∧ 5 ≤ (opOf 0xFF000000).toNat ∧
    (opOf 0x03000001 = 0x03 ∧ argOf 0x03000001 ≠ 0) ∧ (opOf 0x04000000 = 0x04 ∧ argOf 0x04000000 = 0) := by decide
/-- Five bytes: payloads that differ in the three unused bytes only. -/
theorem witness_FeedDataLayout : (0x02000005 : U32).extractLsb' 24 8 = 0x02 ∧
    (Instr.feed 5 [1, 0xAA]).wf = true ∧ (Instr.feed 5 [1, 0xBBBBBBAA]).wf = true ∧
    (0xAA : U32).extractLsb' (8 * (4 % 4)) 8 = (0xBBBBBBAA : U32).extractLsb' (8 * (4 % 4)) 8 := by decide
theorem witness_FeedOfPackedBytes : ([1, 2, 3, 4, 5] : List Byte).length < 2 ^ 24 ∧ ([] : List Byte).length < 2 ^ 24 := by
  decide
theorem witness_StepRunsTheDecodedCommand : (Instr.feed 1 [7]).wf = true ∧
    (waiting [0x02000001, 7, 0x03000000]).input = presented (encode (.feed 1 [7])) ++ [.word 0x03000000] := by decide
/-- An incomplete `FEED`, and no word at all, before `RST`. -/
theorem witness_HardwareResetIsTaken : decode (arrivedWords [.word 0x02000001, .rst]) = .error .payloadMissing ∧
    afterRst [.word 0x02000001, .rst] = some [] ∧ decode (arrivedWords [.rst, .word 7]) = .error .noCommandWord ∧
    afterRst [.rst, .word 7] = some [.word 7] := by decide
/-- An `RST` with a word behind it, in one instance's input, and none in the other's. -/
theorem witness_HardwareResetEffect :
    (Block.mk [{ faulted [] with input := [.rst, .word 7] }, faulted [7]]).insts[1]? = some (faulted [7]) ∧
    afterRst [.rst, .word 7] = some [.word 7] ∧ afterRst (faulted [7]).input = none := by decide
theorem witness_RestrictedVariantsAreUnsupported : State.reset.status.fault = .noFault ∧
    Variant.xxh32 ∉ { Params.default with variants := [.xxh64] }.variants := by decide
/-- The stored fault; `OUTREQ` 0, extendable 65535 and 1, equal to the default, and unacceptable. -/
theorem witness_ConstructFollowsItsRule : (faulted []).status.fault ≠ .noFault ∧ State.reset.status.fault = .noFault ∧
    Variant.shake128 ∈ State.reset.params.variants ∧ (Variant.shake128.row State.reset.params).xof = true ∧
    (Variant.sha3_256.row State.reset.params).xof = false ∧
    (32 : BitVec 16) = (Variant.sha3_256.row State.reset.params).outlen ∧
    (16 : BitVec 16) ≠ (Variant.sha3_256.row State.reset.params).outlen ∧
    (0x0101F408 : U32).extractLsb' 24 8 = 0x01 ∧ Variant.vid .shake128 = (0x0101F408 : U32).extractLsb' 0 8 ∧
    ∀ v : Variant, v ∈ Variant.all → v.vid ≠ (0x0100000A : U32).extractLsb' 0 8 := by decide
theorem witness_ConfigurationErrorExactly : (∀ v : Variant, v ∈ State.reset.params.variants) ∧ opOf 0x01001005 = 0x01 ∧ State.reset.status.fault = .noFault ∧
    (exec (.constructSha3_256 16) State.reset = .next (raiseFault .configurationError State.reset)) ∧
    Instr.result.isConstruct = false ∧ exec .result State.reset = .next (raiseFault .protocolError State.reset) :=
  ⟨fun v => by cases v <;> decide, by decide, by decide, rfl, rfl, rfl⟩
/-- A configuration of each kind, and each `VID` of the `MIX` kind. -/
theorem witness_InitStateValues : (fed .keccak224 28 []).cfg.kind = .keccak ∧ (fed .xoodyak 32 []).cfg.kind = .xoodoo ∧
    (fed .ripemd256 32 []).cfg.kind = .rmd ∧ (fed .xxh32 4 []).cfg.kind = .mix ∧ (fed .xxh32 4 []).cfg.vid = 0x31 ∧
    (fed .xxh64 8 []).cfg.kind = .mix ∧ (fed .xxh64 8 []).cfg.vid = 0x32 ∧ (fed .city64 8 []).cfg.kind = .mix ∧
    (fed .city64 8 []).cfg.vid = 0x30 := by decide
theorem witness_FaultEntry : State.reset.status.fault = .noFault ∧
    exec .result State.reset = .next (raiseFault .protocolError State.reset) ∧
    (raiseFault .protocolError State.reset).status.fault ≠ .noFault ∧ (faulted []).status.fault ≠ .noFault ∧
    step (faulted [0x03000000]) = .next { faulted [] with responses := [0x03000000], cpc := 1 } :=
  ⟨rfl, rfl, by decide, by decide, rfl⟩
/-- Both disjuncts: a command, and the hardware reset. -/
theorem witness_OnlyHardwareResetClearsAFault : (faulted [0x04000000]).status.fault ≠ .noFault ∧
    step (faulted [0x04000000]) = .next { faulted [] with responses := [0x03000000], cpc := 1 } ∧
    step { faulted [] with input := [.rst] } = .next State.reset := ⟨by decide, rfl, rfl⟩
theorem witness_UnboundCommandIsProtocolError : State.reset.status.fault = .noFault ∧ State.reset.status.bound = false ∧
    exec (.feed 0 []) State.reset = .next (raiseFault .protocolError State.reset) := ⟨rfl, rfl, rfl⟩
/-- Reset satisfies the invariant; so do the ready machines; the `CITY64` feeds that just fit and just do not. -/
theorem witness_FaultPriority : StateInv State.reset ∧ StateInv (smallCity [1] []) ∧
    (faulted []).status.fault ≠ .noFault ∧ StateInv (faulted []) ∧
    (feedBytes (.fresh (cfgOf (paramsWith 4) .city64 8)) [1]).cfg.vid = 0x30 ∧
    (feedBytes (.fresh (cfgOf (paramsWith 4) .city64 8)) [1]).bufLen + (3 : BitVec 24).toNat = (paramsWith 4).mixBufCap.toNat ∧
    (paramsWith 4).mixBufCap.toNat < (feedBytes (.fresh (cfgOf (paramsWith 4) .city64 8)) [1]).bufLen + (4 : BitVec 24).toNat :=
  ⟨⟨by decide, by decide, by decide, by simp [State.reset]⟩, ready_smallCity.inv, by decide,
    ⟨by decide, by decide, by decide, by simp [faulted, waiting, State.reset]⟩, by decide, by decide, by decide⟩
theorem witness_CapacityExceededStoresNothing :
    Ready (smallCity [1] []) (feedBytes (.fresh (cfgOf (paramsWith 4) .city64 8)) [1]) ∧
    (feedBytes (.fresh (cfgOf (paramsWith 4) .city64 8)) [1]).cfg.vid = 0x30 ∧
    (smallCity [1] []).params.mixBufCap.toNat <
      (feedBytes (.fresh (cfgOf (paramsWith 4) .city64 8)) [1]).bufLen + (4 : BitVec 24).toNat ∧
    exec (.feed 4 [0x05040302]) (smallCity [1] []) = .next (raiseFault .capacityExceeded (smallCity [1] [])) :=
  ⟨ready_smallCity, by decide, by decide, rfl⟩
/-- A state in each of the three controller states. -/
theorem witness_ControllerTransitions : (faulted []).status.controller = .faulted ∧
    State.reset.status.controller = .unbound ∧ (bound .xxh32 4 [] []).status.controller = .ready ∧
    StateInv (bound .xxh32 4 [] []) := ⟨by decide, by decide, by decide, ready_xxh32.inv⟩
/-- The three guards of a command, with a ready machine of each kind for the last (`ready_keccak` to `ready_xxh64`). -/
theorem witness_FeedFollowsItsRule : (faulted []).status.fault ≠ .noFault ∧ State.reset.status.bound = false ∧
    Ready (bound .shake128 500 [7] []) (fed .shake128 500 [7]) ∧ Ready (bound .city64 8 [1] []) (fed .city64 8 [1]) ∧
    InstInv .default (fed .shake128 500 [7]) ∧ (fed .shake128 500 [7]).cfg.vid ≠ 0x30 :=
  ⟨by decide, rfl, ready_keccak, ready_city, ready_keccak.inv.inst _ rfl, by decide⟩
theorem witness_ResultFollowsItsRule : (faulted []).status.fault ≠ .noFault ∧ State.reset.status.bound = false ∧
    Ready (bound .xoodyak 65535 [] []) (fed .xoodyak 65535 []) ∧
    Ready (bound .ripemd256 32 [1, 2] []) (fed .ripemd256 32 [1, 2]) := ⟨by decide, rfl, ready_xoodyak, ready_ripemd⟩
theorem witness_ResetFollowsItsRule : (faulted []).status.fault ≠ .noFault ∧ State.reset.status.bound = false ∧
    Ready (bound .xxh64 8 [] []) (fed .xxh64 8 []) := ⟨by decide, rfl, ready_xxh64⟩
/-- One byte short of the block; and, for `CITY64`, exactly the capacity. -/
theorem witness_FeedBelowTheBlockOnlyAppends : Ready (bound .ripemd256 32 [1, 2] []) (fed .ripemd256 32 [1, 2]) ∧
    (Instr.feed 61 (List.replicate 16 0)).wf = true ∧ (fed .ripemd256 32 [1, 2]).cfg.vid ≠ 0x30 ∧
    (fed .ripemd256 32 [1, 2]).bufLen + (61 : BitVec 24).toNat + 1 = (fed .ripemd256 32 [1, 2]).cfg.block.toNat ∧
    Ready (smallCity [1] []) (feedBytes (.fresh (cfgOf (paramsWith 4) .city64 8)) [1]) ∧
    (feedBytes (.fresh (cfgOf (paramsWith 4) .city64 8)) [1]).bufLen + (3 : BitVec 24).toNat ≤ (paramsWith 4).mixBufCap.toNat :=
  ⟨ready_ripemd, by decide, by decide, by decide, ready_smallCity, by decide⟩
theorem witness_FeedAbsorbsTheCompletedBlock : Ready (bound .ripemd256 32 [1, 2] []) (fed .ripemd256 32 [1, 2]) ∧
    (Instr.feed 62 (List.replicate 16 0)).wf = true ∧ (fed .ripemd256 32 [1, 2]).cfg.vid ≠ 0x30 ∧
    (fed .ripemd256 32 [1, 2]).bufLen + (62 : BitVec 24).toNat = (fed .ripemd256 32 [1, 2]).cfg.block.toNat :=
  ⟨ready_ripemd, by decide, by decide, by decide⟩
theorem witness_NopChangesNothing : Ready (bound .xxh32 4 [] []) (fed .xxh32 4 []) := ready_xxh32
theorem witness_ReuseAfterReset : Ready (bound .shake128 500 [7] []) (fed .shake128 500 [7]) ∧
    Variant.shake128 ∈ (bound .shake128 500 [7] []).params.variants ∧
    effectiveOutLen (Variant.shake128.row (bound .shake128 500 [7] []).params) 500 = some 500 ∧
    (fed .shake128 500 [7]).cfg = cfgOf (bound .shake128 500 [7] []).params .shake128 500 :=
  ⟨ready_keccak, by decide, by decide, by decide⟩
/-- A `RESULT` without a fault, and a command with one. -/
theorem witness_ResponseFormat : StateInv (bound .xxh32 4 [] []) ∧ StateInv State.reset ∧
    (raiseFault .protocolError State.reset).status.fault ≠ .noFault :=
  ⟨ready_xxh32.inv, witness_FaultPriority.1, by decide⟩
theorem witness_FrameOfEveryCommand : exec .reset State.reset = .next (raiseFault .protocolError State.reset) ∧
    Instr.reset.isConstruct = false := ⟨rfl, rfl⟩
theorem witness_InvariantHoldsAfterReset : Initial (waiting [0x01000010]) := ⟨rfl, rfl, rfl, rfl, rfl⟩
theorem witness_StepKeepsTheInvariant : StateInv (bound .xxh32 4 [] [0x04000000]) ∧
    ∃ t, step (bound .xxh32 4 [] [0x04000000]) = .next t :=
  ⟨(ready_bound .xxh32 0 4 [] [0x04000000] rfl (by decide)).inv, _, rfl⟩
/-- A run of one step from reset: `CONSTRUCT RIPEMD256`. -/
theorem witness_InvariantViolationIsUnreachable : Initial (waiting [0x01000020]) ∧
    ∃ s a, Reachable (waiting [0x01000020]) s ∧ s.inst = some a ∧ s.status.bound = true :=
  ⟨⟨rfl, rfl, rfl, rfl, rfl⟩, _, _, .step .start rfl, rfl, rfl⟩
/-- The second clause of the same statement, in a state that no run reaches: bound, without an instance. -/
theorem witness_ViolationReported : exec .reset { State.reset with status := ⟨true, .noFault⟩ } =
    .next (raiseFault .invariantViolation { State.reset with status := ⟨true, .noFault⟩ }) := rfl
/-- A run that binds `XXH32` and one that binds `CITY64`, for the two clauses of `HoldsMessage` on the `VID`. -/
theorem witness_InstanceHoldsItsMessage : Initial (waiting [0x01000031]) ∧ Initial (waiting [0x01000030]) ∧
    (∃ s m a, Run (waiting [0x01000031]) s m ∧ s.inst = some a ∧ a.cfg.vid ≠ 0x30) ∧
    ∃ s m a, Run (waiting [0x01000030]) s m ∧ s.inst = some a ∧ a.cfg.vid = 0x30 :=
  ⟨⟨rfl, rfl, rfl, rfl, rfl⟩, ⟨rfl, rfl, rfl, rfl, rfl⟩, ⟨_, _, _, .step .start rfl, rfl, by decide⟩,
    ⟨_, _, _, .step .start rfl, rfl, by decide⟩⟩
/-- The fresh `RIPEMD256` machine carries the empty message, and a `FEED` of one byte makes it that byte. -/
theorem witness_StepKeepsTheMessage : Carries (bound .ripemd256 32 [] [0x02000001, 7]) [] ∧
    ∃ t, step (bound .ripemd256 32 [] [0x02000001, 7]) = .next t ∧
      stepMessage (bound .ripemd256 32 [] [0x02000001, 7]) t [] = [7] :=
  ⟨⟨(ready_bound .ripemd256 0 32 [] [0x02000001, 7] rfl (by decide)).inv, fun a h => by
      cases h
      exact ⟨rfl, rfl, fun _ => by decide, fun h => absurd h (by decide), fun x _ => rfl, rfl, rfl⟩⟩, _, rfl, rfl⟩
/-- A bound and an unbound machine; a `CONSTRUCT` that succeeds and one that fails. -/
theorem witness_CfgFollowsItsRule : StateInv State.reset ∧ State.reset.status.bound = false ∧
    StateInv (bound .shake128 500 [7] []) ∧ exec (Variant.construct 32 .sha3_256) State.reset =
      .next (respond .noFault [] ((State.reset.setStatus ⟨true, .noFault⟩).setInst (.fresh (cfgOf .default .sha3_256 32)))) ∧
    effectiveOutLen (Variant.sha3_256.row State.reset.params) 32 = some 32 ∧
    exec (.constructSha3_256 16) (bound .shake128 500 [7] []) =
      .next (raiseFault .configurationError (bound .shake128 500 [7] [])) ∧
    (raiseFault .configurationError (bound .shake128 500 [7] [])).inst = none :=
  ⟨witness_FaultPriority.1, rfl, ready_keccak.inv, rfl, by decide, rfl, rfl⟩
/-- A squeeze of two blocks and a bit for either sponge. -/
theorem witness_SqueezedBytes : 0 < 168 ∧ 168 ≤ 200 ∧ 0 < 337 ∧ 336 < 337 := by decide
/-- Five bytes as 2, 0 and 3; and the same to the `CITY64` machine with room for three more. -/
theorem witness_StreamingEquivalence : Ready (bound .xxh32 4 [] []) (fed .xxh32 4 []) ∧
    Ready (smallCity [1] []) (feedBytes (.fresh (cfgOf (paramsWith 4) .city64 8)) [1]) ∧
    (∀ c ∈ [((2 : BitVec 24), [(0x0201 : U32)]), (0, []), (3, [0x050403])], (Instr.feed c.1 c.2).wf = true) ∧
    (Instr.feed 5 [0x04030201, 5]).wf = true ∧
    [((2 : BitVec 24), [(0x0201 : U32)]), (0, []), (3, [0x050403])].flatMap (fun c => feedData c.1 c.2) =
      feedData 5 [0x04030201, 5] ∧
    (paramsWith 4).mixBufCap.toNat < (feedBytes (.fresh (cfgOf (paramsWith 4) .city64 8)) [1]).bufLen + (5 : BitVec 24).toNat :=
  ⟨ready_xxh32, ready_smallCity, by decide, by decide, by decide, by decide⟩
theorem witness_HashAnswersTheDigest : StateInv State.reset ∧ State.reset.status.fault = .noFault ∧
    Variant.city64 ∈ State.reset.params.variants ∧
    effectiveOutLen (Variant.city64.row State.reset.params) 0 = some 8 ∧
    (List.replicate 4096 (0 : Byte)).length ≤ State.reset.params.mixBufCap.toNat :=
  ⟨witness_FaultPriority.1, rfl, by decide, by decide, by rw [List.length_replicate]; decide⟩
/-- A command, the hardware reset, and nothing to do. -/
theorem witness_InstancesAreIndependent : fetch (waiting [0x01000010]).input = .command (.constructXoodyak 0) 1 ∧
    fetch [.word 0x02000001, .rst, .word 7] = .rst [.word 7] ∧ fetch State.reset.input = .stuck .awaitingCommand := by
  decide
/-- R250: one `RST` resets both instances of a block. -/
theorem test_block_rst :
    Block.stepAt ⟨[bound .xxh32 4 [1] [], { faulted [] with input := [.rst] }]⟩ ⟨1, by decide⟩ =
      .next ⟨[State.reset, State.reset]⟩ := rfl
theorem witness_KeccakDigestFormula : (Variant.sha3_512.row .default).kind = .keccak := rfl
theorem witness_XoodyakDigestFormula : (seq 17).length < 2 ^ 64 := by decide
/-- An instance for each of the three clauses. -/
theorem witness_MixDigestBytes : InstInv .default (fed .city64 8 [1]) ∧ InstInv .default (fed .xxh32 4 []) ∧
    InstInv .default (fed .xxh64 8 []) ∧ (fed .city64 8 [1]).cfg.kind = .mix ∧ (fed .xxh32 4 []).cfg.kind = .mix ∧
    (fed .xxh64 8 []).cfg.kind = .mix :=
  ⟨ready_city.inv.inst _ rfl, ready_xxh32.inv.inst _ rfl, ready_xxh64.inv.inst _ rfl, by decide, by decide, by decide⟩
/-- The bounds of the bands: the end of each and the start of the next. -/
theorem witness_CityBranches : (1 ≤ 3 ∧ 3 ≤ 3) ∧ (4 ≤ 4 ∧ 7 ≤ 7) ∧ (8 ≤ 8 ∧ 16 ≤ 16) ∧ (17 ≤ 17 ∧ 32 ≤ 32) ∧
    (33 ≤ 33 ∧ 64 ≤ 64) ∧ 65 ≤ 65 := by decide
theorem witness_ShorterOutputIsAPrefix : 0 < (Variant.shake128.row .default).block.toNat ∧
    (Variant.shake128.row .default).block.toNat ≤ 200 := by decide
/-- The pad byte at offset 0 and at offset 55, the last that leaves room for the length. -/
theorem witness_LengthFieldByMemWrite : InstInv .default (fed .ripemd256 32 (seq 55)) ∧
    (fed .ripemd256 32 (seq 55)).bufLen ≤ 55 ∧ InstInv .default (fed .ripemd256 32 []) :=
  ⟨(ready_bound .ripemd256 0 32 (seq 55) [] rfl (by decide)).inv.inst _ rfl, by decide +kernel,
    (ready_bound .ripemd256 0 32 [] [] rfl (by decide)).inv.inst _ rfl⟩
/-- The block bounds and the state bytes of R134, and the bounds of a plane. -/
theorem witness_XoodooStepFormulas : ([] : List Byte).length ≤ 16 ∧ (seq 16).length ≤ 16 ∧ 47 < 48 ∧ 0 < 4 ∧ 3 < 4 ∧
    0 < 3 ∧ 2 < 3 := by decide
theorem witness_KeccakStepFormulas : 0 < 5 ∧ 4 < 5 := by decide
/-- Bit 0 and bit 31 of the words `x`, `y`, `z` of R149. -/
theorem witness_SelectorTruthTables : 0 < 32 ∧ 31 < 32 := by decide
/-- The lowest and the highest bit of either width. -/
theorem witness_RotatesWrap : 0 < 32 ∧ 31 < 32 ∧ 0 < 64 ∧ 63 < 64 := by decide
theorem witness_UnpackInvertsPack64 : 7 < 8 ∧ unpack64le 0x0807060504030201 = [1, 2, 3, 4, 5, 6, 7, 8] := by decide

end Sys2Proof.Tests
end

/-! Proofs of the family 10_state.md: what `CFG` may hold, and which commands write it (R12). -/

namespace Sys2Proof.Machine

/-! ### Legal values of `CFG` -/

theorem Variant.row_outlen_pos (p : Params) (v : Variant) : 0 < (v.row p).outlen.toNat := by
  cases v <;> simp [Variant.row]

/-- The `ROUNDS` and `DS` columns of R62 for the Keccak variants. -/
theorem Variant.row_of_keccak {p : Params} {v : Variant} (h : (v.row p).kind = .keccak) :
    (v.row p).rounds = 24 ∧ ((v.row p).ds = 0x01 ∨ (v.row p).ds = 0x06 ∨ (v.row p).ds = 0x1F) := by
  cases v <;> simp_all [Variant.row]

/-- The only Xoodoo variant is `XOODYAK`. -/
theorem Variant.row_of_xoodoo {p : Params} {v : Variant} (h : (v.row p).kind = .xoodoo) :
    (v.row p).rounds = 12 ∧ (v.row p).ds = 0x01 := by
  cases v <;> simp_all [Variant.row]

/-- The only Merkle-Damgård variant is `RIPEMD256`. -/
theorem Variant.row_of_rmd {p : Params} {v : Variant} (h : (v.row p).kind = .rmd) :
    (v.row p).rounds = 0 ∧ (v.row p).ds = 0x80 := by
  cases v <;> simp_all [Variant.row]

/-- The `ROUNDS` and `DS` columns of R62 for the word-mixing variants, which use neither. -/
theorem Variant.row_of_mix {p : Params} {v : Variant} (h : (v.row p).kind = .mix) :
    (v.row p).rounds = 0 ∧ (v.row p).ds = 0x00 := by
  cases v <;> simp_all [Variant.row]

/-- All an accepted output length can be: the row's own, or the requested one of an extendable row (R68). -/
theorem effectiveOutLen_cases {row : Row} {outreq n : BitVec 16} (h : effectiveOutLen row outreq = some n) :
    n = row.outlen ∨ (row.xof = true ∧ outreq ≠ 0 ∧ n = outreq) := by
  unfold effectiveOutLen at h
  split_ifs at h with h0 hx he
  · cases h; exact .inl rfl
  · cases h; exact .inr ⟨hx, h0, rfl⟩
  · cases h; exact .inl rfl

theorem effectiveOutLen_of_not_xof {row : Row} {outreq n : BitVec 16} (hx : row.xof = false)
    (h : effectiveOutLen row outreq = some n) : n = row.outlen :=
  (effectiveOutLen_cases h).resolve_right fun ⟨hx', _⟩ => by simp [hx] at hx'

theorem effectiveOutLen_pos {row : Row} {outreq n : BitVec 16} (hrow : 0 < row.outlen.toNat)
    (h : effectiveOutLen row outreq = some n) : 0 < n.toNat := by
  obtain rfl | ⟨-, h0, rfl⟩ := effectiveOutLen_cases h
  · exact hrow
  · exact Nat.pos_of_ne_zero fun hz => h0 (BitVec.eq_of_toNat_eq hz)

/-- While `BOUND` is 0 no field but `STATUS` exists (R12, R26). -/
theorem StateInv.inst_of_unbound {s : State} (h : StateInv s) (hb : s.status.bound = false) : s.inst = none := by
  simpa [hb] using h.exists_iff_bound

/-! ### Writers of `CFG` -/

/-- A `CONSTRUCT` that ends without a fault has written the configuration of R202. -/
theorem constructVariant_cfg {v : Variant} {outreq outlen : BitVec 16} {s t : State}
    (h : constructVariant v outreq s = .next t) (ht : t.status.fault = .noFault)
    (hn : effectiveOutLen (v.row s.params) outreq = some outlen) :
    t.inst.map Inst.cfg = some (cfgOf s.params v outlen) := by
  obtain ⟨hf, h⟩ | ⟨-, -, h⟩ | ⟨-, -, m, hm, h⟩ := constructVariant_cases h
  · cases h; exact absurd ht hf
  · cases h; simp at ht
  · cases h
    cases hm.symm.trans hn
    rfl

/-- A command that raises `ConfigurationError` leaves `CFG` and the data state without value (R12, R202). -/
theorem Answers.inst_of_configurationError {s t : State} {i : Instr} (h : Answers s i t)
    (hs : s.status.fault = .noFault) (ht : t.status.fault = .configurationError) : t.inst = none := by
  cases h with
  | stored _ hf => exact absurd hs hf
  | unsupported | unconfigurable => rfl
  | illegal | unbound | violated | full => simp at ht
  | constructed => simp at ht
  | fed | result | reset => simp [hs] at ht

/-- No command but `CONSTRUCT` writes `CFG` (R12). -/
theorem Answers.cfg_of_not_construct {s t : State} {i : Instr} (h : Answers s i t) (hc : i.isConstruct = false) :
    t.inst.map Inst.cfg = s.inst.map Inst.cfg := by
  cases h with
  | stored | illegal | unbound | violated | full => rfl
  | unsupported => cases hc
  | unconfigurable | constructed => simp at hc
  | fed _ _ a _ _ hi => simp [hi]
  | result a _ _ hi | reset a _ _ hi => simp [hi, Inst.fresh]

/-- Settles O15: the legal values are those of the row that the invariant names; the writers are read off the cases of
an answer. -/
theorem cfgFollowsItsRule : Obligations.CfgFollowsItsRule := by
  intro s hs
  refine ⟨fun hb => ?_, fun a ha => ?_,
    fun i t h => ⟨?_, fun _ hf ht => ?_, (Answers.of_exec h).cfg_of_not_construct⟩⟩
  · rw [hs.inst_of_unbound hb, Option.map_none]
  · obtain ⟨v, hv, outreq, outlen, hn, hcfg⟩ := (hs.inst a ha).cfg
    have hkind : a.cfg.kind = (v.row s.params).kind := by rw [hcfg]; exact Variant.row_kind s.params v
    rw [hkind, hcfg]
    exact ⟨v, hv, rfl, (Variant.row_kind s.params v).symm, rfl, rfl, fun hx => effectiveOutLen_of_not_xof hx hn,
      effectiveOutLen_pos (Variant.row_outlen_pos s.params v) hn, Variant.row_of_keccak, Variant.row_of_xoodoo,
      Variant.row_of_rmd, Variant.row_of_mix⟩
  · rintro v outreq outlen rfl ht hn
    rw [exec_construct] at h
    exact constructVariant_cfg h ht hn
  · rw [(Answers.of_exec h).inst_of_configurationError hf ht, Option.map_none]

end Sys2Proof.Machine

/-! Proofs of the family 30_encoding.md: the decoder case by case (R64, R65), where bytes stand in stream words (R58),
and the words of a response (R61). -/

namespace Sys2Proof

/-! ### The decoder -/

theorem illegalFields_iff {op : BitVec 8} {arg : BitVec 24} :
    illegalFields op arg = true ↔ op = 0x00 ∨ 5 ≤ op.toNat ∨ ((op = 0x03 ∨ op = 0x04) ∧ arg ≠ 0) := by
  simp [illegalFields, or_assoc]

theorem Instr.wf_feed {n : BitVec 24} {p : List U32} : (Instr.feed n p).wf = true ↔ p.length = (n.toNat + 3) / 4 := by
  simp [Instr.wf, payloadWords]

@[simp] theorem decodeConstruct_isConstruct (arg : BitVec 24) : (decodeConstruct arg).isConstruct = true := by
  unfold decodeConstruct
  split
  · exact Machine.Variant.construct_isConstruct _ _
  · rfl

@[simp] theorem decodeConstruct_ne_illegal (arg : BitVec 24) (op : BitVec 8) (arg' : BitVec 24) :
    decodeConstruct arg ≠ .illegal op arg' := fun h => by
  simpa [h, Instr.isConstruct] using decodeConstruct_isConstruct arg

/-- A `FEED` word with its payload behind it (R58). -/
theorem decode_feed {w : U32} {rest : List U32} (h : opOf w = 0x02) (hp : payloadWords (argOf w) ≤ rest.length) :
    decode (w :: rest) =
      .ok (.feed (argOf w) (rest.take (payloadWords (argOf w))), rest.drop (payloadWords (argOf w))) := by
  simp [decode, h, Nat.not_lt.2 hp]

/-- A `FEED` word whose payload has not all arrived (R65). -/
theorem decode_feed_missing {w : U32} {rest : List U32} (h : opOf w = 0x02)
    (hp : rest.length < payloadWords (argOf w)) : decode (w :: rest) = .error .payloadMissing := by
  simp [decode, h, hp]

/-- All that a command word other than a `FEED` can be: each is one word long (R57, R59, R60, R64). -/
theorem decode_one_word_cases {w : U32} (rest : List U32) (h : opOf w ≠ 0x02) :
    (opOf w = 0x01 ∧ decode (w :: rest) = .ok (decodeConstruct (argOf w), rest)) ∨
    (opOf w = 0x03 ∧ argOf w = 0 ∧ decode (w :: rest) = .ok (.result, rest)) ∨
    (opOf w = 0x04 ∧ argOf w = 0 ∧ decode (w :: rest) = .ok (.reset, rest)) ∨
    (illegalFields (opOf w) (argOf w) = true ∧ decode (w :: rest) = .ok (.illegal (opOf w) (argOf w), rest)) := by
  simp only [decode, if_neg h]
  split_ifs with h1 h3 h4
  · exact .inl ⟨h1, rfl⟩
  · exact .inr (.inl ⟨h3.1, h3.2, rfl⟩)
  · exact .inr (.inr (.inl ⟨h4.1, h4.2, rfl⟩))
  · refine .inr (.inr (.inr ⟨illegalFields_iff.2 ?_, rfl⟩))
    by_cases ha : argOf w = 0
    · simp only [ha, and_true] at h3 h4
      bv_omega
    · simp only [ha, ne_eq, not_false_eq_true, and_true]
      bv_omega

/-- The decoder reads an illegal command exactly from the words of R64. -/
theorem decode_illegal_iff {w : U32} {rest : List U32} :
    decode (w :: rest) = .ok (.illegal (opOf w) (argOf w), rest) ↔ illegalFields (opOf w) (argOf w) = true := by
  by_cases h2 : opOf w = 0x02
  · have hlegal : illegalFields (opOf w) (argOf w) = false := by simp [illegalFields, h2]
    obtain hp | hp := Nat.lt_or_ge rest.length (payloadWords (argOf w))
    · simp [decode_feed_missing h2 hp, hlegal]
    · simp [decode_feed h2 hp, hlegal]
  · obtain ⟨h1, hd⟩ | ⟨h3, ha, hd⟩ | ⟨h4, ha, hd⟩ | ⟨hill, hd⟩ := decode_one_word_cases rest h2
    · simp [hd, h1, illegalFields]
    · simp [hd, h3, ha, illegalFields]
    · simp [hd, h4, ha, illegalFields]
    · simp [hd, hill]

end Sys2Proof

namespace Sys2Proof.Machine

/-- Without a complete command and without an `RST` the step does not exist (R65). -/
theorem step_of_decode_error {s : State} {e : DecodeError} (hd : decode (arrivedWords s.input) = .error e)
    (hr : afterRst s.input = none) : step s = .fault (stuckBy e) := by
  simp [step, fetch, hd, hr, advance]

/-- Settles O4: the two ways a `FEED` can decode, and the cases of every other command word. -/
theorem lengthIsKnownFromTheFirstWord : Obligations.LengthIsKnownFromTheFirstWord := by
  intro w rest
  refine ⟨fun h hp => ?_, fun h => ?_, fun h hp s hw hr => ?_⟩
  · rw [Nat.add_comm 1, List.drop_succ_cons]
    exact ⟨_, decode_feed h hp⟩
  · obtain ⟨-, hd⟩ | ⟨-, -, hd⟩ | ⟨-, -, hd⟩ | ⟨-, hd⟩ := decode_one_word_cases rest h <;> exact ⟨_, hd⟩
  · exact step_of_decode_error (hw ▸ decode_feed_missing h hp) hr

/-- An illegal word on an unfaulted machine (R234). -/
theorem exec_illegal {op : BitVec 8} {arg : BitVec 24} {s : State} (hf : s.status.fault = .noFault) :
    exec (.illegal op arg) s = .next (raiseFault .protocolError s) := by
  simp [exec, execIllegal, hf]

/-- Settles O5: the decoder reads `illegal` exactly from R64's fields, and the fault entry of R233 writes what is
claimed. -/
theorem illegalWordsRaiseProtocolError : Obligations.IllegalWordsRaiseProtocolError := by
  intro w rest
  refine ⟨illegalFields_iff.symm.trans decode_illegal_iff.symm, fun s hf => ?_⟩
  rw [exec_illegal hf]
  rfl

/-! ### Bytes in stream words -/

theorem unpackWords_cons (w : U32) (ws : List U32) : unpackWords (w :: ws) = unpack32le w ++ unpackWords ws := rfl

@[simp] theorem unpack32le_length (w : U32) : (unpack32le w).length = 4 := rfl

@[simp] theorem unpackWords_length (ws : List U32) : (unpackWords ws).length = 4 * ws.length := by
  induction ws with
  | nil => rfl
  | cons w ws ih => simp [unpackWords_cons, ih]; omega

/-- Byte `j` of a word (R77). -/
theorem unpack32le_getElem? {w : U32} {j : Nat} (h : j < 4) : (unpack32le w)[j]? = some (w.extractLsb' (8 * j) 8) := by
  match j, h with
  | 0, _ | 1, _ | 2, _ | 3, _ => rfl

/-- Byte `k` of a list of stream words is byte `k mod 4` of word `k / 4` (R58, R61). -/
theorem unpackWords_getElem? (ws : List U32) (k : Nat) :
    (unpackWords ws)[k]? = ws[k / 4]?.map fun w => w.extractLsb' (8 * (k % 4)) 8 := by
  induction ws generalizing k with
  | nil => simp [unpackWords]
  | cons w ws ih =>
    rw [unpackWords_cons]
    by_cases hk : k < 4
    · rw [List.getElem?_append_left hk, unpack32le_getElem? hk, Nat.div_eq_of_lt hk, Nat.mod_eq_of_lt hk]
      rfl
    · obtain ⟨j, rfl⟩ : ∃ j, k = j + 4 := ⟨k - 4, by omega⟩
      rw [List.getElem?_append_right (by simp), unpack32le_length, Nat.add_sub_cancel, ih,
        Nat.add_div_right j (by decide), Nat.add_mod_right]
      rfl

/-- Unpacking a packed word gives its four bytes back (R76, R77). -/
@[simp] theorem unpack32le_pack32le (b0 b1 b2 b3 : Byte) : unpack32le (pack32le b0 b1 b2 b3) = [b0, b1, b2, b3] := by
  simp only [unpack32le, List.cons.injEq, and_true]
  refine ⟨?_, ?_, ?_, ?_⟩ <;> ext i hi <;> simp [pack32le] <;> grind

@[simp] theorem packWords_length (d : List Byte) : (packWords d).length = (d.length + 3) / 4 := by
  induction d using packWords.induct with
  | case1 => rfl
  | case2 | case3 | case4 => simp [packWords]
  | case5 b0 b1 b2 b3 r ih => simp [packWords, ih]; omega

/-- Packed bytes unpack to themselves, followed by zeros to the end of the last word (R58, R61). -/
theorem unpackWords_packWords (d : List Byte) :
    unpackWords (packWords d) = d ++ zeros (4 * ((d.length + 3) / 4) - d.length) := by
  induction d using packWords.induct with
  | case1 => rfl
  | case2 | case3 | case4 => simp [packWords, unpackWords, zeros]
  | case5 b0 b1 b2 b3 r ih =>
    have hpad : 4 * ((r.length + 4 + 3) / 4) - (r.length + 4) = 4 * ((r.length + 3) / 4) - r.length := by omega
    simp [packWords, unpackWords_cons, ih, hpad]

/-- Byte `k` of packed bytes, in its word: byte `k` of the list, and zero behind its end (R61). -/
theorem packWords_byte {d : List Byte} {k : Nat} (h : k < 4 * (packWords d).length) :
    ∃ x, (packWords d)[k / 4]? = some x ∧ x.extractLsb' (8 * (k % 4)) 8 = d.getD k 0 := by
  obtain ⟨x, hx⟩ : ∃ x, (packWords d)[k / 4]? = some x := ⟨_, List.getElem?_eq_getElem (by omega)⟩
  refine ⟨x, hx, ?_⟩
  have hbyte := unpackWords_getElem? (packWords d) k
  rw [hx, unpackWords_packWords, Option.map_some] at hbyte
  by_cases hk : k < d.length
  · rw [List.getElem?_append_left hk] at hbyte
    simp [hbyte]
  · rw [List.getElem?_append_right (by omega), zeros, List.getElem?_replicate] at hbyte
    rw [packWords_length] at h
    rw [if_pos (by omega)] at hbyte
    simp [List.getElem?_eq_none (Nat.le_of_not_lt hk), ← Option.some.inj hbyte]

/-! ### The data bytes of a `FEED` -/

theorem feedData_length {n : BitVec 24} {p : List U32} (h : (Instr.feed n p).wf = true) :
    (feedData n p).length = n.toNat := by
  rw [Instr.wf_feed] at h
  simp [feedData]
  omega

/-- Data byte `k` of a `FEED` (R58). -/
theorem feedData_getElem? {n : BitVec 24} {p : List U32} {k : Nat} (hk : k < n.toNat) :
    (feedData n p)[k]? = p[k / 4]?.map fun w => w.extractLsb' (8 * (k % 4)) 8 := by
  rw [feedData, List.getElem?_take_of_lt hk, unpackWords_getElem?]

/-- The payload word that holds data byte `k` has arrived. -/
theorem feedData_word {n : BitVec 24} {p : List U32} {k : Nat} (h : (Instr.feed n p).wf = true) (hk : k < n.toNat) :
    ∃ w, p[k / 4]? = some w := by
  rw [Instr.wf_feed] at h
  exact ⟨_, List.getElem?_eq_getElem (by omega)⟩

/-- Payloads that agree on the bits of the data bytes carry the same data (R58). -/
theorem feedData_congr {n : BitVec 24} {p q : List U32} (hp : (Instr.feed n p).wf = true)
    (hq : (Instr.feed n q).wf = true)
    (h : ∀ k v w, k < n.toNat → p[k / 4]? = some v → q[k / 4]? = some w →
      v.extractLsb' (8 * (k % 4)) 8 = w.extractLsb' (8 * (k % 4)) 8) : feedData n p = feedData n q := by
  refine List.ext_getElem? fun k => ?_
  by_cases hk : k < n.toNat
  · obtain ⟨v, hv⟩ := feedData_word hp hk
    obtain ⟨w, hw⟩ := feedData_word hq hk
    rw [feedData_getElem? hk, feedData_getElem? hk, hv, hw, Option.map_some, Option.map_some, h k v w hk hv hw]
  · rw [List.getElem?_eq_none (by rw [feedData_length hp]; omega),
      List.getElem?_eq_none (by rw [feedData_length hq]; omega)]

/-- A `FEED` reads its payload through the data bytes alone (R203). -/
theorem exec_feed_congr {n : BitVec 24} {p q : List U32} (h : feedData n p = feedData n q) (s : State) :
    exec (.feed n p) s = exec (.feed n q) s := by
  simp only [exec, execFeed, h]

/-- Settles O6: byte `k` of the unpacked words gives the layout, and equal data bytes are all a `FEED` sees. -/
theorem feedDataLayout : Obligations.FeedDataLayout := by
  refine ⟨fun _ _ => decode_feed, fun n p hp =>
    ⟨Instr.wf_feed.1 hp, feedData_length hp, fun k hk => ?_, fun q hq h s => exec_feed_congr (feedData_congr hp hq h) s⟩⟩
  obtain ⟨w, hw⟩ := feedData_word hp hk
  exact ⟨w, hw, by rw [feedData_getElem? hk, hw, Option.map_some]⟩

/-! ### The length of a digest -/

@[simp] theorem stBytes64_length {n : Nat} (a : Vector U64 n) : (stBytes64 a).length = 8 * n := by
  simp [stBytes64, List.length_flatMap, unpack64le, Nat.mul_comm]

@[simp] theorem stBytes32_length {n : Nat} (x : Vector U32 n) : (stBytes32 x).length = 4 * n := by
  simp [stBytes32, List.length_flatMap, Nat.mul_comm]

/-- `KECCAK_SQUEEZE` gives as many bytes as are wanted, at any rate the state can hold (R113). -/
theorem Keccak.squeeze_length {rounds block : Nat} (h0 : 0 < block) (h200 : block ≤ 200) :
    ∀ {fuel need : Nat} (a : KeccakLanes), need ≤ fuel → (Keccak.squeeze rounds block fuel need a).1.length = need
  | 0, need, a, h => by simp [Keccak.squeeze, Nat.le_zero.1 h]
  | fuel + 1, need, a, h => by
    rw [Keccak.squeeze]
    split
    · simp; omega
    · have ih := squeeze_length (rounds := rounds) h0 h200 (fuel := fuel) (need := need - block)
        (Keccak.permute rounds a) (by omega)
      simp [ih]
      omega

/-- `XOODYAK_SQUEEZE` gives as many bytes as are wanted (R136). -/
theorem Xoodoo.squeeze_length {rounds : Nat} :
    ∀ {fuel need : Nat} (x : XoodooLanes), need ≤ fuel → (Xoodoo.squeeze rounds fuel need x).1.length = need
  | 0, need, x, h => by simp [Xoodoo.squeeze, Nat.le_zero.1 h]
  | fuel + 1, need, x, h => by
    rw [Xoodoo.squeeze]
    split
    · simp; omega
    · have ih := squeeze_length (rounds := rounds) (fuel := fuel) (need := need - 16)
        (Xoodoo.down rounds [] false x) (by omega)
      simp [ih]
      omega

@[simp] theorem Mix.extract_length (order : ByteOrder) (w : Nat) (h : U64) : (Mix.extract order w h).length = w := by
  cases order <;> simp [Mix.extract]

/-- The rate of every Keccak variant (R62). -/
theorem CfgFrom.block_of_keccak {p : Params} {c : Cfg} (h : CfgFrom p c) (hk : c.kind = .keccak) :
    0 < c.block.toNat ∧ c.block.toNat ≤ 200 := by
  obtain ⟨v, -, -, n, -, rfl⟩ := h
  revert hk
  cases v <;> simp [cfgOf, Variant.vid, Variant.row, kindOfVid, Kind.ofBits]

/-- The output length of `RIPEMD256`, the only variant of its kind, is fixed (R62, R68). -/
theorem CfgFrom.outlen_of_rmd {p : Params} {c : Cfg} (h : CfgFrom p c) (hk : c.kind = .rmd) : c.outlen = 32 := by
  obtain ⟨v, -, outreq, n, hn, rfl⟩ := h
  have hrow : (v.row p).kind = .rmd := (Variant.row_kind p v).symm.trans hk
  cases v <;> simp [Variant.row] at hrow
  exact effectiveOutLen_of_not_xof rfl hn

/-- A digest has `CFG.OUTLEN` bytes (R201, R205). -/
theorem digest_length {p : Params} {a : Inst} (h : InstInv p a) : (digest p a).length = a.cfg.outlen.toNat := by
  have hkind := h.engine
  cases he : a.engine with
  | keccak l m =>
    obtain ⟨h0, h200⟩ := h.cfg.block_of_keccak (by simpa [he, Engine.agrees] using hkind)
    simp [digest, finalize, extractOutput, he, Keccak.squeeze_length h0 h200]
  | xoodoo x m => simp [digest, finalize, extractOutput, he, Xoodoo.squeeze_length]
  | rmd c =>
    have hlen := h.cfg.outlen_of_rmd (by simpa [he, Engine.agrees] using hkind)
    simp [digest, finalize, extractOutput, he, hlen]
  | xxh32 | xxh64 | city64 => simp [digest, finalize, extractOutput, he]

/-! ### Responses -/

/-- `ST` of a status word, as the host reads it (R61). -/
@[simp] theorem statusWord_st (c : FaultCode) (rn : BitVec 24) : (statusWord c rn).extractLsb' 24 8 = c.st :=
  opOf_commandWord c.st rn

/-- `RN` of a status word, as the host reads it (R61). -/
@[simp] theorem statusWord_rn (c : FaultCode) (rn : BitVec 24) : (statusWord c rn).extractLsb' 0 24 = rn :=
  argOf_commandWord c.st rn

/-- The one response of a command: the digest, for a `RESULT` without a fault, and otherwise the status word alone
(R61). -/
theorem Answers.response {s t : State} {i : Instr} (h : Answers s i t) :
    (¬ (i = .result ∧ t.status.fault = .noFault) ∧ t.responses = s.responses ++ responseWords t.status.fault []) ∨
    ∃ a, s.inst = some a ∧ i = .result ∧ t.status.fault = .noFault ∧
      t.responses = s.responses ++ responseWords t.status.fault (digest s.params a) := by
  cases h with
  | stored i hf => exact .inl ⟨fun h => hf h.2, rfl⟩
  | illegal | unsupported | unconfigurable | unbound | violated | full => exact .inl ⟨by simp, rfl⟩
  | constructed v outreq =>
    refine .inl ⟨fun h => ?_, rfl⟩
    simpa [h.1, Instr.isConstruct] using Variant.construct_isConstruct v outreq
  | fed _ _ _ hf => exact .inl ⟨by simp, by simp [hf]⟩
  | reset _ hf => exact .inl ⟨by simp, by simp [hf]⟩
  | result a hf hb hi hz => exact .inr ⟨a, hi, rfl, by simp [hf], by simp [hf]⟩

/-- The same under the invariant, with the number of data bytes. -/
theorem Answers.response_data {s t : State} {i : Instr} (hs : StateInv s) (h : Answers s i t) :
    ∃ data, t.responses = s.responses ++ responseWords t.status.fault data ∧ data.length < 2 ^ 24 ∧
      (i = .result → t.status.fault = .noFault → ∃ a, s.inst = some a ∧ data.length = a.cfg.outlen.toNat) ∧
      (¬ (i = .result ∧ t.status.fault = .noFault) → data = []) := by
  obtain ⟨hn, hr⟩ | ⟨a, hi, hres, hf, hr⟩ := h.response
  · exact ⟨[], hr, by simp, fun hres hf => absurd ⟨hres, hf⟩ hn, fun _ => rfl⟩
  · have hlen := digest_length (hs.inst a hi)
    have hbound := a.cfg.outlen.isLt
    exact ⟨_, hr, by omega, fun _ _ => ⟨a, hi, hlen⟩, fun hn => absurd ⟨hres, hf⟩ hn⟩

/-- Settles O30: the format is that of `responseWords`, and the data bytes are those of the answer. -/
theorem responseFormat : Obligations.ResponseFormat := by
  refine ⟨rfl, fun i s hs => ?_⟩
  obtain ⟨t, ht, ha⟩ := exec_answers i s
  obtain ⟨data, hr, hlen, hresult, hother⟩ := ha.response_data hs
  exact ⟨t, _, _, data, ht, hr, statusWord_st _ _, by rw [statusWord_rn, BitVec.toNat_ofNat, Nat.mod_eq_of_lt hlen],
    packWords_length data, fun k hk => packWords_byte hk, hresult, hother⟩

end Sys2Proof.Machine

/-! Proofs of the family 40_word_primitives.md: a 64-bit word as two halves and as eight bytes (R78, R79). -/

namespace Sys2Proof.Machine

/-! ### The halves of a 64-bit word -/

@[simp] theorem ofHalves_lo (p : U32 × U32) : (ofHalves p).extractLsb' 0 32 = p.1 := by
  ext i hi
  have hi64 : i < 64 := by omega
  simp [ofHalves, hi, hi64]

@[simp] theorem ofHalves_hi (p : U32 × U32) : (ofHalves p).extractLsb' 32 32 = p.2 := by
  ext i hi
  have hi64 : i < 64 ∧ 32 + i < 64 := by omega
  simp [ofHalves, hi64, BitVec.getLsbD_eq_getElem hi]

/-- R78 packs each half from its own four bytes. -/
theorem pack64le_eq_ofHalves (b0 b1 b2 b3 b4 b5 b6 b7 : Byte) :
    pack64le b0 b1 b2 b3 b4 b5 b6 b7 = ofHalves (pack32le b0 b1 b2 b3, pack32le b4 b5 b6 b7) := rfl

/-- A field of a field: core states it for a field from bit 0 (`BitVec.extractLsb'_extractLsb'_of_le`). -/
theorem extractLsb'_extractLsb'_add {n s m t l : Nat} (x : BitVec n) (h : t + l ≤ m) :
    (x.extractLsb' s m).extractLsb' t l = x.extractLsb' (s + t) l := by
  ext i hi
  have him : t + i < m := by omega
  simp [him, Nat.add_assoc]

/-! ### The bytes of a 64-bit word -/

/-- Unpacking a packed word gives its eight bytes back (R78, R79). -/
@[simp] theorem unpack64le_pack64le (b0 b1 b2 b3 b4 b5 b6 b7 : Byte) :
    unpack64le (pack64le b0 b1 b2 b3 b4 b5 b6 b7) = [b0, b1, b2, b3, b4, b5, b6, b7] := by
  simp [unpack64le, pack64le_eq_ofHalves]

/-- Byte `k` of a word (R79): the low half holds those below 4, the high half the others. -/
theorem unpack64le_getElem? {w : U64} {k : Nat} (h : k < 8) :
    (unpack64le w)[k]? = some (w.extractLsb' (8 * k) 8) := by
  rw [unpack64le]
  by_cases hk : k < 4
  · rw [List.getElem?_append_left hk, unpack32le_getElem? hk, BitVec.extractLsb'_extractLsb'_of_le (by omega)]
  · obtain ⟨j, rfl⟩ : ∃ j, k = 4 + j := ⟨k - 4, by omega⟩
    have hj : j < 4 := by omega
    rw [List.getElem?_append_right (by simp), unpack32le_length, Nat.add_sub_cancel_left, unpack32le_getElem? hj,
      extractLsb'_extractLsb'_add w (by omega), Nat.mul_add]

/-- A word is determined by its bytes: bit `i` is bit `i mod 8` of byte `i / 8`. -/
theorem unpack64le_injective : Function.Injective unpack64le := by
  intro v w h
  refine BitVec.eq_of_getLsbD_eq fun i hi => ?_
  have hbyte : v.extractLsb' (8 * (i / 8)) 8 = w.extractLsb' (8 * (i / 8)) 8 := by
    rw [← Option.some_inj, ← unpack64le_getElem? (by omega), ← unpack64le_getElem? (by omega), h]
  have hbit := congrArg (·.getLsbD (i % 8)) hbyte
  simpa [Nat.mod_lt, Nat.div_add_mod] using hbit

/-- Settles O56: unpacking undoes packing half by half; as it is injective, packing undoes unpacking too. -/
theorem unpackInvertsPack64 : Obligations.UnpackInvertsPack64 :=
  ⟨fun _ => ⟨rfl, fun _ => unpack64le_getElem?⟩, unpack64le_pack64le,
    fun _ _ _ _ _ _ _ _ _ h => unpack64le_injective ((unpack64le_pack64le ..).trans h.symm)⟩

end Sys2Proof.Machine

/-! Proofs of the family 41_keccak_permutation.md: the steps of a Keccak round lane by lane (R104 to R111), and the
output bytes of either sponge (R113, R136). -/

namespace Sys2Proof.Machine.Keccak

/-! ### Lane indices modulo 5 -/

theorem lane_congr {x x' y y' : Nat} (hx : x % 5 = x' % 5) (hy : y % 5 = y' % 5) : lane x y = lane x' y' := by
  simp only [lane, hx, hy]

@[simp] theorem lane_val_mod (x y : Nat) : (lane x y).val % 5 = x % 5 := by
  simp only [lane]
  omega

@[simp] theorem lane_val_div (x y : Nat) : (lane x y).val / 5 = y % 5 := by
  simp only [lane]
  omega

/-- Lane `i` stands at column `i mod 5`, row `i / 5` (R100). -/
theorem lane_surjective (i : Fin 25) : ∃ (x : Fin 5) (y : Nat), i = lane x y := by
  have hi := i.isLt
  refine ⟨col i, i.val / 5, Fin.ext ?_⟩
  simp only [lane, col]
  omega

theorem rhoOffset_congr {x x' y y' : Nat} (hx : x % 5 = x' % 5) (hy : y % 5 = y' % 5) :
    rhoOffset x y = rhoOffset x' y' := by
  simp only [rhoOffset, col, hx, hy]

/-- A column of `lane x y` counted onwards from its index, in its own row. -/
theorem lane_lane_add (x y k : Nat) : lane ((lane x y).val + k) ((lane x y).val / 5) = lane (x + k) y :=
  lane_congr (by simp [Nat.add_mod]) (by simp)

/-- The inverse index of R103 undoes `KECCAK_PI`, at any column and row. -/
theorem piSource_lane (x y : Nat) :
    piSource (lane y (2 * x + 3 * y)).val ((lane y (2 * x + 3 * y)).val / 5) = lane x y := by
  have hrow := lane_val_mod y (2 * x + 3 * y)
  refine lane_congr ?_ hrow
  rw [lane_val_div]
  omega

/-! ### The steps of a round lane by lane -/

/-- The parity of column `n` modulo 5 (R104). -/
theorem getElem_parity_mod (a : KeccakLanes) {c : Fin 5} {n : Nat} (h : c.val = n % 5) :
    (parity a)[c] = a[lane n 0] ^^^ a[lane n 1] ^^^ a[lane n 2] ^^^ a[lane n 3] ^^^ a[lane n 4] := by
  have hlane : ∀ y, lane c y = lane n y := fun y => lane_congr (by omega) rfl
  simp only [getElem_parity, hlane]

theorem getElem_rho (a : KeccakLanes) (x y : Nat) : (rho a)[lane x y] = rotl64 a[lane x y] (rhoOffset x y) := by
  rw [← rhoOffset_congr (lane_val_mod x y) (by simp : (lane x y).val / 5 % 5 = y % 5)]
  simp only [rho, Fin.getElem_fin, Vector.getElem_ofFn]

theorem getElem_pi (a : KeccakLanes) (x y : Nat) : (pi a)[lane y (2 * x + 3 * y)] = a[lane x y] := by
  simp only [pi, Fin.getElem_fin, Vector.getElem_ofFn, piSource_lane]

theorem getElem_chi (a : KeccakLanes) (x y : Nat) :
    (chi a)[lane x y] = a[lane x y] ^^^ (~~~ a[lane (x + 1) y] &&& a[lane (x + 2) y]) := by
  simp only [chi, Fin.getElem_fin, Vector.getElem_ofFn, lane_lane_add]

theorem getElem_iota (a : KeccakLanes) (r : Fin 24) (i : Fin 25) :
    (iota a r)[i] = if i = 0 then a[i] ^^^ rc r else a[i] := by
  by_cases hi : i = 0
  · subst hi
    simp [iota]
  · have hne : 0 ≠ i.val := fun h => hi (Fin.ext h.symm)
    simp [iota, hi, Vector.getElem_set_ne _ _ hne]

/-! ### The permutation and the absorption -/

/-- No rounds change nothing (R110). -/
@[simp] theorem permute_zero (a : KeccakLanes) : permute 0 a = a := rfl

/-- Round `r` is the first of the last `24 - r` rounds (R110). -/
theorem permute_of_round (r : Fin 24) (a : KeccakLanes) :
    permute (24 - r.val) a = permute (23 - r.val) (round a r) := by
  have hr := r.isLt
  have hfrom : 24 - (24 - r.val) = r.val := by omega
  have hnext : 24 - (23 - r.val) = r.val + 1 := by omega
  rw [permute, permute, hfrom, hnext, List.drop_eq_getElem_cons (by simp), List.foldl_cons, List.getElem_finRange]
  rfl

theorem getElem_xorBlock (block : Nat) (d : List Byte) (a : KeccakLanes) (i : Fin 25) :
    (xorBlock block d a)[i] = if i.val < block / 8 then a[i] ^^^ word64At d (8 * i.val) else a[i] := by
  simp only [xorBlock, Fin.getElem_fin, Vector.getElem_ofFn]

/-- Settles O50: every step is read lane by lane, the permutation is peeled from its first round, and the state before
the permutation of an absorption is that of `xorBlock`. -/
theorem keccakStepFormulas : Obligations.KeccakStepFormulas := by
  intro a r
  refine ⟨fun i => ?_, fun x y _ _ => ⟨getElem_rho a x y, getElem_pi a x y⟩, fun x y _ _ => getElem_chi a x y,
    getElem_iota a r, rfl, permute_zero a, permute_of_round r a,
    fun rounds block d => ⟨xorBlock block d a, rfl, getElem_xorBlock block d a⟩⟩
  obtain ⟨x, y, rfl⟩ := lane_surjective i
  have hcol : ∀ k : Fin 5, (x + k).val = ((lane x y).val + k.val) % 5 := fun k => by
    rw [Fin.val_add, Nat.add_mod (lane x y).val, lane_val_mod, ← Nat.add_mod]
  rw [getElem_theta, getElem_correction, getElem_parity_mod a (hcol 4), getElem_parity_mod a (hcol 1)]
  rfl

end Sys2Proof.Machine.Keccak

namespace Sys2Proof.Machine

/-! ### The output bytes of a sponge -/

/-- The loop that R113 and R136 share: a block of `rate` bytes of the state, then `next`, until `need` bytes are out. -/
def squeezeWith {σ : Type} (next : σ → σ) (bytes : σ → List Byte) (rate : Nat) : Nat → Nat → σ → List Byte × σ
  | 0, _, a => ([], a)
  | fuel + 1, need, a =>
    if need ≤ rate then ((bytes a).take need, a)
    else
      let rest := squeezeWith next bytes rate fuel (need - rate) (next a)
      ((bytes a).take rate ++ rest.1, rest.2)

theorem Keccak.squeeze_eq_squeezeWith (rounds block fuel need : Nat) (a : KeccakLanes) :
    Keccak.squeeze rounds block fuel need a = squeezeWith (Keccak.permute rounds) stBytes64 block fuel need a := by
  induction fuel generalizing need a with
  | zero => rfl
  | succ fuel ih => rw [Keccak.squeeze, squeezeWith, ih]

theorem Xoodoo.squeeze_eq_squeezeWith (rounds fuel need : Nat) (x : XoodooLanes) :
    Xoodoo.squeeze rounds fuel need x = squeezeWith (Xoodoo.down rounds [] false) stBytes32 16 fuel need x := by
  induction fuel generalizing need x with
  | zero => rfl
  | succ fuel ih => rw [Xoodoo.squeeze, squeezeWith, ih]

section
variable {σ : Type} {next : σ → σ} {bytes : σ → List Byte} {rate : Nat}

/-- A last block, of at most `rate` bytes, permutes nothing. -/
theorem squeezeWith_last {fuel need : Nat} (a : σ) (h : need ≤ rate) :
    squeezeWith next bytes rate (fuel + 1) need a = ((bytes a).take need, a) := by
  rw [squeezeWith, if_pos h]

/-- A full block with more bytes wanted behind it. -/
theorem squeezeWith_more {fuel need : Nat} (a : σ) (h : rate < need) :
    squeezeWith next bytes rate (fuel + 1) need a =
      ((bytes a).take rate ++ (squeezeWith next bytes rate fuel (need - rate) (next a)).1,
        (squeezeWith next bytes rate fuel (need - rate) (next a)).2) := by
  rw [squeezeWith, if_neg (Nat.not_le.2 h)]

/-- `next` runs between blocks only, so it has run once for each block but the last. -/
theorem squeezeWith_state (h0 : 0 < rate) {fuel need : Nat} (a : σ) (hfuel : need ≤ fuel) (hneed : 0 < need) :
    (squeezeWith next bytes rate fuel need a).2 = next^[(need - 1) / rate] a := by
  induction fuel generalizing need a with
  | zero => omega
  | succ fuel ih =>
    obtain h | h := le_or_gt need rate
    · rw [squeezeWith_last a h, Nat.div_eq_of_lt (by omega)]
      rfl
    · have hblocks : (need - 1) / rate = (need - rate - 1) / rate + 1 := by
        rw [← Nat.add_div_right _ h0]
        congr 1
        omega
      rw [squeezeWith_more a h, ih (next a) (by omega) (by omega), hblocks, Function.iterate_succ_apply]

/-- Output byte `k` is byte `k mod rate` of the state after `k / rate` runs of `next`, for a state that holds at least
`rate` bytes. -/
theorem squeezeWith_getElem? (h0 : 0 < rate) (hrate : ∀ a, rate ≤ (bytes a).length) {fuel need k : Nat} (a : σ)
    (hfuel : need ≤ fuel) (hk : k < need) :
    (squeezeWith next bytes rate fuel need a).1[k]? = (bytes (next^[k / rate] a))[k % rate]? := by
  induction fuel generalizing need k a with
  | zero => omega
  | succ fuel ih =>
    have hfirst : k < rate → (bytes (next^[k / rate] a))[k % rate]? = (bytes a)[k]? := fun hr => by
      rw [Nat.div_eq_of_lt hr, Nat.mod_eq_of_lt hr, Function.iterate_zero_apply]
    obtain h | h := le_or_gt need rate
    · rw [squeezeWith_last a h, hfirst (by omega), List.getElem?_take_of_lt hk]
    · have hlen : ((bytes a).take rate).length = rate := List.length_take_of_le (hrate a)
      rw [squeezeWith_more a h]
      by_cases hr : k < rate
      · rw [hfirst hr, List.getElem?_append_left (by omega), List.getElem?_take_of_lt hr]
      · obtain ⟨j, rfl⟩ : ∃ j, k = j + rate := ⟨k - rate, by omega⟩
        rw [List.getElem?_append_right (by omega), hlen, Nat.add_sub_cancel, ih (next a) (by omega) (by omega),
          Nat.add_div_right j h0, Nat.add_mod_right, Function.iterate_succ_apply]

end

/-- `KECCAK_SQUEEZE` byte by byte (R113). -/
theorem Keccak.squeeze_getElem? {rounds block need k : Nat} (h0 : 0 < block) (h200 : block ≤ 200) (a : KeccakLanes)
    (hk : k < need) : (Keccak.squeeze rounds block need need a).1[k]? =
      (stBytes64 ((Keccak.permute rounds)^[k / block] a))[k % block]? := by
  rw [Keccak.squeeze_eq_squeezeWith, squeezeWith_getElem? h0 (fun _ => by simpa using h200) a le_rfl hk]

/-- `XOODYAK_SQUEEZE` byte by byte (R136). -/
theorem Xoodoo.squeeze_getElem? {rounds need k : Nat} (x : XoodooLanes) (hk : k < need) :
    (Xoodoo.squeeze rounds need need x).1[k]? =
      (stBytes32 ((Xoodoo.down rounds [] false)^[k / 16] x))[k % 16]? := by
  rw [Xoodoo.squeeze_eq_squeezeWith, squeezeWith_getElem? (by decide) (fun _ => by simp) x le_rfl hk]

/-- Settles O47: both sponges run the loop `squeezeWith`, whose bytes and final state follow by induction on its fuel. -/
theorem squeezedBytes : Obligations.SqueezedBytes := by
  refine ⟨fun rounds block outlen a h0 h200 hout => ⟨Keccak.squeeze_length h0 h200 a le_rfl, ?_,
      fun k hk => Keccak.squeeze_getElem? h0 h200 a hk⟩,
    fun rounds outlen x hout => ⟨Xoodoo.squeeze_length x le_rfl, ?_, fun k hk => Xoodoo.squeeze_getElem? x hk⟩⟩
  · rw [Keccak.squeeze_eq_squeezeWith, squeezeWith_state h0 a le_rfl hout]
  · rw [Xoodoo.squeeze_eq_squeezeWith, squeezeWith_state (by decide) x le_rfl hout]

end Sys2Proof.Machine

/-! Proofs of the family 42_xoodoo_permutation.md: the steps of a Xoodoo round lane by lane, and the bytes that
`XOODYAK_DOWN` XORs into the state (R127 to R134). -/

namespace Sys2Proof.Machine

/-! ### Bytes of 32-bit state words -/

/-- State byte `k` is byte `k mod 4` of word `k / 4` (R48). -/
theorem stBytes32_getElem? {n : Nat} (x : Vector U32 n) (k : Nat) :
    (stBytes32 x)[k]? = x[k / 4]?.map fun w => w.extractLsb' (8 * (k % 4)) 8 :=
  (unpackWords_getElem? x.toList k).trans (by rw [Vector.getElem?_toList])

/-- A byte widened into place `i` of a word shows at place `j` only if `j` is `i`. -/
theorem extractLsb'_setWidth_shiftLeft (v : Byte) {i j : Nat} (hi : i < 4) (hj : j < 4) :
    (v.setWidth 32 <<< (8 * i)).extractLsb' (8 * j) 8 = if j = i then v else 0 := by
  ext b hb
  have hin : 8 * j + b < 32 := by omega
  obtain hlt | rfl | hgt := Nat.lt_trichotomy j i
  · have hbelow : 8 * j + b < 8 * i := by omega
    simp [hlt.ne, hbelow]
  · simp [hin, BitVec.getLsbD_eq_getElem hb]
  · have habove : 8 ≤ 8 * j + b - 8 * i := by omega
    simp [hgt.ne', BitVec.getLsbD_of_ge v _ habove]

/-- XORing `v` into state byte `k` changes that byte only (R48). -/
theorem stBytes32_xorStateByte32 {n : Nat} (x : Vector U32 n) (k j : Nat) (v : Byte) :
    (stBytes32 (xorStateByte32 x k v))[j]? = (stBytes32 x)[j]?.map (· ^^^ if j = k then v else 0) := by
  rw [stBytes32_getElem?, stBytes32_getElem?]
  by_cases hj : j / 4 < n
  · by_cases hword : j / 4 = k / 4
    · have hbyte : j % 4 = k % 4 ↔ j = k := by omega
      have hput := extractLsb'_setWidth_shiftLeft v (Nat.mod_lt k (by decide)) (Nat.mod_lt j (by decide))
      have hk : k / 4 < n := hword ▸ hj
      simp [xorStateByte32, hword, hk, BitVec.extractLsb'_xor, hput, hbyte]
    · have hne : j ≠ k := fun h => hword (congrArg (· / 4) h)
      simp [xorStateByte32, hj, hword, hne]
  · simp [hj]

/-- XORing the bytes of `d` into the state from byte `k` on (R48). -/
theorem stBytes32_xorStateBytes32 {n : Nat} (x : Vector U32 n) (k j : Nat) (d : List Byte) :
    (stBytes32 (xorStateBytes32 x k d))[j]? =
      (stBytes32 x)[j]?.map (· ^^^ if k ≤ j then d.getD (j - k) 0 else 0) := by
  induction d generalizing x k with
  | nil => simp [xorStateBytes32]
  | cons v vs ih =>
    rw [xorStateBytes32, ih, stBytes32_xorStateByte32, Option.map_map]
    congr 1
    funext b
    obtain hlt | rfl | hgt := Nat.lt_trichotomy j k
    · simp [hlt.ne, Nat.not_le.2 hlt, Nat.not_le.2 (Nat.lt_succ_of_lt hlt)]
    · simp
    · have hnext : j - k = j - (k + 1) + 1 := by omega
      simp [hgt.ne', hgt.le, Nat.succ_le_of_lt hgt, hnext]

end Sys2Proof.Machine

namespace Sys2Proof.Machine.Xoodoo

/-! ### Lane indices modulo 4 and 3 -/

theorem lane_congr {x x' y y' : Nat} (hx : x % 4 = x' % 4) (hy : y % 3 = y' % 3) : lane x y = lane x' y' := by
  simp only [lane, hx, hy]

@[simp] theorem lane_val_mod (x y : Nat) : (lane x y).val % 4 = x % 4 := by
  simp only [lane]
  omega

@[simp] theorem lane_val_div (x y : Nat) : (lane x y).val / 4 = y % 3 := by
  simp only [lane]
  omega

/-- A column counted onwards from the index of `lane x y`. -/
theorem lane_lane_add (x y k y' : Nat) : lane ((lane x y).val + k) y' = lane (x + k) y' :=
  lane_congr (by simp [Nat.add_mod]) rfl

/-- A plane counted onwards from that of `lane x y`, in its own column. -/
theorem lane_lane_div_add (x y k : Nat) : lane (lane x y).val ((lane x y).val / 4 + k) = lane x (y + k) :=
  lane_congr (by simp) (by simp)

theorem lane_eq_zero_iff {x y : Nat} (hx : x < 4) (hy : y < 3) : lane x y = 0 ↔ x = 0 ∧ y = 0 := by
  simp only [lane, Fin.ext_iff, Fin.val_zero]
  omega

/-! ### The steps of a round lane by lane -/

/-- The parity of column `x` modulo 4 (R127). -/
theorem getElem_parity (a : XoodooLanes) (x : Nat) :
    (parity a)[col x] = a[lane x 0] ^^^ a[lane x 1] ^^^ a[lane x 2] := by
  have hlane : ∀ y, lane (col x).val y = lane x y := fun y => lane_congr (Nat.mod_mod x 4) rfl
  simp only [parity, Fin.getElem_fin, Vector.getElem_ofFn, hlane]

/-- The correction of the column of `lane x y` comes from the column to the left of it (R127). -/
theorem getElem_correction (p : Vector U32 4) (x y : Nat) :
    (correction p)[col (lane x y).val] = rotl32 p[col (x + 3)] 5 ^^^ rotl32 p[col (x + 3)] 14 := by
  have hcol : col ((col (lane x y).val).val + 3) = col (x + 3) := by simp [col]
  simp only [correction, Fin.getElem_fin, Vector.getElem_ofFn, hcol]

theorem getElem_theta (a : XoodooLanes) (x y : Nat) :
    (theta a)[lane x y] = a[lane x y] ^^^ (rotl32 (parity a)[col (x + 3)] 5 ^^^ rotl32 (parity a)[col (x + 3)] 14) := by
  rw [← getElem_correction (parity a) x y]
  simp only [theta, Fin.getElem_fin, Vector.getElem_ofFn]

theorem getElem_rhoWest (a : XoodooLanes) (x y : Nat) : (rhoWest a)[lane x y] =
    if y % 3 = 0 then a[lane x y] else if y % 3 = 1 then a[lane (x + 3) 1] else rotl32 a[lane x y] 11 := by
  simp only [rhoWest, Fin.getElem_fin, Vector.getElem_ofFn, lane_val_div, lane_lane_add]

theorem getElem_iota (a : XoodooLanes) (r i : Fin 12) : (iota a r)[i] = if i = 0 then a[i] ^^^ rc[r] else a[i] := by
  by_cases hi : i = 0
  · subst hi
    simp [iota]
  · have hne : 0 ≠ i.val := fun h => hi (Fin.ext h.symm)
    simp [iota, hi, Vector.getElem_set_ne _ _ hne]

theorem getElem_chi (a : XoodooLanes) (x y : Nat) :
    (chi a)[lane x y] = a[lane x y] ^^^ (~~~ a[lane x (y + 1)] &&& a[lane x (y + 2)]) := by
  simp only [chi, Fin.getElem_fin, Vector.getElem_ofFn, lane_lane_div_add]

theorem getElem_rhoEast (a : XoodooLanes) (x y : Nat) : (rhoEast a)[lane x y] =
    if y % 3 = 0 then a[lane x y] else if y % 3 = 1 then rotl32 a[lane x y] 1 else rotl32 a[lane (x + 2) 2] 8 := by
  simp only [rhoEast, Fin.getElem_fin, Vector.getElem_ofFn, lane_val_div, lane_lane_add]

/-! ### The permutation and the absorption -/

/-- No rounds change nothing (R133). -/
@[simp] theorem permute_zero (a : XoodooLanes) : permute 0 a = a := rfl

/-- Round `r` is the first of the last `12 - r` rounds (R133). -/
theorem permute_of_round (r : Fin 12) (a : XoodooLanes) :
    permute (12 - r.val) a = permute (11 - r.val) (round a r) := by
  have hr := r.isLt
  have hfrom : 12 - (12 - r.val) = r.val := by omega
  have hnext : 12 - (11 - r.val) = r.val + 1 := by omega
  rw [permute, permute, hfrom, hnext, List.drop_eq_getElem_cons (by simp), List.foldl_cons, List.getElem_finRange]
  rfl

/-- The state that `XOODYAK_DOWN` permutes: the block, its padding byte and the colour bit are XORed in (R134). -/
def absorbed (d : List Byte) (first : Bool) (a : XoodooLanes) : XoodooLanes :=
  xorStateByte32 (xorStateByte32 (xorStateBytes32 a 0 d) d.length 0x01) 47 (if first then 0x01 else 0x00)

theorem xorStateByte32_zero {n : Nat} (x : Vector U32 n) (k : Nat) : xorStateByte32 x k 0 = x := by
  ext1 i hi
  simp [xorStateByte32]

theorem down_eq_permute_absorbed (rounds : Nat) (d : List Byte) (first : Bool) (a : XoodooLanes) :
    down rounds d first a = permute rounds (absorbed d first a) := by
  cases first
  · exact congrArg (permute rounds) (xorStateByte32_zero _ 47).symm
  · rfl

/-- State byte `k` after the absorption of a block, before the permutation (R134). -/
theorem stBytes32_absorbed (d : List Byte) (first : Bool) (a : XoodooLanes) (k : Nat) :
    (stBytes32 (absorbed d first a))[k]? = (stBytes32 a)[k]?.map fun b =>
      b ^^^ (if k < d.length then d.getD k 0 else if k = d.length then 0x01 else 0x00) ^^^
        (if first = true ∧ k = 47 then 0x01 else 0x00) := by
  rw [absorbed, stBytes32_xorStateByte32, stBytes32_xorStateByte32, stBytes32_xorStateBytes32, Option.map_map,
    Option.map_map]
  congr 1
  funext b
  have hblock : (d.getD k 0) ^^^ (if k = d.length then 0x01 else 0x00) =
      if k < d.length then d.getD k 0 else if k = d.length then 0x01 else 0x00 := by
    by_cases hk : k < d.length
    · simp [hk, hk.ne]
    · simp [hk]
  have hcolour : (if k = 47 then if first then 0x01 else 0x00 else 0x00 : Byte) =
      if first = true ∧ k = 47 then 0x01 else 0x00 := by
    cases first <;> simp
  rw [← hblock, ← hcolour]
  simp [BitVec.xor_assoc]

/-- Settles O51: every step is read lane by lane, the permutation is peeled from its first round, and the state before
the permutation of `XOODYAK_DOWN` is read byte by byte. -/
theorem xoodooStepFormulas : Obligations.XoodooStepFormulas := by
  refine ⟨fun a r => ⟨rfl, permute_zero a, permute_of_round r a⟩, fun a rounds d first _ => ?_, fun a r x hx =>
    ⟨fun y _ => ?_, ⟨getElem_rhoWest a x 0, getElem_rhoWest a x 1, getElem_rhoWest a x 2⟩, fun y hy => ?_,
      ⟨getElem_chi a x 0, getElem_chi a x 1, getElem_chi a x 2⟩,
      ⟨getElem_rhoEast a x 0, getElem_rhoEast a x 1, getElem_rhoEast a x 2⟩⟩⟩
  · refine ⟨absorbed d first a, down_eq_permute_absorbed rounds d first a, fun k hk => ?_⟩
    have hbyte := List.getElem?_eq_getElem (l := stBytes32 a) (i := k) (by simpa using hk)
    exact ⟨_, hbyte, by rw [stBytes32_absorbed, hbyte]; rfl⟩
  · rw [getElem_theta, getElem_parity]
  · rw [getElem_iota]
    simp only [lane_eq_zero_iff hx hy]

end Sys2Proof.Machine.Xoodoo

/-! Proofs of the family 43_ripemd_compression.md: the compression, quartile by quartile (R149 to R155). -/

namespace Sys2Proof.Machine.Ripemd

/-! ### The steps by quartile -/

/-- Step `i` of quartile `q` (R149). -/
def stepIndex (q : Fin 4) (i : Fin 16) : Fin 64 := ⟨16 * q.val + i.val, by omega⟩

@[simp] theorem quartile_stepIndex (q : Fin 4) (i : Fin 16) : quartile (stepIndex q i) = q := by
  simp only [quartile, stepIndex, Fin.ext_iff]
  omega

/-- The 64 steps, sixteen to a quartile. -/
theorem finRange_eq_stepIndex :
    List.finRange 64 = (List.finRange 4).flatMap fun q => (List.finRange 16).map (stepIndex q) := by
  decide

/-- R151 with the quartile of the step written out. -/
theorem leftStep_stepIndex (w : Vector U32 16) (q : Fin 4) (i : Fin 16) (l : Line) :
    leftStep w (stepIndex q i) l = ⟨l.d, rotl32 (l.a + select q l.b l.c l.d + w[r[stepIndex q i]] + k[q])
      s[stepIndex q i], l.b, l.c⟩ := by
  simp only [leftStep, quartile_stepIndex]

/-- R152 with the quartile of the step and the mirrored selector index written out. -/
theorem rightStep_stepIndex (w : Vector U32 16) (q : Fin 4) (i : Fin 16) (l : Line) :
    rightStep w (stepIndex q i) l = ⟨l.d, rotl32 (l.a + select (3 - q) l.b l.c l.d + w[rp[stepIndex q i]] + kp[q])
      sp[stepIndex q i], l.b, l.c⟩ := by
  have hrev : q.rev = 3 - q := by decide +revert
  simp only [rightStep, quartile_stepIndex, hrev]

/-- No exchange inside a quartile (R153). -/
theorem exchange_stepIndex_of_lt (q : Fin 4) (i : Fin 16) (hi : i.val < 15) (p : Line × Line) :
    exchange (stepIndex q i) p = p := by
  have hne : ∀ n : Fin 64, n.val % 16 = 15 → stepIndex q i ≠ n := fun n hn h => by
    have hval : 16 * q.val + i.val = n.val := congrArg Fin.val h
    omega
  rw [exchange, if_neg (hne 15 rfl), if_neg (hne 31 rfl), if_neg (hne 47 rfl)]

/-- No exchange after the last step (R153). -/
theorem exchange_last (p : Line × Line) : exchange (stepIndex 3 15) p = p := rfl

/-! ### A quartile of both lines -/

/-- Step `i` of quartile `q` on both lines, without the exchange. -/
def bothSteps (w : Vector U32 16) (q : Fin 4) (p : Line × Line) (i : Fin 16) : Line × Line :=
  (leftStep w (stepIndex q i) p.1, rightStep w (stepIndex q i) p.2)

/-- The sixteen steps of quartile `q` on both lines, without the exchange. -/
def runQuartile (w : Vector U32 16) (q : Fin 4) (p : Line × Line) : Line × Line :=
  (List.finRange 16).foldl (bothSteps w q) p

/-- The exchange of a quartile follows its last step, so it can be done once both lines have run (R153, R155). -/
theorem foldl_step_quartile (w : Vector U32 16) (q : Fin 4) (p : Line × Line) :
    ((List.finRange 16).map (stepIndex q)).foldl (step w) p = exchange (stepIndex q 15) (runQuartile w q p) := by
  have hinner : ∀ (a : Line × Line), ∀ i ∈ (List.finRange 15).map Fin.castSucc,
      step w a (stepIndex q i) = bothSteps w q a i := fun a i hi => by
    obtain ⟨n, -, rfl⟩ := List.mem_map.1 hi
    exact exchange_stepIndex_of_lt q _ n.isLt _
  rw [runQuartile, List.foldl_map, List.finRange_succ_last, List.foldl_concat, List.foldl_concat,
    List.foldl_ext _ _ p hinner]
  rfl

/-- The four quartiles, with the exchange after each of the first three and none after the last (R153, R155). -/
theorem foldl_step (w : Vector U32 16) (p : Line × Line) :
    (List.finRange 64).foldl (step w) p =
      runQuartile w 3 (exchange 47 (runQuartile w 2 (exchange 31 (runQuartile w 1
        (exchange 15 (runQuartile w 0 p)))))) := by
  have hfour : List.finRange 4 = [0, 1, 2, 3] := rfl
  simp only [finRange_eq_stepIndex, List.foldl_flatMap, foldl_step_quartile, hfour, List.foldl_cons, List.foldl_nil]
  exact exchange_last _

/-- Settles O53: the loop over the 64 steps is cut into its quartiles (`foldl_step`). -/
theorem ripemdCompressFormula : Obligations.RipemdCompressFormula := by
  refine ⟨fun x y z => ⟨rfl, rfl, rfl, rfl⟩, fun w q i l => ⟨leftStep_stepIndex w q i l, rightStep_stepIndex w q i l⟩,
    fun d h => ?_⟩
  exact congrArg (addLines h) (foldl_step (messageWords d) _)

end Sys2Proof.Machine.Ripemd

/-! Proofs of the family 44_wordmix_engine.md: the bytes of a digest (R193), the branches of CITY64 (R165 to R178), and
the finalizers of XXH32 and XXH64 with their tails as the loops the rules write (R184, R191). -/

namespace Sys2Proof.Machine

/-! ### The direct-mix engines -/

/-- The state array that the kind `MIX` asks for, by `VID` (R17, R232). -/
theorem Engine.mix_cases_of_agrees {e : Engine} {c : Cfg} (h : e.agrees c = true) (hk : c.kind = .mix) :
    (c.vid = 0x30 ∧ e = .city64) ∨ (c.vid = 0x31 ∧ ∃ v, e = .xxh32 v) ∨ (c.vid = 0x32 ∧ ∃ v, e = .xxh64 v) := by
  cases e with
  | keccak | xoodoo | rmd => simp [Engine.agrees, hk] at h
  | city64 => exact .inl ⟨by simpa [Engine.agrees, hk, Variant.vid] using h, rfl⟩
  | xxh32 v => exact .inr (.inl ⟨by simpa [Engine.agrees, hk, Variant.vid] using h, v, rfl⟩)
  | xxh64 v => exact .inr (.inr ⟨by simpa [Engine.agrees, hk, Variant.vid] using h, v, rfl⟩)

/-- The output lengths of the `MIX` rows of R62, which no request changes (R68). -/
theorem CfgFrom.outlen_of_mix {p : Params} {c : Cfg} (h : CfgFrom p c) (hk : c.kind = .mix) :
    c.outlen.toNat = if c.vid = 0x31 then 4 else 8 := by
  obtain ⟨v, -, outreq, n, hn, rfl⟩ := h
  have hrow : (v.row p).kind = .mix := (Variant.row_kind p v).symm.trans hk
  cases v <;> simp [Variant.row] at hrow <;> cases effectiveOutLen_of_not_xof rfl hn <;> rfl

/-- Byte `k` of the output, in the order `MIX_OUT_ORDER` names (R193). -/
theorem Mix.extract_getElem? {order : ByteOrder} {w k : Nat} (h : U64) (hk : k < w) :
    (Mix.extract order w h)[k]? =
      some (h.extractLsb' (8 * (if order = .mostFirst then w - 1 - k else k)) 8) := by
  cases order <;> simp [Mix.extract, hk]

/-- The digest of the kind `MIX` is the finalize result written out (R193, R205). -/
theorem digest_of_mix {p : Params} {a : Inst} (h : a.engine.agrees a.cfg = true) (hk : a.cfg.kind = .mix) :
    digest p a = Mix.extract p.mixOutOrder a.cfg.outlen.toNat (finalize a).2 := by
  obtain ⟨-, he⟩ | ⟨-, v, he⟩ | ⟨-, v, he⟩ := Engine.mix_cases_of_agrees h hk <;>
    simp [digest, finalize, extractOutput, he]

/-- Settles O43: the `VID` fixes the state array and the output length, and `extract` writes the finalize result. -/
theorem mixDigestBytes : Obligations.MixDigestBytes := by
  intro p a ha hk
  have hlen := ha.cfg.outlen_of_mix hk
  refine ⟨a.cfg.outlen.toNat, (finalize a).2, rfl, ?_, ?_, ?_, digest_length ha, fun k hkw => by
    rw [digest_of_mix ha.engine hk, Mix.extract_getElem? _ hkw]⟩
  all_goals
    obtain ⟨hv, he⟩ | ⟨hv, v, he⟩ | ⟨hv, v, he⟩ := Engine.mix_cases_of_agrees ha.engine hk <;>
      simp [hv, he, hlen, finalize]

/-! ### Loops as the rules write them -/

/-- With fuel for all its passes, a loop runs its body at `i`, `i + width` and so on, as often as `width` fits below
`stop`. -/
theorem whileBelow_eq_foldl {α : Type} {width stop fuel i : Nat} (body : α → Nat → α) (h : α) (hw : 0 < width)
    (hfuel : (stop - i) / width ≤ fuel) :
    whileBelow width stop body fuel (h, i) =
      ((List.range ((stop - i) / width)).foldl (fun h j => body h (i + width * j)) h,
        i + width * ((stop - i) / width)) := by
  induction fuel generalizing h i with
  | zero => simp [whileBelow, Nat.le_zero.1 hfuel]
  | succ fuel ih =>
    rw [whileBelow]
    split
    case isTrue hle =>
      simp only at hle ⊢
      have hpass : (stop - i) / width = (stop - (i + width)) / width + 1 := by
        rw [Nat.div_eq_sub_div hw (by omega), Nat.sub_sub]
      rw [ih _ (by omega), hpass, List.range_succ_eq_map, List.foldl_cons, List.foldl_map]
      simp only [Nat.mul_zero, Nat.add_zero, Nat.succ_eq_add_one, Nat.mul_add, Nat.mul_one, Nat.add_assoc,
        Nat.add_comm width]
    case isFalse hlt =>
      simp only at hlt
      rw [Nat.div_eq_of_lt (by omega)]
      rfl

/-- The same for a loop with `stop` as its fuel. -/
theorem whileBelow_stop_eq_foldl {α : Type} {width stop i : Nat} (body : α → Nat → α) (h : α) (hw : 0 < width) :
    whileBelow width stop body stop (h, i) =
      ((List.range ((stop - i) / width)).foldl (fun h j => body h (i + width * j)) h,
        i + width * ((stop - i) / width)) :=
  whileBelow_eq_foldl body h hw ((Nat.div_le_self _ _).trans (Nat.sub_le _ _))

/-- A loop of at most one pass. -/
theorem whileBelow_one {α : Type} (width stop : Nat) (body : α → Nat → α) (h : α) (i : Nat) :
    whileBelow width stop body 1 (h, i) =
      (if i + width ≤ stop then body h i else h, if i + width ≤ stop then i + width else i) := by
  simp only [whileBelow]
  split <;> rfl

end Sys2Proof.Machine

namespace Sys2Proof.Machine.Mix

/-! ### CityHash64 -/

section
variable {m : Memory} {n : Nat}

theorem city64_zero : city64 m 0 = k2 := rfl

theorem city64_of_le_3 (h0 : 1 ≤ n) (h1 : n ≤ 3) : city64 m n = city1to3 m n := by
  rw [city64, if_neg (by omega), if_pos h1]

theorem city64_of_le_7 (h0 : 4 ≤ n) (h1 : n ≤ 7) : city64 m n = city4to7 m n := by
  rw [city64, if_neg (by omega), if_neg (by omega), if_pos h1]

theorem city64_of_le_16 (h0 : 8 ≤ n) (h1 : n ≤ 16) : city64 m n = city8to16 m n := by
  rw [city64, if_neg (by omega), if_neg (by omega), if_neg (by omega), if_pos h1]

theorem city64_of_le_32 (h0 : 17 ≤ n) (h1 : n ≤ 32) : city64 m n = city17to32 m n := by
  rw [city64, if_neg (by omega), if_neg (by omega), if_neg (by omega), if_neg (by omega), if_pos h1]

theorem city64_of_le_64 (h0 : 33 ≤ n) (h1 : n ≤ 64) : city64 m n = city33to64 m n := by
  rw [city64, if_neg (by omega), if_neg (by omega), if_neg (by omega), if_neg (by omega), if_neg (by omega), if_pos h1]

theorem city64_of_gt_64 (h : 65 ≤ n) : city64 m n = city65up m n := by
  rw [city64, if_neg (by omega), if_neg (by omega), if_neg (by omega), if_neg (by omega), if_neg (by omega),
    if_neg (by omega)]

end

/-- The working values of R178's loop, `x`, `y`, `z`, `v` and `w`, with the offset of the next chunk. -/
abbrev CityTuple := U64 × U64 × U64 × (U64 × U64) × (U64 × U64) × Nat

/-- The working values at the chunk at offset `p`. -/
def CityLoop.tuple (s : CityLoop) (p : Nat) : CityTuple :=
  (s.x, s.y, s.z, s.v, s.w, p)

/-- A pass of R178's loop on these values: it advances the offset to the next chunk. -/
def cityPassTuple (m : Memory) : CityTuple → CityTuple :=
  fun (x, y, z, v, w, p) => (cityPass m ⟨x, y, z, v, w⟩ p).tuple (p + 64)

/-- The loop of R178 carries the offset along; the model counts the chunks. -/
theorem iterate_cityPassTuple (m : Memory) (s : CityLoop) (k : Nat) :
    (cityPassTuple m)^[k] (s.tuple 0) =
      ((List.range k).foldl (fun s i => cityPass m s (64 * i)) s).tuple (64 * k) := by
  induction k with
  | zero => rfl
  | succ k ih => rw [Function.iterate_succ_apply', ih, List.range_succ, List.foldl_concat]; rfl

/-- R178 with its loop as the rule writes it. -/
theorem city65up_eq_iterate (m : Memory) (n : Nat) :
    city65up m n =
      let (x, y, z, v, w, _) := (cityPassTuple m)^[(n - 1) / 64] ((cityStart m n).tuple 0)
      hashLen16 (hashLen16 v.1 w.1 + shiftMix y * k1 + z) (hashLen16 v.2 w.2 + x) := by
  rw [iterate_cityPassTuple]
  rfl

/-- Settles O44: each length selects its branch (`city64_of_le_3` to `city64_of_gt_64`), whose definition is the rule's
formula; the loop of R178 is `city65up_eq_iterate`. -/
theorem cityBranches : Obligations.CityBranches := by
  refine ⟨fun v => rfl, fun u v k => rfl, fun u v => rfl, fun w x y z a b => rfl, fun m n => ?_⟩
  refine ⟨?_, fun h0 h1 => ?_, city64_of_le_7, city64_of_le_16, city64_of_le_32, city64_of_le_64, fun h => ?_⟩
  · rintro rfl
    exact city64_zero
  · rw [city64_of_le_3 h0 h1, city1to3, Nat.shiftRight_one]
    rfl
  · exact (city64_of_gt_64 h).trans (city65up_eq_iterate m n)

/-! ### XXH32 -/

theorem getElem_xxh32Stripe (d : List Byte) (v : Vector U32 4) (i : Fin 4) :
    (xxh32Stripe d v)[i] = xxh32Round v[i] (word32At d (4 * i)) := by
  simp [xxh32Stripe]

/-- R184 with the tail as its two loops. -/
theorem xxh32Finalize_eq_whileBelow (v : Vector U32 4) (m : Memory) (bufLen : Nat) (len : U64) :
    xxh32Finalize v m bufLen len =
      let start := (if 16 ≤ len.toNat then rotl32 v[0] 1 + rotl32 v[1] 7 + rotl32 v[2] 12 + rotl32 v[3] 18
        else seed32 + p5) + len.setWidth 32
      xxh32Avalanche (whileBelow 1 bufLen (xxh32Tail1 m) bufLen
        (whileBelow 4 bufLen (xxh32Tail4 m) bufLen (start, 0))).1 := by
  simp [xxh32Finalize, whileBelow_stop_eq_foldl]

/-- Settles O45: the tail's loops are `whileBelow_stop_eq_foldl`; the rest is the rules' own formulas. -/
theorem xxh32Formulas : Obligations.Xxh32Formulas := by
  refine ⟨fun acc w => rfl, getElem_xxh32Stripe, fun h => rfl, fun v m bufLen len => ?_⟩
  rw [xxh32Finalize_eq_whileBelow, BitVec.ofNat_toNat]
  rfl

/-! ### XXH64 -/

theorem getElem_xxh64Stripe (d : List Byte) (v : Vector U64 4) (i : Fin 4) :
    (xxh64Stripe d v)[i] = xxh64Round v[i] (word64At d (8 * i)) := by
  simp [xxh64Stripe]

/-- R191 with the tail as its three loops, the second of at most one pass. -/
theorem xxh64Finalize_eq_whileBelow (v : Vector U64 4) (m : Memory) (bufLen : Nat) (len : U64) :
    xxh64Finalize v m bufLen len =
      xxh64Avalanche (whileBelow 1 bufLen (xxh64Tail1 m) bufLen (whileBelow 4 bufLen (xxh64Tail4 m) 1
        (whileBelow 8 bufLen (xxh64Tail8 m) bufLen (xxh64Converge v len + len, 0)))).1 := by
  simp [xxh64Finalize, whileBelow_stop_eq_foldl, whileBelow_one]

/-- Settles O46: the tail's loops are `whileBelow_stop_eq_foldl` and `whileBelow_one`; the rest is the rules' own
formulas. -/
theorem xxh64Formulas : Obligations.Xxh64Formulas := by
  refine ⟨fun acc w => rfl, fun h v => rfl, getElem_xxh64Stripe, fun h => rfl, fun v m bufLen len => ?_⟩
  exact xxh64Finalize_eq_whileBelow v m bufLen len

end Sys2Proof.Machine.Mix

/-! Proofs of the family 45_streaming_controller.md: the guards every command begins with (R200, R236), and each command
path by path (R202, R203, R205 to R207). -/

namespace Sys2Proof

/-! ### The fields of a `CONSTRUCT` word -/

theorem vidOf_argOf (w : U32) : vidOf (argOf w) = w.extractLsb' 0 8 := by
  ext i
  simp [vidOf, argOf]

theorem outreqOf_argOf (w : U32) : outreqOf (argOf w) = w.extractLsb' 8 16 := by
  ext i
  simp [outreqOf, argOf]

theorem decode_construct {w : U32} {rest : List U32} (h : opOf w = 0x01) :
    decode (w :: rest) = .ok (decodeConstruct (argOf w), rest) := by
  simp [decode, h]

theorem decodeConstruct_of_vid {v : Variant} {arg : BitVec 24} (h : v.vid = vidOf arg) :
    decodeConstruct arg = v.construct (outreqOf arg) := by
  simp [decodeConstruct, ← h]

theorem decodeConstruct_of_no_vid {arg : BitVec 24} (h : ∀ v : Variant, v.vid ≠ vidOf arg) :
    decodeConstruct arg = .constructUnsupported (outreqOf arg) (vidOf arg) := by
  have hnone : Variant.ofVid (vidOf arg) = none :=
    Option.eq_none_iff_forall_ne_some.2 fun v hv => h v (Variant.ofVid_eq_some.1 hv)
  simp [decodeConstruct, hnone]

end Sys2Proof

namespace Sys2Proof.Machine

/-! ### The guards -/

/-- A stored fault is answered, and nothing else happens (R236). -/
theorem Answers.eq_of_fault {s t : State} {i : Instr} (h : Answers s i t) (hf : s.status.fault ≠ .noFault) :
    t = s.answered s.status s.inst [statusWord s.status.fault 0] := by
  cases h with
  | stored => rfl
  | illegal _ _ h0 | unsupported _ _ h0 | unconfigurable _ _ h0 | constructed _ _ _ h0 | unbound _ h0 | violated _ h0
  | full _ _ _ h0 | fed _ _ _ h0 | result _ h0 | reset _ h0 => exact absurd h0 hf

/-- An unbound machine accepts nothing but `CONSTRUCT` (R200). -/
theorem Answers.eq_of_unbound {s t : State} {i : Instr} (h : Answers s i t) (hf : s.status.fault = .noFault)
    (hb : s.status.bound = false) (hc : i.isConstruct = false) : t = raiseFault .protocolError s := by
  cases h with
  | stored _ h0 => exact absurd hf h0
  | illegal | unbound => rfl
  | unsupported => cases hc
  | unconfigurable | constructed => simp at hc
  | violated _ _ h1 | full _ _ _ _ h1 | fed _ _ _ _ h1 | result _ _ h1 | reset _ _ h1 => simp [hb] at h1

theorem exec_of_fault (i : Instr) {s : State} (hf : s.status.fault ≠ .noFault) :
    exec i s = .next (s.answered s.status s.inst [statusWord s.status.fault 0]) := by
  obtain ⟨t, ht, ha⟩ := exec_answers i s
  rw [ht, ha.eq_of_fault hf]

theorem exec_of_unbound {i : Instr} {s : State} (hc : i.isConstruct = false) (hf : s.status.fault = .noFault)
    (hb : s.status.bound = false) :
    exec i s = .next (s.answered ⟨false, .protocolError⟩ s.inst [0x03000000]) := by
  obtain ⟨t, ht, ha⟩ := exec_answers i s
  rw [ht, ha.eq_of_unbound hf hb hc, ← hb]
  rfl

/-- Under the invariant a bound machine without a fault is ready. -/
theorem StateInv.exists_ready {s : State} (h : StateInv s) (hf : s.status.fault = .noFault)
    (hb : s.status.bound = true) : ∃ a, Ready s a := by
  obtain ⟨a, ha⟩ := Option.isSome_iff_exists.1 (h.exists_iff_bound.trans hb)
  exact ⟨a, h, hb, hf, ha⟩

/-! ### The commands on a ready machine -/

theorem Ready.status_eq {s : State} {a : Inst} (h : Ready s a) : s.status = ⟨true, .noFault⟩ := by
  rw [← h.bound, ← h.noFault]

/-- `FEED` past the guards (R203). -/
theorem Ready.exec_feed {s : State} {a : Inst} (h : Ready s a) (n : BitVec 24) (p : List U32) :
    exec (.feed n p) s =
      if a.cfg.vid = 0x30 ∧ s.params.mixBufCap.toNat < a.bufLen + n.toNat then
        .next (s.answered ⟨true, .capacityExceeded⟩ (some a) [0x04000000])
      else .next (s.answered ⟨true, .noFault⟩ (some (feedBytes a (feedData n p))) [0x00000000]) := by
  rw [exec, execFeed_ready h.noFault h.bound h.inst h.sized]
  refine if_congr (and_congr_left' Cfg.isCity_iff) ?_ ?_
  · rw [← h.bound, ← h.inst]
    rfl
  · rw [← h.status_eq]
    rfl

/-- `RESULT` past the guards (R205). -/
theorem Ready.exec_result {s : State} {a : Inst} (h : Ready s a) :
    exec .result s = .next (s.answered ⟨true, .noFault⟩ (some (Inst.fresh a.cfg))
      (responseWords .noFault (digest s.params a))) := by
  rw [exec, execResult_ready h.noFault h.bound h.inst h.sized, ← h.status_eq]
  rfl

/-- `RESET` past the guards (R206). -/
theorem Ready.exec_reset {s : State} {a : Inst} (h : Ready s a) :
    exec .reset s = .next (s.answered ⟨true, .noFault⟩ (some (Inst.fresh a.cfg)) [0x00000000]) := by
  rw [exec, execReset_ready h.noFault h.bound h.inst h.sized, ← h.status_eq]
  rfl

/-! ### `CONSTRUCT` -/

@[simp] theorem effectiveOutLen_zero (row : Row) : effectiveOutLen row 0 = some row.outlen := rfl

theorem effectiveOutLen_xof {row : Row} {outreq : BitVec 16} (h0 : outreq ≠ 0) (hx : row.xof = true) :
    effectiveOutLen row outreq = some outreq := by
  rw [effectiveOutLen, if_neg h0, if_pos hx]

/-- The row's own length is acceptable, extendable or not (R68). -/
@[simp] theorem effectiveOutLen_self (row : Row) : effectiveOutLen row row.outlen = some row.outlen := by
  simp [effectiveOutLen]

theorem effectiveOutLen_eq_none {row : Row} {outreq : BitVec 16} (h0 : outreq ≠ 0) (hx : row.xof = false)
    (hne : outreq ≠ row.outlen) : effectiveOutLen row outreq = none := by
  rw [effectiveOutLen, if_neg h0, if_neg (by simp [hx]), if_neg hne]

/-- A `CONSTRUCT` with an acceptable output length binds the variant, with the reset values of R26 (R202). -/
theorem exec_construct_binds {v : Variant} {outreq outlen : BitVec 16} {s : State} (hf : s.status.fault = .noFault)
    (hv : v ∈ s.params.variants) (hn : effectiveOutLen (v.row s.params) outreq = some outlen) :
    exec (v.construct outreq) s =
      .next (s.answered ⟨true, .noFault⟩ (some (Inst.fresh (cfgOf s.params v outlen))) [0x00000000]) := by
  simp only [exec_construct, constructVariant, hf, ne_eq, not_true, if_false, if_neg (not_not_intro hv), hn]
  rfl

/-- A `CONSTRUCT` with an unacceptable output length unbinds and faults (R202, R231). -/
theorem exec_construct_fails {v : Variant} {outreq : BitVec 16} {s : State} (hf : s.status.fault = .noFault)
    (hv : v ∈ s.params.variants) (hn : effectiveOutLen (v.row s.params) outreq = none) :
    exec (v.construct outreq) s = .next (raiseFault .configurationError s) := by
  simp [exec_construct, constructVariant, hf, hv, hn]

theorem exec_constructUnsupported (outreq : BitVec 16) (vid : BitVec 8) {s : State} (hf : s.status.fault = .noFault) :
    exec (.constructUnsupported outreq vid) s = .next (raiseFault .configurationError s) := by
  simp [exec, execConstructUnsupported, hf]

/-- A `ConfigurationError` unbinds, and `CFG` holds no value (R12, R202, R233). -/
theorem raiseFault_configurationError (s : State) :
    raiseFault .configurationError s = s.answered ⟨false, .configurationError⟩ none [0x01000000] := rfl

/-- Settles O12: the word's `VID` is looked up in R62; the output length decides between binding and failing. -/
theorem constructFollowsItsRule : Obligations.ConstructFollowsItsRule := by
  refine ⟨fun w rest hop => ⟨fun v hv => ?_, fun hv => ?_⟩,
    fun s => ⟨fun hf => ⟨fun v outreq => exec_of_fault _ hf, fun outreq vid => exec_of_fault _ hf⟩, ?_⟩⟩
  · rw [decode_construct hop, decodeConstruct_of_vid (hv.trans (vidOf_argOf w).symm), outreqOf_argOf]
  · rw [decode_construct hop, decodeConstruct_of_no_vid (vidOf_argOf w ▸ hv), outreqOf_argOf, vidOf_argOf]
  · intro hf
    refine ⟨fun outreq vid => ?_, fun v outreq hv => ⟨?_, fun h0 hx => ?_, ?_, fun h0 hx hne => ?_⟩⟩
    · exact ⟨_, exec_constructUnsupported outreq vid hf, raiseFault_configurationError s, rfl⟩
    · rintro rfl
      exact exec_construct_binds hf hv (effectiveOutLen_zero _)
    · exact exec_construct_binds hf hv (effectiveOutLen_xof h0 hx)
    · rintro - rfl
      exact exec_construct_binds hf hv (effectiveOutLen_self _)
    · exact ⟨_, exec_construct_fails hf hv (effectiveOutLen_eq_none h0 hx hne), raiseFault_configurationError s,
        rfl⟩

/-! ### The controller -/

theorem Status.controller_eq_unbound {st : Status} :
    st.controller = .unbound ↔ st.fault = .noFault ∧ st.bound = false := by
  unfold Status.controller
  split_ifs <;> simp_all

theorem Status.controller_eq_ready {st : Status} :
    st.controller = .ready ↔ st.fault = .noFault ∧ st.bound = true := by
  unfold Status.controller
  split_ifs <;> simp_all

theorem Status.controller_eq_faulted {st : Status} : st.controller = .faulted ↔ st.fault ≠ .noFault := by
  unfold Status.controller
  split_ifs <;> simp_all

/-- A `CONSTRUCT` on a machine without a fault makes it ready or is a `ConfigurationError`, whether it was bound or not
(R200, R202). -/
theorem Answers.controller_of_construct {s t : State} {i : Instr} (h : Answers s i t) (hf : s.status.fault = .noFault)
    (hc : i.isConstruct = true) :
    t.status.controller = .ready ∨ (t.status.controller = .faulted ∧ t.status.fault = .configurationError) := by
  cases h with
  | stored _ h0 => exact absurd hf h0
  | illegal | full | fed | result | reset => cases hc
  | unsupported | unconfigurable => exact .inr ⟨Status.controller_eq_faulted.2 (by simp), rfl⟩
  | constructed => exact .inl rfl
  | unbound _ _ _ h1 | violated _ _ _ h1 => simp [hc] at h1

/-- Settles O22: the transitions of each state of the controller, with `Answers.controller_of_construct` for the
`CONSTRUCT` of an unfaulted machine. -/
theorem controllerTransitions : Obligations.ControllerTransitions := by
  refine ⟨fun st => ⟨Status.controller_eq_unbound, Status.controller_eq_ready, Status.controller_eq_faulted⟩,
    fun fresh s => rfl, fun i s hs => ?_⟩
  obtain ⟨t, ht, ha⟩ := exec_answers i s
  simp only [Status.controller_eq_unbound (st := s.status), Status.controller_eq_ready (st := s.status),
    Status.controller_eq_faulted (st := s.status)]
  refine ⟨t, ht, ha.eq_of_fault, ?unbound, fun ⟨hf, _⟩ => ha.controller_of_construct hf, ?ready⟩
  case unbound =>
    rintro ⟨hf, hb⟩ hc
    rw [ha.eq_of_unbound hf hb hc]
    exact ⟨rfl, rfl⟩
  case ready =>
    rintro ⟨hf, hb⟩
    obtain ⟨a, hready⟩ := hs.exists_ready hf hb
    refine ⟨?_, fun n p hi => ?_, ha.controller_of_construct hf, fun op arg hi => ?_⟩
    · rintro (rfl | rfl)
      · cases hready.exec_result.symm.trans ht
        rfl
      · cases hready.exec_reset.symm.trans ht
        rfl
    · subst hi
      rw [hready.exec_feed] at ht
      split at ht <;> cases ht
      · exact .inr ⟨rfl, rfl⟩
      · exact .inl rfl
    · subst hi
      cases (exec_illegal hf).symm.trans ht
      exact ⟨rfl, rfl⟩

/-! ### `FEED` -/

theorem Cfg.isCity_eq_false_iff {c : Cfg} : c.isCity = false ↔ c.vid ≠ 0x30 := by
  rw [ne_eq, ← Cfg.isCity_iff, Bool.not_eq_true]

/-- The loop's pass for one byte, as R203 writes it. -/
theorem feedBytes_cons_eq_ite (a : Inst) (b : Byte) (d : List Byte) :
    feedBytes a (b :: d) =
      if a.cfg.vid ≠ 0x30 ∧ a.bufLen + 1 = a.cfg.block.toNat then
        feedBytes ⟨a.cfg, absorbBuffer (storeByte a b), [], 0, a.len + 1⟩ d
      else feedBytes (storeByte a b) d := by
  rw [feedBytes_cons]
  split
  case isTrue h => rw [feedByte_absorb (Cfg.isCity_eq_false_iff.2 h.1) h.2]
  case isFalse h => rw [feedByte_store ((not_and_or.1 h).imp_left fun hv => Cfg.isCity_iff.2 (not_not.1 hv))]

/-- After a `FEED` the buffer of every variant but `CITY64` is below the block (R203). -/
theorem InstInv.feedBytes_bufLen_lt {p : Params} {a : Inst} (h : InstInv p a) (hv : a.cfg.vid ≠ 0x30)
    (d : List Byte) :
    (Machine.feedBytes a d).bufLen < a.cfg.block.toNat := by
  have hcity := Cfg.isCity_eq_false_iff.2 hv
  have hinv := h.feedBytes d fun hc => by simp [hcity] at hc
  simpa [hcity] using hinv.drained

/-- Settles O23: the guards, `Ready.exec_feed`, and the loop pass by pass; the rows of R201 are those of
`Engine.absorb`, the stripes word by word. -/
theorem feedFollowsItsRule : Obligations.FeedFollowsItsRule := by
  refine ⟨fun s n p => ⟨exec_of_fault _, exec_of_unbound rfl, fun a ha => ha.exec_feed n p⟩, feedBytes_nil,
    fun p a d ha hv => ha.feedBytes_bufLen_lt hv d, feedBytes_cons_eq_ite, fun c len d => ?_⟩
  exact ⟨fun a mode => rfl, fun x mode => rfl, fun h => rfl, fun v => ⟨_, rfl, Mix.getElem_xxh32Stripe d v⟩,
    fun v => ⟨_, rfl, Mix.getElem_xxh64Stripe d v⟩⟩

/-! ### `RESULT` and `RESET` -/

/-- Settles O27: the guards and `Ready.exec_result`; the digest has `CFG.OUTLEN` bytes. -/
theorem resultFollowsItsRule : Obligations.ResultFollowsItsRule := by
  refine fun s => ⟨exec_of_fault _, exec_of_unbound rfl, fun a ha => ?_⟩
  have hlen := digest_length (ha.inv.inst a ha.inst)
  refine ⟨hlen, ?_⟩
  rw [ha.exec_result, responseWords, hlen, BitVec.ofNat_toNat]
  rfl

/-- Settles O29: the guards and `Ready.exec_reset`. -/
theorem resetFollowsItsRule : Obligations.ResetFollowsItsRule :=
  fun _ => ⟨exec_of_fault _, exec_of_unbound rfl, fun _ ha => ha.exec_reset⟩

/-! ### `INIT_STATE` -/

section
variable {c : Cfg}

theorem Engine.fresh_of_keccak (h : c.kind = .keccak) :
    Engine.fresh c = .keccak (Vector.replicate 25 0) .absorbing := by
  simp [Engine.fresh, h]

theorem Engine.fresh_of_xoodoo (h : c.kind = .xoodoo) :
    Engine.fresh c = .xoodoo (Vector.replicate 12 0) .absorbing := by
  simp [Engine.fresh, h]

theorem Engine.fresh_of_rmd (h : c.kind = .rmd) : Engine.fresh c = .rmd Ripemd.iv := by
  simp [Engine.fresh, h]

theorem Engine.fresh_of_xxh32 (h : c.kind = .mix) (hv : c.vid = 0x31) : Engine.fresh c = .xxh32 Mix.xxh32Init := by
  simp [Engine.fresh, h, hv, Variant.vid]

theorem Engine.fresh_of_xxh64 (h : c.kind = .mix) (hv : c.vid = 0x32) : Engine.fresh c = .xxh64 Mix.xxh64Init := by
  simp [Engine.fresh, h, hv, Variant.vid]

theorem Engine.fresh_of_city64 (h : c.kind = .mix) (hv : c.vid = 0x30) : Engine.fresh c = .city64 := by
  simp [Engine.fresh, h, hv, Variant.vid]

end

theorem Mix.xxh32Init_eq : Mix.xxh32Init = #v[0x24234428, 0x85EBCA77, 0x00000000, 0x61C8864F] := by decide

theorem Mix.xxh64Init_eq :
    Mix.xxh64Init = #v[0x60EA27EEADC0B5D6, 0xC2B2AE3D27D4EB4F, 0x0000000000000000, 0x61C8864E7A143579] := by decide

/-- Settles O16: the state array by kind is `Engine.fresh_of_keccak` to `Engine.fresh_of_city64`. -/
theorem initStateValues : Obligations.InitStateValues := by
  refine fun i => ⟨rfl, Memory.read_nil, rfl, rfl, Engine.fresh_absorbing i.cfg, Engine.fresh_of_keccak,
    Engine.fresh_of_xoodoo, Engine.fresh_of_rmd, fun h hv => ?_, fun h hv => ?_, Engine.fresh_of_city64⟩
  · rw [← Mix.xxh32Init_eq]
    exact Engine.fresh_of_xxh32 h hv
  · rw [← Mix.xxh64Init_eq]
    exact Engine.fresh_of_xxh64 h hv

end Sys2Proof.Machine

/-! Proofs of the family 60_exceptions.md: which faults a command can raise, and in which order it checks for them (R231
to R236), and the machine's invariant, which no step breaks (R25, R232). -/

namespace Sys2Proof.Machine

/-! ### The faults a command can raise -/

/-- A command on a machine without a fault either ends without one or enters one of the four of R230: a
`ConfigurationError` only as a `CONSTRUCT` (R231), a `CapacityExceeded` only as a `FEED` beyond the store (R235). -/
theorem Answers.fault_cases {s t : State} {i : Instr} (h : Answers s i t) (hf : s.status.fault = .noFault) :
    t.status.fault = .noFault ∨
    (i.isConstruct = true ∧ t = raiseFault .configurationError s) ∨
    t = raiseFault .invariantViolation s ∨
    t = raiseFault .protocolError s ∨
    (t = raiseFault .capacityExceeded s ∧ ∃ n p a, i = .feed n p ∧ s.inst = some a ∧ a.cfg.vid = 0x30 ∧
      s.params.mixBufCap.toNat < a.bufLen + n.toNat) := by
  cases h with
  | stored _ h0 => exact absurd hf h0
  | constructed => exact .inl rfl
  | fed | result | reset => exact .inl hf
  | unsupported => exact .inr (.inl ⟨rfl, rfl⟩)
  | unconfigurable v outreq => exact .inr (.inl ⟨Variant.construct_isConstruct v outreq, rfl⟩)
  | violated => exact .inr (.inr (.inl rfl))
  | illegal | unbound => exact .inr (.inr (.inr (.inl rfl)))
  | full n p a _ _ hi hc hfull =>
    exact .inr (.inr (.inr (.inr ⟨rfl, n, p, a, rfl, hi, Cfg.isCity_iff.1 hc, hfull⟩)))

/-- `ConfigurationError` is raised by `CONSTRUCT` alone (R231). -/
theorem Answers.of_configurationError {s t : State} {i : Instr} (h : Answers s i t) (hf : s.status.fault = .noFault)
    (ht : t.status.fault = .configurationError) : i.isConstruct = true ∧ t = raiseFault .configurationError s := by
  obtain h0 | h1 | rfl | rfl | ⟨rfl, -⟩ := h.fault_cases hf
  · simp [h0] at ht
  · exact h1
  all_goals simp at ht

/-- `InvariantViolation` is entered as R233 says (R232). -/
theorem Answers.of_invariantViolation {s t : State} {i : Instr} (h : Answers s i t) (hf : s.status.fault = .noFault)
    (ht : t.status.fault = .invariantViolation) : t = raiseFault .invariantViolation s := by
  obtain h0 | ⟨-, rfl⟩ | h2 | rfl | ⟨rfl, -⟩ := h.fault_cases hf
  · simp [h0] at ht
  · simp at ht
  · exact h2
  all_goals simp at ht

/-- `CapacityExceeded` is raised by a `FEED` to `CITY64` alone, beyond the store (R235). -/
theorem Answers.of_capacityExceeded {s t : State} {i : Instr} (h : Answers s i t) (hf : s.status.fault = .noFault)
    (ht : t.status.fault = .capacityExceeded) :
    ∃ n p a, i = .feed n p ∧ s.inst = some a ∧ a.cfg.vid = 0x30 ∧ s.params.mixBufCap.toNat < a.bufLen + n.toNat := by
  obtain h0 | ⟨-, rfl⟩ | rfl | rfl | ⟨-, h4⟩ := h.fault_cases hf
  · simp [h0] at ht
  · simp at ht
  · simp at ht
  · simp at ht
  · exact h4

/-- Settles O21: a ready `FEED` beyond the store takes the first branch of `Ready.exec_feed`, which keeps the instance;
`Answers.of_capacityExceeded` is the converse. -/
theorem capacityExceededStoresNothing : Obligations.CapacityExceededStoresNothing := by
  refine ⟨fun s a n p ha hv hfull => ?_, fun i s t hf h ht => (Answers.of_exec h).of_capacityExceeded hf ht⟩
  rw [ha.exec_feed, if_pos ⟨hv, hfull⟩]

/-! ### The checks of `CONSTRUCT` -/

/-- The output lengths R68 accepts. -/
theorem effectiveOutLen_isSome_iff {row : Row} {outreq : BitVec 16} :
    (effectiveOutLen row outreq).isSome ↔ outreq = 0 ∨ row.xof = true ∨ outreq = row.outlen := by
  unfold effectiveOutLen
  split_ifs <;> simp_all

/-- The fault of a supported variant's `CONSTRUCT` is decided by the output length (R68, R231). -/
theorem exec_construct_fault {v : Variant} {outreq : BitVec 16} {s : State} (hf : s.status.fault = .noFault)
    (hv : v ∈ s.params.variants) :
    ∃ t, exec (v.construct outreq) s = .next t ∧ t.status.fault =
      if outreq = 0 ∨ (v.row s.params).xof = true ∨ outreq = (v.row s.params).outlen then .noFault
      else .configurationError := by
  simp only [← effectiveOutLen_isSome_iff]
  cases hn : effectiveOutLen (v.row s.params) outreq with
  | none => exact ⟨_, exec_construct_fails hf hv hn, rfl⟩
  | some outlen => exact ⟨_, exec_construct_binds hf hv hn, rfl⟩

/-- A `CONSTRUCT` word with all fifteen variants supported fails in the two cases of R231 and no other. -/
theorem exec_decodeConstruct_fault {arg : BitVec 24} {s : State} (hf : s.status.fault = .noFault)
    (hall : ∀ v : Variant, v ∈ s.params.variants) :
    ∃ t, exec (decodeConstruct arg) s = .next t ∧
      (t.status.fault = .configurationError ↔ (∀ v : Variant, v.vid ≠ vidOf arg) ∨
        ∃ v : Variant, v.vid = vidOf arg ∧ outreqOf arg ≠ 0 ∧ (v.row s.params).xof = false ∧
          outreqOf arg ≠ (v.row s.params).outlen) := by
  by_cases hvid : ∃ v : Variant, v.vid = vidOf arg
  · obtain ⟨v, hv⟩ := hvid
    obtain ⟨t, ht, hfault⟩ := exec_construct_fault (outreq := outreqOf arg) hf (hall v)
    rw [← decodeConstruct_of_vid hv] at ht
    have hunique : ∀ v' : Variant, v'.vid = vidOf arg ↔ v' = v :=
      fun v' => ⟨fun h => Variant.vid_injective (h.trans hv.symm), fun h => h ▸ hv⟩
    refine ⟨t, ht, ?_⟩
    simp [hfault, hunique]
  · have hnone := not_exists.1 hvid
    rw [decodeConstruct_of_no_vid hnone]
    exact ⟨_, exec_constructUnsupported _ _ hf, iff_of_true rfl (.inl hnone)⟩

/-- A stored fault is answered with its code (R236). -/
theorem exec_of_fault_eq (i : Instr) {s : State} {c : FaultCode} (hf : s.status.fault = c) (hc : c ≠ .noFault) :
    exec i s = .next (s.answered s.status s.inst [statusWord c 0]) := by
  subst hf
  exact exec_of_fault i hc

/-- Settles O14: `exec_decodeConstruct_fault` gives the two cases, `Answers.of_configurationError` the state a failed
`CONSTRUCT` leaves, and a stored fault answers every later command. -/
theorem configurationErrorExactly : Obligations.ConfigurationErrorExactly := by
  refine ⟨fun w s hop hf hall => ?_, fun i s t hc hf h ht => ?_⟩
  · obtain ⟨t, ht, hiff⟩ := exec_decodeConstruct_fault (arg := argOf w) hf hall
    refine ⟨_, t, decode_construct hop, ht, hiff, fun hfault => ?_⟩
    obtain ⟨-, rfl⟩ := (Answers.of_exec ht).of_configurationError hf hfault
    exact ⟨rfl, rfl, fun j => ⟨_, exec_of_fault_eq j hfault (by decide), rfl, rfl⟩⟩
  · obtain ⟨hconstruct, -⟩ := (Answers.of_exec h).of_configurationError hf ht
    simp [hc] at hconstruct

/-! ### The order of the checks -/

/-- Settles O20: the stored fault decides first; behind it each form of command has its own check. -/
theorem faultPriority : Obligations.FaultPriority := by
  intro i s hs
  obtain ⟨t, ht, ha⟩ := exec_answers i s
  refine ⟨t, ht, fun hf => by rw [ha.eq_of_fault hf]; rfl, fun hf => ⟨?illegal, ?unsupported, ?construct,
    fun hc hb => by rw [ha.eq_of_unbound hf hb hc]; rfl, ?feed, ?other⟩⟩
  case illegal =>
    rintro op arg rfl
    cases (exec_illegal hf).symm.trans ht
    rfl
  case unsupported =>
    rintro outreq vid rfl
    cases (exec_constructUnsupported outreq vid hf).symm.trans ht
    rfl
  case construct =>
    rintro outreq v rfl hv
    obtain ⟨u, hu, hfault⟩ := exec_construct_fault (outreq := outreq) hf hv
    cases hu.symm.trans ht
    exact hfault
  case feed =>
    rintro n p a rfl hb hi
    rw [Ready.exec_feed ⟨hs, hb, hf, hi⟩] at ht
    split_ifs at ht ⊢ <;> cases ht <;> rfl
  case other =>
    intro hi hb
    obtain ⟨a, hready⟩ := hs.exists_ready hf hb
    obtain rfl | rfl := hi
    · cases hready.exec_result.symm.trans ht
      rfl
    · cases hready.exec_reset.symm.trans ht
      rfl

/-! ### The invariant of the machine -/

theorem Inst.sized_iff {a : Inst} :
    a.sized = true ↔ a.bufLen ≤ a.cfg.block.toNat ∧ a.engine.agrees a.cfg = true := by
  simp [Inst.sized]

/-- The state after a hardware reset satisfies the invariant (R250). -/
theorem Initial.inv {s : State} (h : Initial s) : StateInv s :=
  ⟨h.params, by simp [h.status], by simp [h.status, h.inst], by simp [h.inst]⟩

/-- The invariant does not speak of the streams. -/
theorem StateInv.congr {s t : State} (h : StateInv s) (hp : t.params = s.params) (hst : t.status = s.status)
    (hi : t.inst = s.inst) : StateInv t :=
  ⟨by rw [hp]; exact h.params, by rw [hst]; exact h.noViolation, by rw [hi, hst]; exact h.exists_iff_bound,
    by rw [hi, hp]; exact h.inst⟩

/-- A bound machine without a fault, whose instance satisfies R25. -/
theorem StateInv.of_inst {t : State} {a : Inst} (hp : t.params.ok = true) (hst : t.status = ⟨true, .noFault⟩)
    (hi : t.inst = some a) (ha : InstInv t.params a) : StateInv t :=
  ⟨hp, by simp [hst], by simp [hst, hi], fun b hb => Option.some.inj (hi.symm.trans hb) ▸ ha⟩

theorem StateInv.hardwareReset {s : State} (h : StateInv s) (fresh : List HostEvent) :
    StateInv (Machine.hardwareReset fresh s) :=
  ⟨h.params, by simp, rfl, by simp⟩

/-- Entering any fault but `InvariantViolation` keeps the invariant (R233). -/
theorem StateInv.raiseFault {s : State} {c : FaultCode} (h : StateInv s) (hc : c ≠ .invariantViolation) :
    StateInv (Machine.raiseFault c s) := by
  by_cases hcfg : c = .configurationError
  · subst hcfg
    exact ⟨h.params, hc, rfl, by simp⟩
  · refine ⟨h.params, hc, ?_, ?_⟩
    · simpa [hcfg] using h.exists_iff_bound
    · simpa [hcfg] using h.inst

/-- No command breaks the invariant: what it leaves as the instance is fresh or fed. -/
theorem Answers.inv {s t : State} {i : Instr} (hs : StateInv s) (h : Answers s i t) : StateInv t := by
  cases h with
  | stored => exact hs.congr rfl rfl rfl
  | illegal | unsupported | unconfigurable | unbound | full => exact hs.raiseFault (by decide)
  | violated _ hf hb _ hz =>
    obtain ⟨a, ha⟩ := hs.exists_ready hf hb
    exact absurd ha.sized (by simp [hz a ha.inst])
  | constructed v outreq outlen _ hv hn =>
    exact .of_inst hs.params rfl rfl (.fresh hs.params ⟨v, hv, outreq, outlen, hn, rfl⟩)
  | fed n p a hf hb hi _ hroom =>
    have hlen : (feedData n p).length ≤ n.toNat := List.length_take_le _ _
    have hready : Ready s a := ⟨hs, hb, hf, hi⟩
    exact .of_inst hs.params hready.status_eq rfl
      ((hs.inst a hi).feedBytes _ fun hc => (Nat.add_le_add_left hlen _).trans (hroom hc))
  | result a hf hb hi | reset a hf hb hi =>
    have hready : Ready s a := ⟨hs, hb, hf, hi⟩
    exact .of_inst hs.params hready.status_eq rfl (.fresh hs.params (hs.inst a hi).cfg)

/-- No step breaks the invariant, be it a command or the hardware reset. -/
theorem StateInv.step {s t : State} (hs : StateInv s) (h : Machine.step s = .next t) : StateInv t := by
  obtain ⟨i, rest, -, ht⟩ | ⟨e, fresh, -, -, ht⟩ | ⟨e, -, -, ht⟩ := step_cases h
  · refine (Answers.of_exec ht.symm).inv ?_
    exact hs.congr rfl rfl rfl
  · cases ht
    exact hs.hardwareReset fresh
  · cases ht

theorem Reachable.inv {s0 s : State} (h : Reachable s0 s) (h0 : StateInv s0) : StateInv s := by
  induction h with
  | start => exact h0
  | step _ hstep ih => exact ih.step hstep

/-- Settles O34: every reachable state satisfies the invariant, which rules out R232's conditions. -/
theorem invariantViolationIsUnreachable : Obligations.InvariantViolationIsUnreachable := by
  refine ⟨fun s0 s h0 h => ?_, fun i s t hf h ht => (Answers.of_exec h).of_invariantViolation hf ht⟩
  have hs := h.inv h0.inv
  exact ⟨hs.noViolation, fun a ha => Inst.sized_iff.1 (hs.inst a ha).sized⟩

end Sys2Proof.Machine

namespace Sys2Proof.Machine

/-! ### Commands before `CONSTRUCT` -/

/-- Once `ProtocolError` is stored, every command is answered with its code and leaves `STATUS` so (R236). -/
theorem exec_of_protocolError (j : Instr) {t : State} (ht : t.status.fault = .protocolError) :
    ∃ u, exec j t = .next u ∧ u.status = t.status ∧ u.responses = t.responses ++ [0x03000000] :=
  ⟨_, exec_of_fault_eq j ht (by decide), rfl, rfl⟩

/-- Settles O19: none of the three is a `CONSTRUCT`, so the unbound guard answers (`exec_of_unbound`), and the fault it
stores answers every later command (`exec_of_protocolError`). -/
theorem unboundCommandIsProtocolError : Obligations.UnboundCommandIsProtocolError := by
  intro s i hi hf hb
  have hc : i.isConstruct = false := by
    obtain rfl | rfl | ⟨n, p, rfl⟩ := hi <;> rfl
  have hexec := exec_of_unbound hc hf hb
  refine ⟨hexec, fun j t ht => ?_⟩
  cases hexec.symm.trans ht
  exact exec_of_protocolError j rfl

end Sys2Proof.Machine

/-! Proofs of the encoding statements: decoding and encoding undo each other (30_encoding.md R56 to R65), and the
payload of a `FEED` carries its bytes (R58). -/

namespace Sys2Proof

/-! ### Decoding what was encoded -/

theorem encode_construct (v : Variant) (outreq : BitVec 16) :
    encode (v.construct outreq) = [constructWord outreq v.vid] := by
  cases v <;> rfl

@[simp] theorem Variant.construct_wf (v : Variant) (outreq : BitVec 16) : (v.construct outreq).wf = true := by
  cases v <;> rfl

/-- An id without a row is the id of no variant (R62). -/
theorem Variant.ofVid_isNone_iff {vid : BitVec 8} : (Variant.ofVid vid).isNone = true ↔ ∀ v : Variant, v.vid ≠ vid := by
  simp [Option.eq_none_iff_forall_ne_some, Variant.ofVid_eq_some]

theorem decode_constructWord (outreq : BitVec 16) (vid : BitVec 8) (rest : List U32) :
    decode (constructWord outreq vid :: rest) = .ok (decodeConstruct (constructArg outreq vid), rest) := by
  rw [constructWord, decode_construct (opOf_commandWord _ _), argOf_commandWord]

theorem decode_feedWord {n : BitVec 24} {p : List U32} (rest : List U32) (h : (Instr.feed n p).wf = true) :
    decode (commandWord 0x02 n :: (p ++ rest)) = .ok (.feed n p, rest) := by
  have hlen : payloadWords n = p.length := (Instr.wf_feed.1 h).symm
  rw [decode_feed (opOf_commandWord _ _) (by simp [hlen]), argOf_commandWord, hlen, List.take_left, List.drop_left]

theorem decode_illegalWord {op : BitVec 8} {arg : BitVec 24} (rest : List U32) (h : illegalFields op arg = true) :
    decode (commandWord op arg :: rest) = .ok (.illegal op arg, rest) := by
  simpa using (decode_illegal_iff (w := commandWord op arg) (rest := rest)).2 (by simpa using h)

/-- Settles O1: the fields of each command word are read back, form by form of instruction. -/
theorem decodeOfEncodeIsIdentity : Obligations.DecodeOfEncodeIsIdentity := by
  intro i rest hwf
  obtain ⟨v, outreq, rfl⟩ | ⟨outreq, vid, rfl⟩ | ⟨n, p, rfl⟩ | rfl | rfl | ⟨op, arg, rfl⟩ := Machine.Instr.families i
  · rw [encode_construct, List.singleton_append, decode_constructWord, decodeConstruct_of_vid (v := v) (by simp),
      outreqOf_constructArg]
  · have hvid := Variant.ofVid_isNone_iff.1 hwf
    rw [encode, List.singleton_append, decode_constructWord, decodeConstruct_of_no_vid (by simpa using hvid),
      outreqOf_constructArg, vidOf_constructArg]
  · exact decode_feedWord rest hwf
  · simp [encode, decode]
  · simp [encode, decode]
  · exact decode_illegalWord rest hwf

/-! ### Encoding what was decoded -/

theorem decodeConstruct_wf (arg : BitVec 24) : (decodeConstruct arg).wf = true := by
  by_cases h : ∃ v : Variant, v.vid = vidOf arg
  · obtain ⟨v, hv⟩ := h
    rw [decodeConstruct_of_vid hv, Variant.construct_wf]
  · rw [decodeConstruct_of_no_vid (not_exists.1 h)]
    exact Variant.ofVid_isNone_iff.2 (not_exists.1 h)

theorem encode_decodeConstruct (arg : BitVec 24) : encode (decodeConstruct arg) = [commandWord 0x01 arg] := by
  by_cases h : ∃ v : Variant, v.vid = vidOf arg
  · obtain ⟨v, hv⟩ := h
    rw [decodeConstruct_of_vid hv, encode_construct, hv, constructWord, constructArg_fields]
  · rw [decodeConstruct_of_no_vid (not_exists.1 h), encode, constructWord, constructArg_fields]

/-- A command word is determined by its two fields (R56). -/
theorem commandWord_eq {w : U32} {op : BitVec 8} {arg : BitVec 24} (hop : opOf w = op) (harg : argOf w = arg) :
    commandWord op arg = w := by
  rw [← hop, ← harg, commandWord_fields]

/-- Settles O2: each way of reading a command keeps both fields of its word, and a `FEED` its payload. -/
theorem encodeOfDecodeIsIdentity : Obligations.EncodeOfDecodeIsIdentity := by
  intro ws rest i h
  obtain _ | ⟨w, ws⟩ := ws
  · cases h
  by_cases h2 : opOf w = 0x02
  · obtain hp | hp := Nat.lt_or_ge ws.length (payloadWords (argOf w))
    · cases (decode_feed_missing h2 hp).symm.trans h
    · cases (decode_feed h2 hp).symm.trans h
      refine ⟨by simp [Instr.wf, hp], ?_⟩
      rw [encode, commandWord_eq h2 rfl, List.cons_append, List.take_append_drop]
  · obtain ⟨h1, hd⟩ | ⟨h3, ha, hd⟩ | ⟨h4, ha, hd⟩ | ⟨hill, hd⟩ := decode_one_word_cases ws h2 <;>
      cases hd.symm.trans h
    · refine ⟨decodeConstruct_wf _, ?_⟩
      rw [encode_decodeConstruct, commandWord_eq h1 rfl, List.singleton_append]
    · exact ⟨rfl, by rw [encode, commandWord_eq h3 ha, List.singleton_append]⟩
    · exact ⟨rfl, by rw [encode, commandWord_eq h4 ha, List.singleton_append]⟩
    · exact ⟨hill, by rw [encode, commandWord_fields, List.singleton_append]⟩

/-- Settles O3: the decoder runs on each word. -/
theorem decodesTheWorkedWords : Obligations.DecodesTheWorkedWords := by
  unfold Obligations.DecodesTheWorkedWords
  decide

end Sys2Proof

namespace Sys2Proof.Machine

/-! ### Bytes packed into a `FEED` -/

/-- The byte count of a `FEED` of fewer than 2^24 bytes (R58). -/
theorem ofNat24_toNat {d : List Byte} (h : d.length < 2 ^ 24) : (BitVec.ofNat 24 d.length).toNat = d.length :=
  (BitVec.toNat_ofNat d.length 24).trans (Nat.mod_eq_of_lt h)

theorem feedOne_wf {d : List Byte} (h : d.length < 2 ^ 24) : (feedOne d).wf = true := by
  rw [feedOne, Instr.wf_feed, packWords_length, ofNat24_toNat h]

/-- The bytes behind the packed ones fill the last word and are not taken (R58). -/
theorem feedData_packWords {d : List Byte} (h : d.length < 2 ^ 24) :
    feedData (BitVec.ofNat 24 d.length) (packWords d) = d := by
  rw [feedData, ofNat24_toNat h, unpackWords_packWords, List.take_left]

/-- Settles O7: `feedOne_wf` and `feedData_packWords`. -/
theorem feedOfPackedBytes : Obligations.FeedOfPackedBytes :=
  fun _ h => ⟨feedOne_wf h, feedData_packWords h⟩

end Sys2Proof.Machine

/-! Proofs of the word statements: PACK32LE, the rotations, the 64-bit operations on halves, BSWAP64 (R77, R80 to R83,
R88, R89, R92) and the selector functions (R149). -/

namespace Sys2Proof.Machine

/-! ### Bytes of words -/

/-- Packing undoes unpacking (R77): bit `i` comes from byte `i / 8`. -/
theorem pack32le_extract (w : U32) :
    pack32le (w.extractLsb' 0 8) (w.extractLsb' 8 8) (w.extractLsb' 16 8) (w.extractLsb' 24 8) = w := by
  ext i hi
  simp [pack32le]
  grind

/-- Settles O55: `pack32le_extract` and `unpack32le_pack32le`. -/
theorem unpackInvertsPack : Obligations.UnpackInvertsPack :=
  ⟨fun w => ⟨rfl, pack32le_extract w⟩, unpack32le_pack32le⟩

/-- The eight bytes of a word, lowest first (R79). -/
theorem unpack64le_eq (w : U64) : unpack64le w =
    [w.extractLsb' 0 8, w.extractLsb' 8 8, w.extractLsb' 16 8, w.extractLsb' 24 8,
      w.extractLsb' 32 8, w.extractLsb' 40 8, w.extractLsb' 48 8, w.extractLsb' 56 8] := by
  simp [unpack64le, unpack32le, extractLsb'_extractLsb'_add]

theorem bswap64_pack64le (b0 b1 b2 b3 b4 b5 b6 b7 : Byte) :
    bswap64 (pack64le b0 b1 b2 b3 b4 b5 b6 b7) = pack64le b7 b6 b5 b4 b3 b2 b1 b0 := by
  have hbytes := unpack64le_pack64le b0 b1 b2 b3 b4 b5 b6 b7
  simp only [unpack64le_eq, List.cons.injEq, and_true] at hbytes
  simp only [bswap64, hbytes]

theorem pack64le_extract (w : U64) :
    pack64le (w.extractLsb' 0 8) (w.extractLsb' 8 8) (w.extractLsb' 16 8) (w.extractLsb' 24 8)
      (w.extractLsb' 32 8) (w.extractLsb' 40 8) (w.extractLsb' 48 8) (w.extractLsb' 56 8) = w :=
  unpack64le_injective ((unpack64le_pack64le ..).trans (unpack64le_eq w).symm)

/-- Settles O60: `bswap64` packs the bytes in reverse order, so reversing them twice packs them as they were. -/
theorem byteSwapReverses : Obligations.ByteSwapReverses := by
  refine ⟨bswap64_pack64le, fun w => ?_⟩
  conv => lhs; arg 1; rw [bswap64]
  rw [bswap64_pack64le, pack64le_extract]

/-! ### Rotations: the primitives of R80 to R83 are the library's, whose amount is taken modulo the width -/

theorem rotl32_eq_rotateLeft (w : U32) (n : Nat) : rotl32 w n = w.rotateLeft n := by
  by_cases h : n % 32 = 0 <;>
    simp [rotl32, BitVec.rotateLeft, BitVec.rotateLeftAux, h, BitVec.ushiftRight_eq_zero (Nat.le_refl 32)]

theorem rotr32_eq_rotateRight (w : U32) (n : Nat) : rotr32 w n = w.rotateRight n := by
  by_cases h : n % 32 = 0 <;> simp [rotr32, BitVec.rotateRight, BitVec.rotateRightAux, h]

theorem rotl64_eq_rotateLeft (w : U64) (n : Nat) : rotl64 w n = w.rotateLeft n := by
  by_cases h : n % 64 = 0 <;>
    simp [rotl64, BitVec.rotateLeft, BitVec.rotateLeftAux, h, BitVec.ushiftRight_eq_zero (Nat.le_refl 64)]

theorem rotr64_eq_rotateRight (w : U64) (n : Nat) : rotr64 w n = w.rotateRight n := by
  by_cases h : n % 64 = 0 <;> simp [rotr64, BitVec.rotateRight, BitVec.rotateRightAux, h]

/-- The place `n` above `j`, wrapped at most once. -/
theorem add_mod_width {width j : Nat} (n : Nat) (hj : j < width) :
    (j + n) % width = if j + n % width < width then j + n % width else j + n % width - width := by
  have hn := Nat.mod_lt n (Nat.zero_lt_of_lt hj)
  rw [Nat.add_mod, Nat.mod_eq_of_lt hj]
  split
  case isTrue h => exact Nat.mod_eq_of_lt h
  case isFalse h => rw [Nat.mod_eq_sub_mod (by omega), Nat.mod_eq_of_lt (by omega)]

section
variable {width j : Nat} (w : BitVec width) (n : Nat) (hj : j < width)
include hj

theorem getLsbD_rotateLeft_add : (w.rotateLeft n).getLsbD ((j + n) % width) = w.getLsbD j := by
  have hn := Nat.mod_lt n (Nat.zero_lt_of_lt hj)
  rw [add_mod_width n hj, BitVec.getLsbD_rotateLeft]
  generalize n % width = k at hn
  split
  case isTrue h =>
    simp [h]
  case isFalse h =>
    have hwrap : width - k + (j + k - width) = j := by omega
    have hlt : j + k - width < k := by omega
    simp [hlt, hwrap]

theorem getLsbD_rotateRight_add : (w.rotateRight n).getLsbD j = w.getLsbD ((j + n) % width) := by
  have hn := Nat.mod_lt n (Nat.zero_lt_of_lt hj)
  rw [add_mod_width n hj, BitVec.getLsbD_rotateRight]
  generalize n % width = k at hn
  split
  case isTrue h =>
    have hlt : j < width - k := by omega
    simp [hlt, Nat.add_comm k j]
  case isFalse h =>
    have hlt : ¬ j < width - k := by omega
    have hwrap : j - (width - k) = j + k - width := by omega
    simp [hlt, hj, hwrap]

end

/-- A right rotation is the left rotation by the complement (R81): its two shifts are the same, in the other order. -/
theorem rotr32_eq_rotl32 (w : U32) (n : Nat) : rotr32 w n = rotl32 w (32 - n % 32) := by
  by_cases h : n % 32 = 0
  · simp [rotr32, rotl32, h]
  · have hk : (32 - n % 32) % 32 = 32 - n % 32 := by omega
    have hback : 32 - (32 - n % 32) = n % 32 := by omega
    have hne : 32 - n % 32 ≠ 0 := by omega
    simp only [rotr32, rotl32, hk, hback, if_neg h, if_neg hne]
    exact BitVec.or_comm _ _

/-- Settles O57: the bits move as the library's rotations move them, at either width. -/
theorem rotatesWrap : Obligations.RotatesWrap := by
  refine ⟨fun w n j hj => ?_, fun w n j hj => ?_, rotr32_eq_rotl32⟩
  · rw [rotl32_eq_rotateLeft, rotr32_eq_rotateRight]
    exact ⟨getLsbD_rotateLeft_add w n hj, getLsbD_rotateRight_add w n hj⟩
  · rw [rotl64_eq_rotateLeft, rotr64_eq_rotateRight]
    exact ⟨getLsbD_rotateLeft_add w n hj, getLsbD_rotateRight_add w n hj⟩

/-! ### The 64-bit operations on halves -/

/-- The halves have weight 1 and 2^32. -/
theorem ofHalves_toNat (p : U32 × U32) : (ofHalves p).toNat = p.1.toNat + 2 ^ 32 * p.2.toNat := by
  have hlo := p.1.isLt
  have hhi := p.2.isLt
  have hdisjoint := Nat.two_pow_add_eq_or_of_lt hlo p.2.toNat
  simp only [ofHalves, BitVec.toNat_or, BitVec.toNat_shiftLeft, BitVec.toNat_setWidth]
  rw [Nat.mod_eq_of_lt (by omega), Nat.mod_eq_of_lt (by omega), Nat.shiftLeft_eq, Nat.mod_eq_of_lt (by omega),
    Nat.or_comm, Nat.mul_comm, ← hdisjoint, Nat.add_comm]

/-- Settles O58: both halves as numbers, and their sum at the weights of the halves. -/
theorem addOnHalves : Obligations.AddOnHalves := by
  intro a b
  have ha := a.1.isLt
  have hb := b.1.isLt
  have hlo : (add64H a b).1.toNat = (a.1.toNat + b.1.toNat) % 2 ^ 32 := by
    simp [add64H, BitVec.extractLsb'_toNat]
  have hhi : (add64H a b).2.toNat = (a.2.toNat + b.2.toNat + (a.1.toNat + b.1.toNat) / 2 ^ 32) % 2 ^ 32 := by
    simp [add64H, BitVec.extractLsb'_toNat, Nat.shiftRight_eq_div_pow]
    omega
  refine ⟨hlo, hhi, BitVec.eq_of_toNat_eq ?_⟩
  rw [add64, BitVec.toNat_add, ofHalves_toNat, ofHalves_toNat, ofHalves_toNat, hlo, hhi]
  omega

/-- The product of two numbers given by their halves modulo 2^64: the product of the high halves does not reach it. -/
theorem mul_halves_mod (al ah bl bh : Nat) :
    (al + 2 ^ 32 * ah) * (bl + 2 ^ 32 * bh) % 2 ^ 64 =
      al * bl % 2 ^ 32 + 2 ^ 32 * ((al * bl / 2 ^ 32 + al * bh % 2 ^ 32 + ah * bl % 2 ^ 32) % 2 ^ 32) := by
  have hexpand : (al + 2 ^ 32 * ah) * (bl + 2 ^ 32 * bh) =
      al * bl + 2 ^ 32 * (al * bh) + 2 ^ 32 * (ah * bl) + 2 ^ 64 * (ah * bh) := by ring
  rw [hexpand]
  omega

/-- Settles O59: both halves as numbers, and `mul_halves_mod`. -/
theorem mulOnHalves : Obligations.MulOnHalves := by
  intro a b
  have hprod : ∀ x y : U32, x.toNat * y.toNat < 2 ^ 64 := fun x y =>
    (Nat.mul_lt_mul'' x.isLt y.isLt).trans_eq (by norm_num)
  have hlo : (mul64H a b).1.toNat = (a.1.toNat * b.1.toNat) % 2 ^ 32 := by
    simp [mul64H, BitVec.extractLsb'_toNat]
  have hhi : (mul64H a b).2.toNat = ((a.1.toNat * b.1.toNat) / 2 ^ 32 + (a.1.toNat * b.2.toNat) % 2 ^ 32 +
      (a.2.toNat * b.1.toNat) % 2 ^ 32) % 2 ^ 32 := by
    have h00 := hprod a.1 b.1
    have h01 := hprod a.1 b.2
    have h10 := hprod a.2 b.1
    simp [mul64H, BitVec.extractLsb'_toNat, Nat.shiftRight_eq_div_pow]
    omega
  refine ⟨hlo, hhi, BitVec.eq_of_toNat_eq ?_⟩
  rw [mul64, BitVec.toNat_mul, ofHalves_toNat, ofHalves_toNat, ofHalves_toNat, hlo, hhi, mul_halves_mod]

/-! ### The selector functions -/

/-- The selector functions on one bit. -/
def Ripemd.selectBit (sel : Fin 4) (x y z : Bool) : Bool :=
  match sel with
  | 0 => x ^^ y ^^ z
  | 1 => (x && y) || (!x && z)
  | 2 => (x || !y) ^^ z
  | 3 => (x && z) || (y && !z)

/-- The selector functions are bitwise (R149). -/
theorem Ripemd.getLsbD_select (sel : Fin 4) (x y z : U32) {j : Nat} (hj : j < 32) :
    (Ripemd.select sel x y z).getLsbD j =
      Ripemd.selectBit sel (x.getLsbD j) (y.getLsbD j) (z.getLsbD j) := by
  fin_cases sel <;> simp [Ripemd.select, Ripemd.selectBit, hj]

/-- The truth tables of R149, which the index `4x + 2y + z` reads. -/
theorem Ripemd.selectBit_table : ∀ (sel : Fin 4) (x y z : Bool), Ripemd.selectBit sel x y z =
    (([[false, true, true, false, true, false, false, true],
       [false, true, false, true, false, false, true, true],
       [true, false, false, true, true, false, true, false],
       [false, false, true, false, false, true, true, true]].getD sel.val []).getD
        (4 * x.toNat + 2 * y.toNat + z.toNat) false) := by
  decide

/-- Settles O52: the selector functions are bitwise, and on one bit they are the tables. -/
theorem selectorTruthTables : Obligations.SelectorTruthTables := by
  intro sel x y z j hj
  rw [Ripemd.getLsbD_select sel x y z hj]
  exact Ripemd.selectBit_table sel _ _ _

end Sys2Proof.Machine

/-! Proofs of the statements about one step and one command: the step takes the command at the head of the stream or
the hardware reset (R55, R250), what every command leaves unchanged, and what a fault does (R233, R237). -/

namespace Sys2Proof.Machine

/-! ### The fetch -/

/-- The fetch takes a complete command before anything behind it (R55, R65). -/
theorem fetch_encode {i : Instr} (h : i.wf = true) (later : List HostEvent) :
    fetch (presented (encode i) ++ later) = .command i (encode i).length := by
  simp [fetch, decodeOfEncodeIsIdentity i _ h]

theorem fetch_of_decode_error {input fresh : List HostEvent} {e : DecodeError}
    (hd : decode (arrivedWords input) = .error e) (hr : afterRst input = some fresh) : fetch input = .rst fresh := by
  simp [fetch, hd, hr]

theorem consume_presented {s : State} {ws : List U32} {later : List HostEvent} (h : s.input = presented ws ++ later) :
    s.consume ws.length = { s with input := later, cpc := s.cpc + ws.length } := by
  simp [State.consume, h, presented, List.drop_left']

theorem step_of_encode {s : State} {i : Instr} {later : List HostEvent} (hwf : i.wf = true)
    (h : s.input = presented (encode i) ++ later) :
    step s = exec i { s with input := later, cpc := s.cpc + (encode i).length } := by
  rw [step, h, fetch_encode hwf, advance, consume_presented h]

/-- Settles O8: `step_of_encode`. -/
theorem stepRunsTheDecodedCommand : Obligations.StepRunsTheDecodedCommand :=
  fun _ _ _ => step_of_encode

/-- Settles O9: the fetch gives the reset, which `advance` carries out. -/
theorem hardwareResetIsTaken : Obligations.HardwareResetIsTaken := by
  intro s e fresh hd hr
  rw [step, fetch_of_decode_error hd hr]
  rfl

/-- Settles O11: every field of the reset state is written out in its definition. -/
theorem resetStateIsUnbound : Obligations.ResetStateIsUnbound :=
  ⟨by decide, rfl, rfl, rfl, rfl, rfl, fun _ => rfl⟩

/-! ### The block of instances -/

theorem Block.getElem?_rst {b : Block} {k : Nat} {s : State} (h : b.insts[k]? = some s) :
    b.rst.insts[k]? = some (hardwareReset (freshStream s.input) s) := by
  simp [Block.rst, h]

/-- Settles O10: the reset of the block is that of each instance, with its own fresh stream. -/
theorem hardwareResetEffect : Obligations.HardwareResetEffect := by
  refine fun b => ⟨by simp [Block.rst], fun k s h => ⟨freshStream s.input, Block.getElem?_rst h, fun f hf => ?_,
    fun hf => ?_⟩⟩
  · simp [freshStream, hf]
  · simp [freshStream, hf]

/-- The fetch gives a reset only where one stands in the input (R250). -/
theorem afterRst_of_fetch_rst {input fresh : List HostEvent} (h : fetch input = .rst fresh) :
    afterRst input = some fresh := by
  unfold fetch at h
  split at h
  · cases h
  · split at h
    next hr => cases h; exact hr
    · cases h

theorem step_of_fetch_rst {s : State} {fresh : List HostEvent} (h : fetch s.input = .rst fresh) :
    step s = .next (hardwareReset (freshStream s.input) s) := by
  rw [freshStream, afterRst_of_fetch_rst h, step, h]
  rfl

/-- Settles O39: the three outcomes of the fetch; a command replaces entry `k` of the list alone, and the reset of the
block is at `k` the step of `k`. -/
theorem instancesAreIndependent : Obligations.InstancesAreIndependent := by
  refine fun b k => ⟨fun i words h => ?_, fun fresh h => ⟨?_, ?_⟩, fun f h => ?_⟩
  · obtain ⟨t, ht, -⟩ := exec_answers i (b.insts[k].consume words)
    have hstep : step b.insts[k] = .next t := by rw [step, h, advance, ht]
    refine ⟨⟨b.insts.set k t⟩, t, by simp only [Block.stepAt, h, hstep], hstep, by simp, by simp, fun j hj => ?_⟩
    exact List.getElem?_set_ne hj.symm
  · simp only [Block.stepAt, h]
  · exact ⟨_, step_of_fetch_rst h, Block.getElem?_rst (List.getElem?_eq_getElem k.isLt)⟩
  · have hstep : step b.insts[k] = .fault f := by rw [step, h, advance]
    simp only [Block.stepAt, h, hstep]

/-! ### What every command leaves unchanged -/

/-- Every command appends one response and leaves the parameters and the host's side of the streams to the step (R24,
R61). -/
theorem Answers.frame {s t : State} {i : Instr} (h : Answers s i t) :
    t.params = s.params ∧ t.input = s.input ∧ t.cpc = s.cpc ∧ ∃ w ws, t.responses = s.responses ++ w :: ws := by
  cases h <;> exact ⟨rfl, rfl, rfl, _, _, rfl⟩

/-- `BOUND` is written by `CONSTRUCT` alone (R11). -/
theorem Answers.bound_of_not_construct {s t : State} {i : Instr} (h : Answers s i t) (hc : i.isConstruct = false) :
    t.status.bound = s.status.bound := by
  cases h with
  | unsupported => cases hc
  | unconfigurable | constructed => simp at hc
  | stored | illegal | unbound | violated | full | fed | result | reset => rfl

/-- Settles O31: the frame, and the writers of `BOUND` and `CFG`, read off the cases of an answer. -/
theorem frameOfEveryCommand : Obligations.FrameOfEveryCommand := by
  intro i s t h
  have ha := Answers.of_exec h
  obtain ⟨hparams, hinput, hcpc, hresp⟩ := ha.frame
  exact ⟨hparams, hinput, hcpc, hresp, fun hc => ⟨ha.bound_of_not_construct hc, ha.cfg_of_not_construct hc⟩⟩

/-! ### Faults -/

/-- The response of a fault is the status word with no data bytes: the code in its top byte (R61). -/
theorem statusWord_zero (c : FaultCode) : statusWord c 0 = c.bits.setWidth 32 <<< 24 := by
  cases c <;> decide

/-- Fault entry as `answered` writes it (R233). -/
theorem raiseFault_eq_answered (c : FaultCode) (s : State) :
    raiseFault c s = s.answered ⟨if c = .configurationError then false else s.status.bound, c⟩
      (if c = .configurationError then none else s.inst) [c.bits.setWidth 32 <<< 24] := by
  rw [← statusWord_zero]
  rfl

/-- A command that ends in a fault on a machine without one has entered it (R233). -/
theorem Answers.eq_raiseFault {s t : State} {i : Instr} (h : Answers s i t) (hf : s.status.fault = .noFault)
    (ht : t.status.fault ≠ .noFault) : t = raiseFault t.status.fault s := by
  obtain h0 | ⟨-, rfl⟩ | rfl | rfl | ⟨rfl, -⟩ := h.fault_cases hf
  · exact absurd h0 ht
  all_goals rfl

/-- Settles O17: the fault entered, the fault stored, and the step that consumes the command's words. -/
theorem faultEntry : Obligations.FaultEntry := by
  refine ⟨fun i s t hf h ht => ?_, fun i s hf => ?_, fun i s t later hwf hin h => ?_⟩
  · exact ((Answers.of_exec h).eq_raiseFault hf ht).trans (raiseFault_eq_answered _ s)
  · rw [exec_of_fault i hf, statusWord_zero]
  · rw [step_of_encode hwf hin] at h
    obtain ⟨-, hinput, hcpc, -⟩ := (Answers.of_exec h).frame
    exact ⟨hcpc, hinput⟩

/-- Settles O18: a command of a faulted machine only answers; the other step is the reset. -/
theorem onlyHardwareResetClearsAFault : Obligations.OnlyHardwareResetClearsAFault := by
  intro s t hf h
  obtain ⟨i, rest, -, ht⟩ | ⟨e, fresh, hd, hr, ht⟩ | ⟨e, -, -, ht⟩ := step_cases h
  · left
    cases ht.trans (exec_of_fault i hf)
    exact ⟨rfl, rfl, rfl⟩
  · right
    cases ht
    exact ⟨e, hd, hr, rfl, rfl⟩
  · cases ht

/-- Settles O13: a variant left out of `VARIANTS` fails as a `VID` without a row does. -/
theorem restrictedVariantsAreUnsupported : Obligations.RestrictedVariantsAreUnsupported := by
  intro s v outreq hf hv
  have hexec : exec (v.construct outreq) s = .next (raiseFault .configurationError s) := by
    simp [exec_construct, constructVariant, hf, hv]
  exact ⟨hexec, fun vid => (exec_constructUnsupported outreq vid hf).trans hexec.symm⟩

/-! ### The invariant -/

/-- Settles O33: `StateInv.step`, which goes through the cases of an answer. -/
theorem stepKeepsTheInvariant : Obligations.StepKeepsTheInvariant :=
  fun _ _ => StateInv.step

/-- Settles O32: no instance exists after a reset. -/
theorem invariantHoldsAfterReset : Obligations.InvariantHoldsAfterReset :=
  ⟨fun _ => Initial.inv, by decide, rfl, rfl, rfl, rfl⟩

/-! ### Commands of a ready machine -/

theorem execAll_cons {i : Instr} {s t : State} (h : exec i s = .next t) (is : List Instr) :
    execAll (i :: is) s = execAll is t := by
  simp only [execAll, h]

/-- Settles O26: a `FEED` of no bytes passes the capacity check of a ready machine and stores nothing. -/
theorem nopChangesNothing : Obligations.NopChangesNothing := by
  refine ⟨rfl, fun s a h => ?_⟩
  have hroom : ¬ (a.cfg.vid = 0x30 ∧ s.params.mixBufCap.toNat < a.bufLen + (0 : BitVec 24).toNat) := fun ⟨hv, hfull⟩ =>
    absurd ((h.inv.inst a h.inst).whole (Cfg.isCity_iff.2 hv)).1 (Nat.not_le.2 hfull)
  have hexec := h.exec_feed 0 []
  rw [if_neg hroom] at hexec
  rw [h.status_eq]
  exact execAll_cons hexec []

/-- Settles O28: each of the three commands leaves the fresh instance of the configuration. -/
theorem reuseAfterReset : Obligations.ReuseAfterReset := by
  intro s a v outreq outlen h hv hn hcfg
  refine ⟨_, _, _, h.exec_result, h.exec_reset, exec_construct_binds h.noFault hv hn, ?_, ?_, rfl, rfl, ?_⟩ <;>
    rw [hcfg] <;> rfl

end Sys2Proof.Machine

/-! Proofs of the statements about a message in progress: bytes stored in the buffer (R38, R203), and the message an
instance holds (R25). -/

namespace Sys2Proof.Machine

/-! ### Sequences of bytes in the buffer -/

theorem Memory.bytes_append (m : Memory) (a n k : Nat) :
    Memory.bytes m a (n + k) = Memory.bytes m a n ++ Memory.bytes m (a + n) k := by
  induction n generalizing a with
  | zero => simp [Memory.bytes]
  | succ n ih => simp [Nat.succ_add, Memory.bytes, ih, Nat.add_assoc]

theorem Memory.bytes_congr {m m' : Memory} {a n : Nat}
    (h : ∀ x, a ≤ x → x < a + n → Memory.read m x = Memory.read m' x) : Memory.bytes m a n = Memory.bytes m' a n := by
  refine List.ext_getElem? fun k => ?_
  rw [Memory.bytes_getElem?, Memory.bytes_getElem?]
  split
  case isTrue hk => rw [h (a + k) (Nat.le_add_right a k) (by omega)]
  case isFalse => rfl

theorem Memory.bytes_eq_zeros {m : Memory} {a : Nat} (n : Nat) (h : ∀ x, a ≤ x → Memory.read m x = 0) :
    Memory.bytes m a n = zeros n := by
  refine List.ext_getElem? fun k => ?_
  rw [Memory.bytes_getElem?, h _ (Nat.le_add_right a k), zeros, List.getElem?_replicate]

/-- Reading the bytes up to the end of a stored sequence: those before it, then the sequence. -/
theorem Memory.bytes_writeBytes {m : Memory} (hw : Memory.wf m = true) (n : Nat) (d : List Byte) :
    Memory.bytes (Memory.writeBytes m n d) 0 (n + d.length) = Memory.bytes m 0 n ++ d := by
  rw [Memory.bytes_append, Nat.zero_add]
  congr 1
  · refine Memory.bytes_congr fun x _ hx => ?_
    rw [Memory.read_writeBytes hw, dif_neg (by omega)]
  · refine List.ext_getElem? fun k => ?_
    rw [Memory.bytes_getElem?, Memory.read_writeBytes hw]
    by_cases hk : k < d.length
    · simp [hk]
    · simp [hk]

/-- The same for one stored byte. -/
theorem Memory.bytes_write {m : Memory} (hw : Memory.wf m = true) (n : Nat) (b : Byte) :
    Memory.bytes (Memory.write m n b) 0 (n + 1) = Memory.bytes m 0 n ++ [b] :=
  Memory.bytes_writeBytes hw n [b]

/-- Settles O54: the length field follows the first 56 bytes, which are the pending ones, the pad byte and, since
nothing stands behind them, zeros. -/
theorem lengthFieldByMemWrite : Obligations.LengthFieldByMemWrite := by
  intro p a ha hlen
  have hpad := Memory.wf_write ha.canonical a.bufLen 0x80
  have hzero : ∀ x, a.bufLen + 1 ≤ x → Memory.read (Memory.write a.buf a.bufLen 0x80) x = 0 := fun x hx => by
    rw [Memory.read_write ha.canonical, if_neg (by omega), ha.zeroBeyond x (by omega)]
  have hsplit : 56 = a.bufLen + 1 + (55 - a.bufLen) := by omega
  calc Memory.bytes (memWrite (Memory.write a.buf a.bufLen 0x80) 56 8 (shl a.len 3)) 0 64
    _ = Memory.bytes (Memory.write a.buf a.bufLen 0x80) 0 56 ++ unpack64le (shl a.len 3) :=
      Memory.bytes_writeBytes hpad 56 _
    _ = a.pending ++ [0x80] ++ zeros (55 - a.bufLen) ++ unpack64le (shl a.len 3) := by
      rw [hsplit, Memory.bytes_append, Memory.bytes_write ha.canonical, Nat.zero_add, Memory.bytes_eq_zeros _ hzero]
      rfl

/-! ### A `FEED` within a block -/

/-- Feeding bytes that complete no block, or any bytes of `CITY64`, stores them behind the pending ones. -/
theorem feedBytes_store {a : Inst} {d : List Byte}
    (h : a.cfg.isCity = true ∨ a.bufLen + d.length < a.cfg.block.toNat) :
    feedBytes a d = ⟨a.cfg, a.engine, Memory.writeBytes a.buf a.bufLen d, a.bufLen + d.length,
      a.len + BitVec.ofNat 64 d.length⟩ := by
  induction d generalizing a with
  | nil => simp [Memory.writeBytes]
  | cons b d ih =>
    rw [List.length_cons] at h
    have hstore : feedByte a b = storeByte a b := feedByte_store (h.imp_right fun hlt => by omega)
    rw [feedBytes_cons, hstore, ih (a := storeByte a b) (h.imp_right fun hlt => by simp only [storeByte]; omega)]
    simp [storeByte, Memory.writeBytes, BitVec.ofNat_add, Nat.add_assoc, Nat.add_comm 1, BitVec.add_assoc,
      BitVec.add_comm 1#64]

theorem feedData_ofNat_length {n : BitVec 24} {p : List U32} (h : (Instr.feed n p).wf = true) :
    BitVec.ofNat 64 (feedData n p).length = n.setWidth 64 := by
  rw [feedData_length h]
  exact BitVec.ofNat_toNat 64 n

/-- Settles O24: the bytes are stored one behind the other (`feedBytes_store`), and read back from where they stand. -/
theorem feedBelowTheBlockOnlyAppends : Obligations.FeedBelowTheBlockOnlyAppends := by
  intro s a n p h hwf hroom
  have hlen := feedData_length hwf
  have hinv := h.inv.inst a h.inst
  have hstore : feedBytes a (feedData n p) = _ := feedBytes_store (by
    rw [Cfg.isCity_iff, hlen]
    split_ifs at hroom with hv
    · exact .inl hv
    · exact .inr hroom)
  have hfits : ¬ (a.cfg.vid = 0x30 ∧ s.params.mixBufCap.toNat < a.bufLen + n.toNat) := fun ⟨hv, hfull⟩ => by
    rw [if_pos hv] at hroom
    omega
  refine ⟨_, (h.exec_feed n p).trans (if_neg hfits), feedBytes_cfg _ _, ?_, ?_, ?_, fun x => ?_⟩
  · rw [hstore]
  · rw [hstore, hlen]
  · rw [hstore, feedData_ofNat_length hwf]
  · rw [hstore, Memory.read_writeBytes hinv.canonical]
    have hin : (a.bufLen ≤ x ∧ x - a.bufLen < (feedData n p).length) ↔ a.bufLen ≤ x ∧ x < a.bufLen + n.toNat := by
      omega
    simp only [hin]
    split
    case isTrue hx => rw [List.getD_eq_getElem]
    case isFalse => rfl

/-- Feeding exactly the bytes that complete the block. -/
theorem feedBytes_complete {a : Inst} {d : List Byte} (hw : Memory.wf a.buf = true) (hc : a.cfg.isCity = false)
    (hd : d ≠ []) (h : a.bufLen + d.length = a.cfg.block.toNat) :
    feedBytes a d = ⟨a.cfg, a.engine.absorb a.cfg (a.len + BitVec.ofNat 64 d.length) (a.pending ++ d), [], 0,
      a.len + BitVec.ofNat 64 d.length⟩ := by
  obtain rfl | ⟨d, b, rfl⟩ := List.eq_nil_or_concat' d
  · exact absurd rfl hd
  · rw [List.length_append, List.length_singleton] at h
    have hbytes : Memory.bytes (Memory.write (Memory.writeBytes a.buf a.bufLen d) (a.bufLen + d.length) b) 0
        a.cfg.block.toNat = a.pending ++ (d ++ [b]) := by
      rw [← h, ← Nat.add_assoc, Memory.bytes_write (Memory.wf_writeBytes hw _ _), Memory.bytes_writeBytes hw,
        List.append_assoc]
      rfl
    have hlen : a.len + BitVec.ofNat 64 d.length + 1 = a.len + BitVec.ofNat 64 (d ++ [b]).length := by
      simp [BitVec.ofNat_add, BitVec.add_assoc]
    have hstore : feedBytes a d = _ := feedBytes_store (.inr (by omega))
    rw [feedBytes_append, hstore, feedBytes_cons, feedBytes_nil, feedByte_absorb, absorbBuffer, storeByte, hlen,
      hbytes]
    · exact hc
    · exact (Nat.add_assoc _ _ _).trans h

/-- Settles O25: `feedBytes_complete`; the block is not empty before its last byte, so some byte is fed. -/
theorem feedAbsorbsTheCompletedBlock : Obligations.FeedAbsorbsTheCompletedBlock := by
  intro s a n p h hwf hv hn
  have hinv := h.inv.inst a h.inst
  have hcity := Cfg.isCity_eq_false_iff.2 hv
  have hlen := feedData_length hwf
  have hne : feedData n p ≠ [] := fun h0 => by
    have := hinv.drained hcity
    simp only [h0, List.length_nil] at hlen
    omega
  rw [h.exec_feed, if_neg fun hfull => hv hfull.1, feedBytes_complete hinv.canonical hcity hne (hlen ▸ hn),
    feedData_ofNat_length hwf]

/-! ### A message cut into blocks -/

theorem blockOf_append {n k : Nat} {m : List Byte} (d : List Byte) (h : n * (k + 1) ≤ m.length) :
    blockOf n (m ++ d) k = blockOf n m k := by
  rw [Nat.mul_succ] at h
  rw [blockOf, blockOf, List.drop_append_of_le_length (by omega),
    List.take_append_of_le_length (by rw [List.length_drop]; omega)]

/-- The bytes of `m` behind its whole blocks of `n` bytes. -/
def tailOf (n : Nat) (m : List Byte) : List Byte := m.drop (n * (m.length / n))

@[simp] theorem tailOf_length (n : Nat) (m : List Byte) : (tailOf n m).length = m.length % n := by
  rw [tailOf, List.length_drop, ← Nat.mod_eq_sub_mul_div]

theorem take_append_tailOf (n : Nat) (m : List Byte) : m.take (n * (m.length / n)) ++ tailOf n m = m :=
  List.take_append_drop _ m

section
variable {c : Cfg}

/-- Absorbing the first `k` blocks of `m`, cut off from the rest, is absorbing block after block of `m`. -/
theorem absorbed_take (hb : 0 < c.block.toNat) {m : List Byte} {k : Nat} (hk : c.block.toNat * k ≤ m.length) :
    absorbed c (m.take (c.block.toNat * k)) = (List.range k).foldl
      (fun e j => e.absorb c (BitVec.ofNat 64 (c.block.toNat * (j + 1))) (blockOf c.block.toNat m j))
      (Engine.fresh c) := by
  rw [absorbed, List.length_take_of_le hk, Nat.mul_div_cancel_left k hb]
  refine List.foldl_ext _ _ _ fun e j hj => ?_
  have hlen : c.block.toNat * (j + 1) ≤ (m.take (c.block.toNat * k)).length := by
    rw [List.length_take_of_le hk]
    exact Nat.mul_le_mul_left _ (List.mem_range.1 hj)
  conv => rhs; rw [← List.take_append_drop (c.block.toNat * k) m, blockOf_append _ hlen]

/-- Block `k` is absorbed behind the first `k`. -/
theorem absorbed_take_succ (hb : 0 < c.block.toNat) {m : List Byte} {k : Nat}
    (hk : c.block.toNat * (k + 1) ≤ m.length) :
    absorbed c (m.take (c.block.toNat * (k + 1))) = (absorbed c (m.take (c.block.toNat * k))).absorb c
      (BitVec.ofNat 64 (c.block.toNat * (k + 1))) (blockOf c.block.toNat m k) := by
  have hk' : c.block.toNat * k ≤ m.length := (Nat.mul_le_mul_left _ (Nat.le_succ k)).trans hk
  rw [absorbed_take hb hk, absorbed_take hb hk', List.range_succ, List.foldl_concat]

/-! ### The message an instance holds -/

/-- A fresh instance fed the first `k` blocks of a message: they are absorbed and nothing is pending. -/
theorem feedBytes_fresh_take (hc : c.isCity = false) (hb : 0 < c.block.toNat) {m : List Byte} {k : Nat}
    (hk : c.block.toNat * k ≤ m.length) :
    feedBytes (Inst.fresh c) (m.take (c.block.toNat * k)) = ⟨c, absorbed c (m.take (c.block.toNat * k)), [], 0,
      BitVec.ofNat 64 (c.block.toNat * k)⟩ := by
  induction k with
  | zero => simp [absorbed, Inst.fresh]
  | succ k ih =>
    rw [absorbed_take_succ hb hk]
    rw [Nat.mul_succ] at hk ⊢
    have hblock : (blockOf c.block.toNat m k).length = c.block.toNat := by
      rw [blockOf, List.length_take_of_le (by rw [List.length_drop]; omega)]
    have hne : blockOf c.block.toNat m k ≠ [] := List.ne_nil_of_length_pos (by omega)
    rw [List.take_add, feedBytes_append, ih (by omega)]
    rw [← blockOf, feedBytes_complete rfl hc hne (by simp [hblock]), hblock, BitVec.ofNat_add]
    rfl

/-- A fresh instance fed a message: its whole blocks are absorbed, its tail is pending (R25). -/
theorem feedBytes_fresh (hc : c.isCity = false) (hb : 0 < c.block.toNat) (m : List Byte) :
    feedBytes (Inst.fresh c) m = ⟨c, absorbed c m, Memory.writeBytes [] 0 (tailOf c.block.toNat m),
      m.length % c.block.toNat, BitVec.ofNat 64 m.length⟩ := by
  have hq := Nat.mul_div_le m.length c.block.toNat
  have htail := Nat.mod_lt m.length hb
  have habsorbed : absorbed c (m.take (c.block.toNat * (m.length / c.block.toNat))) = absorbed c m :=
    absorbed_take hb hq
  conv => lhs; rw [← take_append_tailOf c.block.toNat m, feedBytes_append, feedBytes_fresh_take hc hb hq]
  rw [feedBytes_store (.inr (by simpa using htail)), habsorbed, tailOf_length, ← BitVec.ofNat_add, Nat.div_add_mod]
  simp

/-- A fresh `CITY64` instance fed a message stores all of it. -/
theorem feedBytes_fresh_city (hc : c.isCity = true) (m : List Byte) :
    feedBytes (Inst.fresh c) m = ⟨c, Engine.fresh c, Memory.writeBytes [] 0 m, m.length, BitVec.ofNat 64 m.length⟩ := by
  rw [feedBytes_store (.inl hc)]
  simp [Inst.fresh]

/-- The bytes stored in an empty buffer are those read back. -/
theorem Memory.bytes_writeBytes_nil (d : List Byte) : Memory.bytes (Memory.writeBytes [] 0 d) 0 d.length = d := by
  simpa [Memory.bytes] using Memory.bytes_writeBytes Memory.wf_nil 0 d

theorem Memory.read_writeBytes_nil {d : List Byte} {x : Nat} (h : d.length ≤ x) :
    Memory.read (Memory.writeBytes [] 0 d) x = 0 := by
  rw [Memory.read_writeBytes Memory.wf_nil, dif_neg (by omega)]
  rfl

@[simp] theorem absorbed_absorbing (c : Cfg) (m : List Byte) : (absorbed c m).absorbing = true := by
  rw [absorbed]
  induction List.range _ using List.reverseRecOn with
  | nil => exact Engine.fresh_absorbing c
  | append_singleton ks k ih => rw [List.foldl_concat, Engine.absorb_absorbing, ih]

/-- A fresh instance that was fed `m` holds `m`, within the store if it is `CITY64`. -/
theorem HoldsMessage.of_fresh {p : Params} {m : List Byte} (hb : c.isCity = false → 0 < c.block.toNat)
    (hcity : c.isCity = true → Engine.fresh c = .city64 ∧ m.length ≤ p.mixBufCap.toNat) :
    HoldsMessage p (feedBytes (Inst.fresh c) m) m := by
  have hself : feedBytes (Inst.fresh c) m = feedBytes (Inst.fresh (feedBytes (Inst.fresh c) m).cfg) m := by
    rw [feedBytes_cfg]
    rfl
  cases hc : c.isCity with
  | false =>
    rw [feedBytes_fresh hc (hb hc)] at hself ⊢
    have hlt := Nat.mod_lt m.length (hb hc)
    refine ⟨hself, rfl, fun _ => ⟨hlt, rfl, fun hm => ?_, rfl⟩, fun hv => ?_, fun x hx => ?_,
      absorbed_absorbing c m, ?_⟩
    · rw [BitVec.toNat_ofNat, Nat.mod_eq_of_lt hm]
    · exact absurd hv (Cfg.isCity_eq_false_iff.1 hc)
    · exact Memory.read_writeBytes_nil ((tailOf_length _ m).trans_le hx)
    · have hwhole : m.length - m.length % c.block.toNat = c.block.toNat * (m.length / c.block.toNat) := by
        have := Nat.div_add_mod m.length c.block.toNat
        omega
      rw [Inst.pending, ← tailOf_length, Memory.bytes_writeBytes_nil, tailOf_length, hwhole, tailOf]
  | true =>
    obtain ⟨hengine, hcap⟩ := hcity hc
    rw [feedBytes_fresh_city hc] at hself ⊢
    have hlen : m.length = (BitVec.ofNat 64 m.length).toNat := by
      rw [BitVec.toNat_ofNat, Nat.mod_eq_of_lt (by omega)]
    refine ⟨hself, rfl, fun hv => absurd (Cfg.isCity_iff.1 hc) hv, fun _ => ⟨hcap, rfl, hlen, hengine⟩,
      fun x hx => Memory.read_writeBytes_nil hx, Engine.fresh_absorbing c, ?_⟩
    rw [Inst.pending, Memory.bytes_writeBytes_nil, Nat.sub_self, List.drop_zero]

end

theorem CfgFrom.fresh_of_city {p : Params} {c : Cfg} (h : CfgFrom p c) (hc : c.isCity = true) :
    Engine.fresh c = .city64 := by
  obtain ⟨v, -, -, n, -, rfl⟩ := h
  rw [cfgOf_isCity] at hc
  subst hc
  rfl

theorem CfgFrom.holdsMessage {p : Params} {c : Cfg} {m : List Byte} (hp : p.ok = true) (h : CfgFrom p c)
    (hroom : c.isCity = true → m.length ≤ p.mixBufCap.toNat) : HoldsMessage p (feedBytes (Inst.fresh c) m) m :=
  .of_fresh (fun _ => h.block_pos hp) fun hc => ⟨h.fresh_of_city hc, hroom hc⟩

/-- A new message is empty. -/
theorem CfgFrom.holdsMessage_nil {p : Params} {c : Cfg} (hp : p.ok = true) (h : CfgFrom p c) :
    HoldsMessage p (Inst.fresh c) [] :=
  h.holdsMessage (m := []) hp fun _ => Nat.zero_le _

/-- Fed bytes follow the message already held. -/
theorem HoldsMessage.feedBytes {p : Params} {a : Inst} {m d : List Byte} (h : HoldsMessage p a m) (hp : p.ok = true)
    (ha : CfgFrom p a.cfg) (hroom : a.cfg.isCity = true → a.bufLen + d.length ≤ p.mixBufCap.toNat) :
    HoldsMessage p (Machine.feedBytes a d) (m ++ d) := by
  have hfed : Machine.feedBytes a d = Machine.feedBytes (Inst.fresh a.cfg) (m ++ d) := by
    rw [feedBytes_append, ← h.fed]
  rw [hfed]
  refine ha.holdsMessage hp fun hc => ?_
  obtain ⟨-, hlen, -⟩ := h.whole (Cfg.isCity_iff.1 hc)
  rw [List.length_append, ← hlen]
  exact hroom hc

/-! ### The message along a step -/

theorem messageAfter_of_fault {i : Instr} {t : State} (m : List Byte) (h : t.status.fault ≠ .noFault) :
    messageAfter i t m = m := by
  simp [messageAfter, h]

theorem messageAfter_construct (v : Variant) (outreq : BitVec 16) {t : State} (m : List Byte)
    (h : t.status.fault = .noFault) : messageAfter (v.construct outreq) t m = [] := by
  cases v <;> simp [messageAfter, h, Variant.construct]

theorem messageAfter_feed (n : BitVec 24) (p : List U32) {t : State} (m : List Byte) (h : t.status.fault = .noFault) :
    messageAfter (.feed n p) t m = m ++ feedData n p := by
  simp [messageAfter, h]

theorem messageAfter_initState {i : Instr} (hi : i = .result ∨ i = .reset) {t : State} (m : List Byte)
    (h : t.status.fault = .noFault) : messageAfter i t m = [] := by
  obtain rfl | rfl := hi <;> simp [messageAfter, h]

/-- What every command makes of the message (R203, R207, R233). -/
theorem Answers.holdsMessage {s t : State} {i : Instr} {m : List Byte} (h : Answers s i t) (hs : StateInv s)
    (hm : ∀ a, s.inst = some a → HoldsMessage s.params a m) :
    ∀ b, t.inst = some b → HoldsMessage t.params b (messageAfter i t m) := by
  cases h with
  | stored i hf =>
    rw [messageAfter_of_fault m (by simpa using hf)]
    exact hm
  | illegal | unbound | violated | full =>
    rw [messageAfter_of_fault m (by simp)]
    exact hm
  | unsupported | unconfigurable => exact fun b hb => by cases hb
  | constructed v outreq outlen hf hv hn =>
    rw [messageAfter_construct v outreq m rfl]
    rintro b ⟨⟩
    exact CfgFrom.holdsMessage_nil hs.params ⟨v, hv, outreq, outlen, hn, rfl⟩
  | fed n p a hf hb hi _ hroom =>
    rw [messageAfter_feed n p m (by simpa using hf)]
    rintro b ⟨⟩
    have hlen : (feedData n p).length ≤ n.toNat := List.length_take_le _ _
    exact (hm a hi).feedBytes hs.params (hs.inst a hi).cfg fun hc => (Nat.add_le_add_left hlen _).trans (hroom hc)
  | result a hf hb hi | reset a hf hb hi =>
    rw [messageAfter_initState (by simp) m (by simpa using hf)]
    rintro b ⟨⟩
    exact CfgFrom.holdsMessage_nil hs.params (hs.inst a hi).cfg

/-- A step is the answer of a command with its words consumed, or the hardware reset: with the fetch named. -/
theorem fetch_cases_of_step {s t : State} (h : step s = .next t) :
    (∃ i words, fetch s.input = .command i words ∧ Answers (s.consume words) i t) ∨
    (∃ fresh, fetch s.input = .rst fresh ∧ t = hardwareReset fresh s) := by
  rw [step] at h
  cases hfetch : fetch s.input with
  | command i words =>
    rw [hfetch] at h
    exact .inl ⟨i, words, rfl, .of_exec h⟩
  | rst fresh =>
    rw [hfetch] at h
    cases h
    exact .inr ⟨fresh, rfl, rfl⟩
  | stuck f =>
    rw [hfetch] at h
    cases h

theorem Carries.step {s t : State} {m : List Byte} (hs : Carries s m) (h : Machine.step s = .next t) :
    Carries t (stepMessage s t m) := by
  obtain ⟨hinv, hm⟩ := hs
  refine ⟨hinv.step h, ?_⟩
  rw [stepMessage]
  obtain ⟨i, words, hfetch, ha⟩ | ⟨fresh, hfetch, rfl⟩ := fetch_cases_of_step h
  · rw [hfetch]
    exact ha.holdsMessage (hinv.congr rfl rfl rfl) hm
  · exact fun a ha => by cases ha

/-- Settles O35: `Carries.step`. -/
theorem stepKeepsTheMessage : Obligations.StepKeepsTheMessage :=
  fun _ _ _ => Carries.step

theorem Run.carries {s0 s : State} {m : List Byte} (h0 : Initial s0) (h : Run s0 s m) : Carries s m := by
  induction h with
  | start => exact ⟨h0.inv, fun a ha => by simp [h0.inst] at ha⟩
  | step _ hstep ih => exact ih.step hstep

theorem Reachable.exists_run {s0 s : State} (h : Reachable s0 s) : ∃ m, Run s0 s m := by
  induction h with
  | start => exact ⟨[], .start⟩
  | step _ hstep ih =>
    obtain ⟨m, hrun⟩ := ih
    exact ⟨_, hrun.step hstep⟩

/-- Settles O36: the message is kept along the run (`Run.carries`). -/
theorem instanceHoldsItsMessage : Obligations.InstanceHoldsItsMessage := by
  refine fun s0 h0 => ⟨fun s m a hrun ha => ?_, fun s => Reachable.exists_run⟩
  obtain ⟨-, hm⟩ := hrun.carries h0
  exact hm a ha

end Sys2Proof.Machine

/-! Proofs of the statements about whole messages: any pieces of a message give the digest of the whole (R209), and
`HASH` answers it (R67). -/

namespace Sys2Proof.Machine

/-! ### A list of `FEED`s -/

/-- `FEED`s from their byte counts and payloads. -/
def feeds (chunks : List (BitVec 24 × List U32)) : List Instr := chunks.map fun c => .feed c.1 c.2

/-- The data bytes of a list of `FEED`s, joined. -/
def chunkBytes (chunks : List (BitVec 24 × List U32)) : List Byte := chunks.flatMap fun c => feedData c.1 c.2

@[simp] theorem feeds_cons (c : BitVec 24 × List U32) (cs : List (BitVec 24 × List U32)) :
    feeds (c :: cs) = .feed c.1 c.2 :: feeds cs := rfl

@[simp] theorem chunkBytes_cons (c : BitVec 24 × List U32) (cs : List (BitVec 24 × List U32)) :
    chunkBytes (c :: cs) = feedData c.1 c.2 ++ chunkBytes cs := rfl

theorem State.answered_answered (s : State) (st st' : Status) (i i' : Option Inst) (ws ws' : List U32) :
    (s.answered st i ws).answered st' i' ws' = s.answered st' i' (ws ++ ws') := by
  simp [State.answered]

section
variable {s : State} {a : Inst}

theorem Ready.eq_answered (h : Ready s a) : s = s.answered ⟨true, .noFault⟩ (some a) [] := by
  rw [← h.status_eq, ← h.inst]
  simp [State.answered]

/-- A ready machine stays ready when it is fed within the store. -/
theorem Ready.fed (h : Ready s a) {d : List Byte} (ws : List U32)
    (hroom : a.cfg.vid = 0x30 → a.bufLen + d.length ≤ s.params.mixBufCap.toNat) :
    Ready (s.answered ⟨true, .noFault⟩ (some (feedBytes a d)) ws) (feedBytes a d) :=
  ⟨.of_inst h.inv.params rfl rfl ((h.inv.inst a h.inst).feedBytes d (hroom ∘ Cfg.isCity_iff.1)), rfl, rfl, rfl⟩

/-- `BUFLEN` of `CITY64` counts all bytes fed. -/
theorem feedBytes_bufLen_of_city {d : List Byte} (hv : a.cfg.vid = 0x30) :
    (feedBytes a d).bufLen = a.bufLen + d.length := by
  rw [feedBytes_store (.inl (Cfg.isCity_iff.2 hv))]

/-- One `FEED` within the store. -/
theorem Ready.exec_feed_fits (h : Ready s a) {n : BitVec 24} {p : List U32} (hwf : (Instr.feed n p).wf = true)
    (hroom : a.cfg.vid = 0x30 → a.bufLen + (feedData n p).length ≤ s.params.mixBufCap.toNat) :
    exec (.feed n p) s = .next (s.answered ⟨true, .noFault⟩ (some (feedBytes a (feedData n p))) [0x00000000]) := by
  rw [feedData_length hwf] at hroom
  exact (h.exec_feed n p).trans (if_neg fun ⟨hv, hfull⟩ => Nat.not_lt.2 (hroom hv) hfull)

/-- `FEED`s within the store feed their joined bytes, each answering `OK` (R203). -/
theorem Ready.execAll_feeds (h : Ready s a) {chunks : List (BitVec 24 × List U32)} (is : List Instr)
    (hwf : ∀ c ∈ chunks, (Instr.feed c.1 c.2).wf = true)
    (hroom : a.cfg.vid = 0x30 → a.bufLen + (chunkBytes chunks).length ≤ s.params.mixBufCap.toNat) :
    execAll (feeds chunks ++ is) s = execAll is (s.answered ⟨true, .noFault⟩
      (some (feedBytes a (chunkBytes chunks))) (List.replicate chunks.length 0x00000000)) := by
  induction chunks generalizing s a with
  | nil =>
    conv => lhs; rw [h.eq_answered]
    rfl
  | cons c cs ih =>
    simp only [chunkBytes_cons, List.length_append] at hroom
    have hfirst : a.cfg.vid = 0x30 → a.bufLen + (feedData c.1 c.2).length ≤ s.params.mixBufCap.toNat :=
      fun hv => by have := hroom hv; omega
    rw [feeds_cons, List.cons_append, execAll_cons (h.exec_feed_fits (hwf c List.mem_cons_self) hfirst),
      ih (h.fed _ hfirst) (fun c' hc' => hwf c' (List.mem_cons_of_mem _ hc')) (fun hv => ?_),
      State.answered_answered, chunkBytes_cons, feedBytes_append, List.length_cons, List.replicate_succ,
      List.singleton_append]
    rw [feedBytes_cfg] at hv
    rw [feedBytes_bufLen_of_city hv, Nat.add_assoc]
    exact hroom hv

/-- `RESULT` behind them answers the digest of the message with the joined bytes (R205). -/
theorem Ready.execAll_feeds_result (h : Ready s a) {chunks : List (BitVec 24 × List U32)}
    (hwf : ∀ c ∈ chunks, (Instr.feed c.1 c.2).wf = true)
    (hroom : a.cfg.vid = 0x30 → a.bufLen + (chunkBytes chunks).length ≤ s.params.mixBufCap.toNat) :
    execAll (feeds chunks ++ [.result]) s = .next (s.answered ⟨true, .noFault⟩ (some (Inst.fresh a.cfg))
      (List.replicate chunks.length 0x00000000 ++
        responseWords .noFault (digest s.params (feedBytes a (chunkBytes chunks))))) := by
  rw [h.execAll_feeds _ hwf hroom, execAll_cons (h.fed _ hroom).exec_result, State.answered_answered, feedBytes_cfg]
  rfl

/-- A stored fault outlasts any commands (R237). -/
theorem execAll_of_fault (hf : s.status.fault ≠ .noFault) (is : List Instr) :
    ∃ t, execAll is s = .next t ∧ t.status = s.status := by
  induction is generalizing s with
  | nil => exact ⟨s, rfl, rfl⟩
  | cons i is ih =>
    rw [execAll_cons (exec_of_fault i hf)]
    exact ih (s := s.answered s.status s.inst [statusWord s.status.fault 0]) hf

/-- `FEED`s that go beyond the store end in `CapacityExceeded`, whatever follows them (R235). -/
theorem Ready.execAll_feeds_full (h : Ready s a) {chunks : List (BitVec 24 × List U32)} (is : List Instr)
    (hwf : ∀ c ∈ chunks, (Instr.feed c.1 c.2).wf = true) (hv : a.cfg.vid = 0x30)
    (hfull : s.params.mixBufCap.toNat < a.bufLen + (chunkBytes chunks).length) :
    ∃ t, execAll (feeds chunks ++ is) s = .next t ∧ t.status.fault = .capacityExceeded := by
  induction chunks generalizing s a with
  | nil =>
    obtain ⟨hcap, -⟩ := (h.inv.inst a h.inst).whole (Cfg.isCity_iff.2 hv)
    exact absurd hcap (Nat.not_le.2 hfull)
  | cons c cs ih =>
    have hlen := feedData_length (hwf c List.mem_cons_self)
    rw [feeds_cons, List.cons_append]
    by_cases hfirst : s.params.mixBufCap.toNat < a.bufLen + c.1.toNat
    · rw [execAll_cons ((h.exec_feed c.1 c.2).trans (if_pos ⟨hv, hfirst⟩))]
      obtain ⟨t, ht, hst⟩ := execAll_of_fault
        (s := s.answered ⟨true, .capacityExceeded⟩ (some a) [0x04000000]) (by simp [State.answered]) (feeds cs ++ is)
      exact ⟨t, ht, congrArg Status.fault hst⟩
    · have hfits : a.cfg.vid = 0x30 → a.bufLen + (feedData c.1 c.2).length ≤ s.params.mixBufCap.toNat :=
        fun _ => by omega
      rw [execAll_cons (h.exec_feed_fits (hwf c List.mem_cons_self) hfits)]
      refine ih (h.fed _ hfits) (fun c' hc' => hwf c' (List.mem_cons_of_mem _ hc')) (by rwa [feedBytes_cfg]) ?_
      rw [feedBytes_bufLen_of_city hv, Nat.add_assoc, ← List.length_append, ← chunkBytes_cons]
      exact hfull

end

/-- Settles O37: the pieces and the whole are two lists of `FEED`s with the same joined bytes. -/
theorem streamingEquivalence : Obligations.StreamingEquivalence := by
  intro s a chunks n p h hwf hwf1 hjoin
  have hwhole : ∀ c ∈ [(n, p)], (Instr.feed c.1 c.2).wf = true := by simpa using hwf1
  have hbytes : chunkBytes chunks = feedData n p := hjoin
  have hbytes1 : chunkBytes [(n, p)] = feedData n p := List.append_nil _
  have hlen := feedData_length hwf1
  by_cases hroom : a.cfg.vid = 0x30 → a.bufLen + n.toNat ≤ s.params.mixBufCap.toNat
  · rw [← hlen] at hroom
    refine ⟨_, _, h.execAll_feeds_result hwf (by rwa [hbytes]), h.execAll_feeds_result hwhole (by rwa [hbytes1]),
      fun _ => ⟨rfl, rfl, rfl, responseWords .noFault (digest s.params (feedBytes a (feedData n p))), ?_, ?_⟩,
      fun hv hfull => ?_⟩
    · rw [State.answered, hbytes, List.append_assoc]
    · rw [State.answered, hbytes1, List.append_assoc]
      rfl
    · exact absurd (hroom hv) (by omega)
  · obtain ⟨hv, hfull⟩ := Classical.not_imp.1 hroom
    rw [← hlen, Nat.not_le] at hfull
    obtain ⟨b, hb, hbf⟩ := h.execAll_feeds_full [.result] hwf hv (by rwa [hbytes])
    obtain ⟨c, hc, hcf⟩ := h.execAll_feeds_full [.result] hwhole hv (by rwa [hbytes1])
    exact ⟨b, c, hb, hc, fun hfits => absurd hfits hroom, fun _ _ => ⟨hbf, hcf⟩⟩

/-! ### `HASH` -/

/-- The instructions are well-formed `FEED`s whose joined data bytes are `d`. -/
def FeedsOf (is : List Instr) (d : List Byte) : Prop :=
  ∃ chunks, is = feeds chunks ∧ (∀ c ∈ chunks, (Instr.feed c.1 c.2).wf = true) ∧ chunkBytes chunks = d

theorem FeedsOf.nil : FeedsOf [] [] := ⟨[], rfl, by simp, rfl⟩

theorem FeedsOf.cons {is : List Instr} {d e : List Byte} (hd : d.length ≤ maxFeed) (h : FeedsOf is e) :
    FeedsOf (feedOne d :: is) (d ++ e) := by
  obtain ⟨chunks, rfl, hwf, rfl⟩ := h
  have hlt : d.length < 2 ^ 24 := Nat.lt_of_le_of_lt hd (by decide)
  refine ⟨(BitVec.ofNat 24 d.length, packWords d) :: chunks, rfl, List.forall_mem_cons.2 ⟨feedOne_wf hlt, hwf⟩, ?_⟩
  rw [chunkBytes_cons, feedData_packWords hlt]

/-- The pieces of a long `FEED` carry its data (R67). -/
theorem feedSplit_feedsOf {fuel : Nat} {data : List Byte} (h : data.length ≤ fuel) :
    FeedsOf (feedSplit fuel data) data := by
  have hlast : ∀ d : List Byte, d.length ≤ maxFeed → FeedsOf [feedOne d] d := fun d hd => by
    simpa using FeedsOf.nil.cons hd
  induction fuel generalizing data with
  | zero => exact hlast data (h.trans (Nat.zero_le _))
  | succ fuel ih =>
    rw [feedSplit]
    split
    case isTrue hmax => exact hlast data hmax
    case isFalse hmax =>
      have hpos : 0 < maxFeed := by decide
      have hrest := ih (data := data.drop maxFeed) (by rw [List.length_drop]; omega)
      simpa using hrest.cons (List.length_take_le maxFeed data)

/-- Settles O38: `CONSTRUCT` leaves a ready fresh instance, and the pieces of the data followed by `RESULT` answer the
digest. -/
theorem hashAnswersTheDigest : Obligations.HashAnswersTheDigest := by
  intro s v outreq outlen data hs hf hv hn hcap
  obtain ⟨chunks, hsplit, hwf, hdata⟩ := feedSplit_feedsOf (le_refl data.length)
  have hconstruct := exec_construct_binds hf hv hn
  have hready : Ready (s.answered ⟨true, .noFault⟩ (some (Inst.fresh (cfgOf s.params v outlen))) [0x00000000]) _ :=
    ⟨(Answers.of_exec hconstruct).inv hs, rfl, rfl, rfl⟩
  have hroom : (Inst.fresh (cfgOf s.params v outlen)).cfg.vid = 0x30 →
      (Inst.fresh (cfgOf s.params v outlen)).bufLen + (chunkBytes chunks).length ≤ s.params.mixBufCap.toNat := by
    intro hvid
    rw [hdata]
    exact (Nat.zero_add _).trans_le (hcap (cfgOf_isCity.1 (Cfg.isCity_iff.2 hvid)))
  have hrun := hready.execAll_feeds_result hwf hroom
  rw [State.answered_answered, hdata, ← List.append_assoc, List.singleton_append, ← List.replicate_succ] at hrun
  have hexpand : (AsmLine.hash v outreq data).expand = v.construct outreq :: (feeds chunks ++ [.result]) := by
    rw [AsmLine.expand, hsplit]
  exact ⟨_, chunks.length + 1, hexpand ▸ (execAll_cons hconstruct _).trans hrun, rfl, rfl,
    (List.append_assoc ..).symm⟩

end Sys2Proof.Machine

/-! Proofs of the digest formulas (R115, R137, R155 to R157), and of two facts about the sponges: a shorter output
begins a longer one (R113, R136), and the Keccak permutation is a bijection (R110). -/

namespace Sys2Proof.Machine

/-! ### Blocks of a padded message -/

theorem tailOf_append_drop (n : Nat) (m d : List Byte) : (m ++ d).drop (n * (m.length / n)) = tailOf n m ++ d :=
  List.drop_append_of_le_length (Nat.mul_div_le _ _)

/-- Behind the whole blocks of `m`, the blocks of `m ++ d` are those of its tail and `d`. -/
theorem blockOf_append_tail (n : Nat) (m d : List Byte) (k : Nat) :
    blockOf n (m ++ d) (m.length / n + k) = blockOf n (tailOf n m ++ d) k := by
  rw [blockOf, blockOf, ← tailOf_append_drop, List.drop_drop, Nat.mul_add]

theorem blockOf_zero_of_length {n : Nat} {d : List Byte} (h : d.length = n) : blockOf n d 0 = d := by
  simp [blockOf, ← h]

theorem blockOf_append_zero {n : Nat} {d e : List Byte} (h : d.length = n) : blockOf n (d ++ e) 0 = d := by
  simp [blockOf, ← h]

theorem blockOf_append_one {n : Nat} {d e : List Byte} (h : d.length = n) (he : e.length = n) :
    blockOf n (d ++ e) 1 = e := by
  rw [blockOf, Nat.mul_one, List.drop_left' h, ← he, List.take_length]

/-- A last block that is not whole is the tail. -/
theorem blockOf_last {n : Nat} (hn : 0 < n) (m : List Byte) : blockOf n m (m.length / n) = tailOf n m := by
  have hlt := Nat.mod_lt m.length hn
  rw [blockOf, ← tailOf, List.take_of_length_le (by rw [tailOf_length]; omega)]

/-- Absorbing the whole blocks of `m` and then `j` blocks of its tail and `d` is absorbing the blocks of `m ++ d`. -/
theorem foldl_blockOf_append {σ : Type} (f : σ → List Byte → σ) (n : Nat) (m d : List Byte) (j : Nat) (x : σ) :
    (List.range (m.length / n + j)).foldl (fun x k => f x (blockOf n (m ++ d) k)) x =
      (List.range j).foldl (fun x k => f x (blockOf n (tailOf n m ++ d) k))
        ((List.range (m.length / n)).foldl (fun x k => f x (blockOf n m k)) x) := by
  have hwhole : ∀ (x : σ), ∀ k ∈ List.range (m.length / n),
      f x (blockOf n (m ++ d) k) = f x (blockOf n m k) := fun x k hk => by
    rw [blockOf_append d ((Nat.mul_le_mul_left n (List.mem_range.1 hk)).trans (Nat.mul_div_le _ _))]
  rw [List.range_add, List.foldl_append, List.foldl_map, List.foldl_ext _ _ x hwhole]
  simp only [blockOf_append_tail]

/-! ### The instance at the end of a message -/

section
variable {c : Cfg}

theorem feedBytes_fresh_pending (hc : c.isCity = false) (hb : 0 < c.block.toNat) (m : List Byte) :
    (feedBytes (Inst.fresh c) m).pending = tailOf c.block.toNat m := by
  rw [feedBytes_fresh hc hb, Inst.pending, ← tailOf_length, Memory.bytes_writeBytes_nil]

theorem feedBytes_fresh_engine (hc : c.isCity = false) (hb : 0 < c.block.toNat) (m : List Byte) :
    (feedBytes (Inst.fresh c) m).engine = absorbed c m := by
  rw [feedBytes_fresh hc hb]

theorem absorbed_of_keccak (h : c.kind = .keccak) (m : List Byte) :
    absorbed c m = .keccak ((List.range (m.length / c.block.toNat)).foldl
      (fun a k => Keccak.absorb c.rounds.toNat c.block.toNat (blockOf c.block.toNat m k) a)
      (Vector.replicate 25 0)) .absorbing := by
  rw [absorbed, Engine.fresh_of_keccak h]
  exact List.foldl_hom (Engine.keccak · .absorbing) fun _ _ => rfl

theorem absorbed_of_xoodoo (h : c.kind = .xoodoo) (m : List Byte) :
    absorbed c m = .xoodoo ((List.range (m.length / c.block.toNat)).foldl
      (fun x k => Xoodoo.down c.rounds.toNat (blockOf c.block.toNat m k)
        (BitVec.ofNat 64 (c.block.toNat * (k + 1)) == 16) x) (Vector.replicate 12 0)) .absorbing := by
  rw [absorbed, Engine.fresh_of_xoodoo h]
  exact List.foldl_hom (Engine.xoodoo · .absorbing) fun _ _ => rfl

theorem absorbed_of_rmd (h : c.kind = .rmd) (m : List Byte) :
    absorbed c m = .rmd ((List.range (m.length / c.block.toNat)).foldl
      (fun h k => Ripemd.compress (blockOf c.block.toNat m k) h) Ripemd.iv) := by
  rw [absorbed, Engine.fresh_of_rmd h]
  exact List.foldl_hom Engine.rmd fun _ _ => rfl

end

section
variable {p : Params} {a : Inst}

/-- The digest of a Keccak instance: the padded block is absorbed, then squeezed (R112, R113). -/
theorem digest_of_keccak {l : KeccakLanes} {mode : Mode} (he : a.engine = .keccak l mode) :
    digest p a = (Keccak.squeeze a.cfg.rounds.toNat a.cfg.block.toNat a.cfg.outlen.toNat a.cfg.outlen.toNat
      (Keccak.absorb a.cfg.rounds.toNat a.cfg.block.toNat
        (Keccak.padBlock a.cfg.block.toNat a.cfg.ds a.pending) l)).1 := by
  simp [digest, finalize, extractOutput, he]

/-- The digest of a Xoodoo instance: the pending bytes are absorbed, an empty block for the empty message, then squeezed
(R135, R136). -/
theorem digest_of_xoodoo {l : XoodooLanes} {mode : Mode} (he : a.engine = .xoodoo l mode) :
    digest p a = (Xoodoo.squeeze a.cfg.rounds.toNat a.cfg.outlen.toNat a.cfg.outlen.toNat
      (if 0 < a.bufLen ∨ a.len = 0 then Xoodoo.down a.cfg.rounds.toNat a.pending (decide (a.len.toNat < 16)) l
        else l)).1 := by
  simp [digest, finalize, extractOutput, he]

/-- The digest of a RIPEMD instance: the chaining words after the last block (R156, R157). -/
theorem digest_of_rmd {h : Chaining} (he : a.engine = .rmd h) :
    digest p a = stBytes32 (Ripemd.finalize a.cfg.ds a.pending a.len h) := by
  simp [digest, finalize, extractOutput, he]

end

theorem Inst.fresh_cfg (c : Cfg) : (Inst.fresh c).cfg = c := rfl

theorem cfgOf_isCity_eq_false {p : Params} {v : Variant} (n : BitVec 16) (h : v ≠ .city64) :
    (cfgOf p v n).isCity = false :=
  Bool.eq_false_iff.2 (h ∘ cfgOf_isCity.1)

/-! ### `KECCAK` -/

theorem xorByteAt_append (l r : List Byte) (b v : Byte) : xorByteAt (l ++ b :: r) l.length v = l ++ (b ^^^ v) :: r := by
  induction l with
  | nil => rfl
  | cons x l ih => simp [xorByteAt, ih]

theorem zeros_succ (n : Nat) : zeros (n + 1) = 0 :: zeros n := rfl

theorem zeros_succ' (n : Nat) : zeros (n + 1) = zeros n ++ [0] := List.replicate_succ'

theorem keccakPad_length {block : Nat} (hb : 0 < block) (ds : Byte) (n : Nat) :
    (keccakPad block ds n).length = block - n % block := by
  have hlt := Nat.mod_lt n hb
  unfold keccakPad
  split
  · simp; omega
  · simp [zeros]; omega

/-- The padded block of R112 is the pending bytes with the padding of R115 behind them. -/
theorem Keccak.padBlock_eq {block n : Nat} (hb : 0 < block) (ds : Byte) {t : List Byte} (ht : t.length = n % block) :
    Keccak.padBlock block ds t = t ++ keccakPad block ds n := by
  have hlt := Nat.mod_lt n hb
  have hds : xorByteAt (t ++ zeros (block - t.length)) t.length ds = t ++ ds :: zeros (block - n % block - 1) := by
    obtain ⟨k, hk⟩ : ∃ k, block - n % block = k + 1 := ⟨block - n % block - 1, by omega⟩
    rw [ht, hk, zeros_succ, ← ht, xorByteAt_append]
    simp
  rw [Keccak.padBlock, hds, keccakPad]
  split
  case isTrue h =>
    have hlast : block - 1 = t.length := by omega
    rw [h, hlast]
    exact xorByteAt_append t [] ds 0x80
  case isFalse h =>
    have hsplit : t ++ ds :: zeros (block - n % block - 1) = (t ++ ds :: zeros (block - n % block - 2)) ++ [0] := by
      obtain ⟨k, hk⟩ : ∃ k, block - n % block = k + 2 := ⟨block - n % block - 2, by omega⟩
      simp [hk, zeros_succ']
    have hlast : block - 1 = (t ++ ds :: zeros (block - n % block - 2)).length := by
      simp [zeros]
      omega
    rw [hsplit, hlast, xorByteAt_append]
    simp

/-- The rates of the Keccak rows of R62. -/
theorem Variant.row_block_pos_of_keccak {p : Params} {v : Variant} (h : (v.row p).kind = .keccak) :
    0 < (v.row p).block.toNat := by
  cases v <;> simp_all [Variant.row]

/-- Settles O40: the padded block of `finalize` is the last block of the padded message (`Keccak.padBlock_eq`). -/
theorem keccakDigestFormula : Obligations.KeccakDigestFormula := by
  intro p v outlen m hk block padded
  have hb : 0 < block := Variant.row_block_pos_of_keccak hk
  have hc := cfgOf_isCity_eq_false (p := p) outlen (v := v) (by rintro rfl; cases hk)
  have hkind : (cfgOf p v outlen).kind = .keccak := (Variant.row_kind p v).trans hk
  have hrounds : (cfgOf p v outlen).rounds.toNat = 24 := congrArg BitVec.toNat (Variant.row_of_keccak hk).1
  have htail := Nat.div_add_mod m.length block
  have hlt := Nat.mod_lt m.length hb
  refine ⟨?_, ?_⟩
  · rw [List.length_append, keccakPad_length hb, Nat.mul_succ]
    omega
  · have hengine := (feedBytes_fresh_engine hc hb m).trans (absorbed_of_keccak hkind m)
    have hlast : Keccak.padBlock block (v.row p).ds (tailOf block m) =
        blockOf block (tailOf block m ++ keccakPad block (v.row p).ds m.length) 0 := by
      rw [Keccak.padBlock_eq hb _ (tailOf_length block m), blockOf_zero_of_length]
      rw [List.length_append, tailOf_length, keccakPad_length hb]
      omega
    rw [foldl_blockOf_append (fun a d => Keccak.absorb 24 block d a), digest_of_keccak hengine,
      feedBytes_fresh_pending hc hb, feedBytes_cfg, Inst.fresh_cfg, hrounds]
    rw [List.range_one, List.foldl_cons, List.foldl_nil, ← hlast]
    rfl

/-! ### `XOODYAK` -/

/-- `LEN` is 16 after the first block of a message and no other (R134, R203). -/
theorem ofNat_block_eq_first {k : Nat} (h : 16 * (k + 1) < 2 ^ 64) :
    (BitVec.ofNat 64 (16 * (k + 1)) == 16) = (k == 0) := by
  rw [Bool.eq_iff_iff, beq_iff_eq, beq_iff_eq, ← BitVec.toNat_inj, BitVec.toNat_ofNat, Nat.mod_eq_of_lt h]
  simp

/-- While `LEN` does not wrap, the whole blocks are absorbed with the colour on block 0 only (R134). -/
theorem foldl_down_first {m : List Byte} (hm : m.length < 2 ^ 64) (x : XoodooLanes) :
    (List.range (m.length / 16)).foldl
        (fun x k => Xoodoo.down 12 (blockOf 16 m k) (BitVec.ofNat 64 (16 * (k + 1)) == 16) x) x =
      (List.range (m.length / 16)).foldl (fun x k => Xoodoo.down 12 (blockOf 16 m k) (k == 0) x) x := by
  refine List.foldl_ext _ _ _ fun x k hk => ?_
  have hk := List.mem_range.1 hk
  rw [ofNat_block_eq_first (by omega)]

/-- The blocks of R137: the whole ones, and one more where bytes are left or the message is empty. -/
theorem xoodyakBlocks_eq (m : List Byte) :
    xoodyakBlocks m = if 0 < m.length % 16 ∨ m.length = 0 then m.length / 16 + 1 else m.length / 16 := by
  rw [xoodyakBlocks]
  simp only [← List.length_eq_zero_iff]
  split_ifs <;> omega

/-- Settles O41: while `LEN` does not wrap, it tells the first block from the others and the empty message from those
that end with a whole block. -/
theorem xoodyakDigestFormula : Obligations.XoodyakDigestFormula := by
  intro p outlen m hm
  have hblock : (cfgOf p .xoodyak outlen).block.toNat = 16 := rfl
  have hb : 0 < (cfgOf p .xoodyak outlen).block.toNat := hblock ▸ Nat.succ_pos 15
  have hc := cfgOf_isCity_eq_false (p := p) (v := .xoodyak) outlen (by decide)
  have hengine := (feedBytes_fresh_engine hc hb m).trans ((absorbed_of_xoodoo rfl m).trans
    (congrArg (Engine.xoodoo · .absorbing) (foldl_down_first hm _)))
  have hlen : (BitVec.ofNat 64 m.length).toNat = m.length := (BitVec.toNat_ofNat _ _).trans (Nat.mod_eq_of_lt hm)
  have hzero : BitVec.ofNat 64 m.length = 0 ↔ m.length = 0 := by
    rw [← BitVec.toNat_inj, hlen]
    rfl
  have hfirst : decide (m.length < 16) = (m.length / 16 == 0) := by
    rw [Bool.eq_iff_iff, decide_eq_true_iff, beq_iff_eq]
    omega
  rw [digest_of_xoodoo hengine, feedBytes_fresh_pending hc hb, feedBytes_fresh hc hb]
  simp only [hblock, hlen, hzero, hfirst, xoodyakBlocks_eq]
  split_ifs
  · rw [List.range_succ, List.foldl_concat, blockOf_last (by decide)]
    rfl
  · rfl

/-! ### `RIPEMD256` -/

/-- The bit length as the finalization shifts it (R156). -/
theorem shl_three_ofNat (n : Nat) : shl (BitVec.ofNat 64 n) 3 = BitVec.ofNat 64 (8 * n) := by
  refine BitVec.eq_of_toNat_eq ?_
  simp [shl, Nat.shiftLeft_eq, Nat.mul_comm n]

theorem zeros_add (n k : Nat) : zeros (n + k) = zeros n ++ zeros k := List.replicate_add ..

@[simp] theorem zeros_length (n : Nat) : (zeros n).length = n := List.length_replicate

@[simp] theorem unpack64le_length (w : U64) : (unpack64le w).length = 8 := rfl

/-- The last blocks of R156: one, or two where the pad byte leaves no room for the length. -/
def ripemdLastBlocks (n : Nat) : Nat := if n % 64 < 56 then 1 else 2

theorem ripemdPad_length (n : Nat) : n % 64 + (ripemdPad n).length = 64 * ripemdLastBlocks n := by
  simp only [ripemdPad, ripemdLastBlocks, List.length_cons, List.length_append, zeros_length, unpack64le_length]
  split_ifs <;> omega

theorem ripemdPad_of_lt {n : Nat} (h : n % 64 < 56) :
    ripemdPad n = 0x80 :: (zeros (56 - (n % 64 + 1)) ++ unpack64le (BitVec.ofNat 64 (8 * n))) := by
  rw [ripemdPad]
  congr 3
  omega

theorem ripemdPad_of_ge {n : Nat} (h : 56 ≤ n % 64) :
    ripemdPad n =
      0x80 :: (zeros (64 - (n % 64 + 1)) ++ (zeros 56 ++ unpack64le (BitVec.ofNat 64 (8 * n)))) := by
  rw [ripemdPad, ← List.append_assoc, ← zeros_add]
  congr 3
  omega

/-- The finalization compresses the last blocks of the padded message, one after the other (R156). -/
theorem Ripemd.finalize_eq_foldl {n : Nat} {t : List Byte} (ht : t.length = n % 64) (h : Chaining) :
    Ripemd.finalize 0x80 t (BitVec.ofNat 64 n) h = (List.range (ripemdLastBlocks n)).foldl
      (fun h k => Ripemd.compress (blockOf 64 (t ++ ripemdPad n) k) h) h := by
  have hlen : (t ++ ripemdPad n).length = 64 * ripemdLastBlocks n := by
    rw [List.length_append, ht, ripemdPad_length]
  have hp : (t ++ [0x80]).length = n % 64 + 1 := by simp [ht]
  rw [Ripemd.finalize, shl_three_ofNat, hp]
  by_cases hroom : n % 64 < 56
  · have hblock : t ++ [0x80] ++ zeros (56 - (n % 64 + 1)) ++ unpack64le (BitVec.ofNat 64 (8 * n)) =
        t ++ ripemdPad n := by
      rw [ripemdPad_of_lt hroom]
      simp
    rw [ripemdLastBlocks, if_pos hroom] at hlen ⊢
    rw [if_neg (by omega), hblock, List.range_one, List.foldl_cons, List.foldl_nil, blockOf_zero_of_length hlen]
  · have hfirst : (t ++ [0x80] ++ zeros (64 - (n % 64 + 1))).length = 64 := by
      rw [List.length_append, hp, zeros_length]
      have := Nat.mod_lt n (show 0 < 64 by decide)
      omega
    have hsecond : (zeros 56 ++ unpack64le (BitVec.ofNat 64 (8 * n))).length = 64 := by simp
    have hblocks : t ++ ripemdPad n = t ++ [0x80] ++ zeros (64 - (n % 64 + 1)) ++
        (zeros 56 ++ unpack64le (BitVec.ofNat 64 (8 * n))) := by
      rw [ripemdPad_of_ge (Nat.le_of_not_lt hroom)]
      simp
    rw [ripemdLastBlocks, if_neg hroom, if_pos (by omega), hblocks, List.range_succ, List.range_one, List.foldl_concat,
      List.foldl_cons, List.foldl_nil, blockOf_append_zero hfirst, blockOf_append_one hfirst hsecond]

/-- Settles O42: the blocks of `finalize` are the last of the padded message (`Ripemd.finalize_eq_foldl`). -/
theorem ripemdDigestFormula : Obligations.RipemdDigestFormula := by
  intro p outlen m padded
  have hblock : (cfgOf p .ripemd256 outlen).block.toNat = 64 := rfl
  have hb : 0 < (cfgOf p .ripemd256 outlen).block.toNat := hblock ▸ Nat.succ_pos 63
  have hc := cfgOf_isCity_eq_false (p := p) (v := .ripemd256) outlen (by decide)
  have hlen : padded.length = 64 * (m.length / 64 + ripemdLastBlocks m.length) := by
    rw [List.length_append, Nat.mul_add, ← ripemdPad_length, ← Nat.add_assoc, Nat.div_add_mod]
  have hengine := (feedBytes_fresh_engine hc hb m).trans (absorbed_of_rmd rfl m)
  refine ⟨hlen ▸ Nat.mul_mod_right _ _, ?_⟩
  rw [hlen, Nat.mul_div_cancel_left _ (by decide), foldl_blockOf_append (fun h d => Ripemd.compress d h),
    ← Ripemd.finalize_eq_foldl (tailOf_length 64 m), digest_of_rmd hengine, feedBytes_fresh_pending hc hb,
    feedBytes_fresh hc hb]
  rfl

/-! ### The sponges -/

/-- A list that agrees with another as far as it goes is the beginning of it. -/
theorem eq_take_of_getElem? {l l' : List Byte} {n : Nat} (hlen : l.length = n) (h : ∀ k, k < n → l[k]? = l'[k]?) :
    l = l'.take n := by
  refine List.ext_getElem? fun k => ?_
  by_cases hk : k < n
  · rw [List.getElem?_take_of_lt hk, h k hk]
  · rw [List.getElem?_eq_none (by omega), List.getElem?_eq_none ((List.length_take_le _ _).trans (by omega))]

/-- Settles O48: output byte `k` does not depend on the number of bytes wanted (R113, R136). -/
theorem shorterOutputIsAPrefix : Obligations.ShorterOutputIsAPrefix := by
  refine ⟨fun rounds block n k a h0 h200 => eq_take_of_getElem? (Keccak.squeeze_length h0 h200 a le_rfl) ?_,
    fun rounds n k x => eq_take_of_getElem? (Xoodoo.squeeze_length x le_rfl) ?_⟩
  · intro j hj
    rw [Keccak.squeeze_getElem? h0 h200 a hj, Keccak.squeeze_getElem? h0 h200 a (Nat.lt_add_right k hj)]
  · intro j hj
    rw [Xoodoo.squeeze_getElem? x hj, Xoodoo.squeeze_getElem? x (Nat.lt_add_right k hj)]

theorem Keccak.foldl_round_injective (rs : List (Fin 24)) :
    Function.Injective fun a : KeccakLanes => rs.foldl Keccak.round a := by
  induction rs with
  | nil => exact fun _ _ h => h
  | cons r rs ih => exact ih.comp (Keccak.round_injective r)

theorem KeccakLanes.finite : Finite KeccakLanes :=
  Finite.of_injective (fun (a : KeccakLanes) (i : Fin 25) => a[i]) fun a b h => by
    ext1 i hi
    exact congrFun h ⟨i, hi⟩

/-- Settles O49: every round is injective, and so is their composition, on the finitely many states. -/
theorem keccakPermutationIsBijective : Obligations.KeccakPermutationIsBijective := fun _ =>
  have := KeccakLanes.finite
  Finite.injective_iff_bijective.1 (Keccak.foldl_round_injective _)

end Sys2Proof.Machine
